-- ==== Sys2Proof/Word.lean ====
section
/-! DEFINITION. Word.lean: the two word widths of the block (00_scope.md R12: every quantity is unsigned). -/

namespace Sys2Proof

/-- A byte: "A byte is 8 bits" (R12). -/
abbrev Byte := BitVec 8

/-- A 16-bit word: the command word (R100) and the registers PG, COL, CUR (R32). -/
abbrev Word := BitVec 16

end Sys2Proof
end

