-- ==== Sys2Proof/Syntax.lean ====
section
/-! DEFINITION. Syntax.lean: the fourteen commands of 30_encoding.md R104, one constructor per row of spec/opcode_table.json.
The fields carry the widths of R102 and R103, so every value of Instr is a command some word encodes. -/

namespace Sys2Proof

/-- The command set (R104). `endCmd` is the row END (its own name is a Lean keyword). -/
inductive Instr where
  /-- BINIT (R138): initialise the bus peripheral. -/
  | binit
  /-- START (R139): one Start phase. -/
  | start
  /-- ADDR addr7, dir (R140): one Address phase, dir 0 = write, 1 = read. -/
  | addr (addr7 : BitVec 7) (dir : BitVec 1)
  /-- BYTE imm8 (R141): one Data phase. -/
  | byte (imm8 : Byte)
  /-- STOP (R142): one Stop phase. -/
  | stop
  /-- BEGINC (R153): open a command stream. -/
  | beginc
  /-- BEGIND (R154): open a data stream. -/
  | begind
  /-- WSTRI imm8 (R155): stream one byte. -/
  | wstri (imm8 : Byte)
  /-- WSTRT (R156): stream the whole initialisation table. -/
  | wstrt
  /-- END (R157): end the open stream. -/
  | endCmd
  /-- INIT (R158): the whole initialisation sequence. -/
  | init
  /-- XFER (R172): transfer the frame buffer. -/
  | xfer
  /-- CLEAR (R173): send a frame of 0x00. -/
  | clear
  /-- FILL (R174): send a frame of 0xFF. -/
  | fill
  deriving DecidableEq, Repr

end Sys2Proof
end

