-- ==== Sys2Proof/Decode.lean ====
section
/-! DEFINITION. Decode.lean: the command word's decoder, total and rejecting by name (30_encoding.md R100 to R107), and
after it the encoder, both written from the tables of R100 and R104. -/

namespace Sys2Proof

/-- Why a word is illegal (R105): its opcode is none of R104's, or it is a format-N opcode with a non-zero low byte. -/
inductive DecodeError where
  | unknownOpcode (op : Byte)
  | nonZeroArgument (op arg : Byte)
  deriving DecidableEq, Repr

/-- `op = word[15:8]` (R100). -/
def opOf (word : Word) : Byte := word.extractLsb' 8 8

/-- `arg = word[7:0]` (R100). -/
def argOf (word : Word) : Byte := word.extractLsb' 0 8

/-- `addr7 = word[7:1]` (R103). -/
def addr7Of (word : Word) : BitVec 7 := word.extractLsb' 1 7

/-- `dir = word[0]` (R103). -/
def dirOf (word : Word) : BitVec 1 := word.extractLsb' 0 1

/-- A format-N command: its argument byte must be 0x00 (R101). -/
def formatN (i : Instr) (word : Word) : Except DecodeError Instr :=
  if argOf word = 0x00 then .ok i else .error (.nonZeroArgument (opOf word) (argOf word))

/-- `Decode(word)` (R105), by the opcode map of R104. -/
def decode (word : Word) : Except DecodeError Instr :=
  let op := opOf word
  if op = 0x01 then formatN .binit word
  else if op = 0x10 then formatN .start word
  else if op = 0x11 then .ok (.addr (addr7Of word) (dirOf word))
  else if op = 0x12 then .ok (.byte (argOf word))
  else if op = 0x13 then formatN .stop word
  else if op = 0x20 then formatN .beginc word
  else if op = 0x21 then formatN .begind word
  else if op = 0x22 then .ok (.wstri (argOf word))
  else if op = 0x23 then formatN .wstrt word
  else if op = 0x24 then formatN .endCmd word
  else if op = 0x25 then formatN .init word
  else if op = 0x30 then formatN .xfer word
  else if op = 0x31 then formatN .clear word
  else if op = 0x32 then formatN .fill word
  else .error (.unknownOpcode op)

/-- The host's question of the decoder: the instruction read from a command whose bits are w. A command is one 16-bit word
delivered whole (R100, R73), so there are no bytes to lay out. -/
def decodeTableWord (nbits w : Nat) : Option Instr :=
  match decode (BitVec.ofNat 16 (w % 2 ^ nbits)) with
  | .ok i => some i
  | .error _ => none

/-- The opcode byte of a command (R104). -/
def Instr.opcode : Instr → Byte
  | .binit => 0x01
  | .start => 0x10
  | .addr _ _ => 0x11
  | .byte _ => 0x12
  | .stop => 0x13
  | .beginc => 0x20
  | .begind => 0x21
  | .wstri _ => 0x22
  | .wstrt => 0x23
  | .endCmd => 0x24
  | .init => 0x25
  | .xfer => 0x30
  | .clear => 0x31
  | .fill => 0x32

/-- The argument byte of a command: format N 0x00 (R101), format B imm8 (R102), format A addr7 ‖ dir (R103). -/
def Instr.argument : Instr → Byte
  | .addr addr7 dir => addr7 ++ dir
  | .byte imm8 => imm8
  | .wstri imm8 => imm8
  | .binit | .start | .stop | .beginc | .begind | .wstrt | .endCmd | .init | .xfer | .clear | .fill => 0x00

/-- The command word: op ‖ arg (R100). -/
def encode (i : Instr) : Word := i.opcode ++ i.argument

end Sys2Proof
end

