-- ==== Sys2Proof/Machine/Bus.lean ====
section
/-! DEFINITION. Machine/Bus.lean: the vocabulary of the bus (phases, outcomes, answers, events) and the data the bus
environment is made of (20_memory.md R65 to R70). Types only: what they do is in Machine/Env.lean. -/

namespace Sys2Proof.Machine

/-- The phases that complete and are classified: Start, Address, Data (R132). A Stop is no such phase (R137, 90 C6). -/
inductive PhaseKind where
  | start
  | address
  | data
  deriving DecidableEq, Repr, Inhabited

/-- Phase Outcome (00_scope.md R14): Acknowledged, NotAcknowledged, UnexpectedStatus. -/
inductive PhaseOutcome where
  | ack
  | nack
  | unexpected
  deriving DecidableEq, Repr, Inhabited

/-- What the environment does with an issued phase (R65): never complete it, or complete it with a status. -/
inductive Answer where
  | never
  | done (st : Byte)
  deriving DecidableEq, Repr, Inhabited

/-- An event of TRACE (10_state.md R40): S(st), A(b, st), D(b, st), P. -/
inductive Event where
  | s (st : Byte)
  | a (b st : Byte)
  | d (b st : Byte)
  | p
  deriving DecidableEq, Repr, Inhabited

/-- The per-transaction mode of the display simulator DCS (R68). -/
inductive DcsMode where
  | idle
  | unaddressed
  | awaitControl
  | cmd
  | data
  | ignore
  deriving DecidableEq, Repr, Inhabited

/-- The state of the display-controller simulator DCS (R68). `ram` lists, by flat address page x W + column and in rising
order, the bytes written since its reset; a byte not listed is unspecified (93 U3) and reads as a free value drawn with
`seed` (DESIGN CHOICE, notes/assumptions/14.md, safe). -/
structure Dcs where
  /-- `pwr`: true = on. -/
  pwr : Bool
  /-- `ram[p][c]`, the bytes written so far. -/
  ram : List Host.Cell
  /-- Which draw the unlisted bytes of `ram` come from (the model's own). -/
  seed : Nat
  /-- Write cursor, page. -/
  cp : Nat
  /-- Write cursor, column. -/
  cc : Nat
  /-- `mode`. -/
  mode : DcsMode
  /-- `cmdbuf`: the command bytes of the current command stream. -/
  cmdbuf : List Byte
  deriving DecidableEq, Repr, Inhabited

/-- Which oracle answers the phases (R65): an arbitrary one, the always-acknowledging EnvAck (R67), or DCS (R69). -/
inductive EnvKind where
  /-- An arbitrary oracle `Env(history, kind, byte)` (R65, R66): a free value. -/
  | arbitrary
  /-- EnvAck (R67). -/
  | envAck
  /-- The simulator DCS (R69). -/
  | dcs
  deriving DecidableEq, Repr, Inhabited

/-- What DCS did with a phase it did not acknowledge (93 U12): whether it took it as it takes an acknowledged one, and, for a
byte of a data stream, the value it left in the RAM byte under its cursor if it wrote there of itself. -/
structure Fate where
  taken : Bool
  cell : Option Byte
  deriving DecidableEq, Repr, Inhabited

/-- What is assumed of such a phase (70 R229, 93 U12). -/
inductive UnackedByte where
  /-- Nothing: its Fate is a free value ("k or k + 1", and any RAM byte). -/
  | anyValue
  /-- The controller drops it: the environment of R229's worked example, which "does not store that byte". -/
  | dropped
  deriving DecidableEq, Repr, Inhabited

/-- The bus environment, outside the block (R6, R65). `script` is the test seam of R65: what it lists is answered first,
one entry a phase; `none` leaves that phase to `kind`, `some a` answers `a` in its place, and DCS then takes the phase if `a`
acknowledges it and does as `unacked` says if not (DESIGN CHOICE, notes/assumptions/6.md, 23.md, safe). `epoch` says which free
values the arbitrary oracle and the Fates are: each reset draws new ones, so that nothing relates them before a reset and after
it (R221, 93 U15; notes/assumptions/13.md). -/
structure Bus where
  kind : EnvKind
  epoch : Nat
  script : List (Option Answer)
  unacked : UnackedByte
  dcs : Dcs
  deriving DecidableEq, Repr

end Sys2Proof.Machine
end

