-- ==== Sys2Proof/Config.lean ====
section
/-! DEFINITION. Config.lean: what an implementation of the block fixes (00_scope.md R7 to R10) and the free values of the
model. The parameters are a record that State carries and no step changes (R42; DESIGN CHOICE, notes/assumptions/10.md,
safe), so that every statement holds for every legal configuration and not for the default alone. -/

namespace Sys2Proof

open Sys2Proof.Machine

/-- The parameters of R7, R8, R9, R10. -/
structure Params where
  /-- `W`, screen width in pixels = bytes per page (R7). -/
  w : Nat
  /-- `H`, screen height in pixels (R7). -/
  h : Nat
  /-- `DISP_ADDR` (R9). -/
  dispAddr : BitVec 7
  /-- `ST_START` (R9). -/
  stStart : Byte
  /-- `ST_SLAW_ACK` (R9). -/
  stSlawAck : Byte
  /-- `ST_SLAW_NACK` (R9). -/
  stSlawNack : Byte
  /-- `ST_DATA_ACK` (R9). -/
  stDataAck : Byte
  /-- `ST_DATA_NACK` (R9). -/
  stDataNack : Byte
  /-- `ST_SLAR_ACK` (R9). -/
  stSlarAck : Byte
  /-- `ST_SLAR_NACK` (R9). -/
  stSlarNack : Byte
  /-- `ST_MASK` (R9). -/
  stMask : Byte
  /-- `BR_DIV` (R9). -/
  brDiv : Byte
  /-- `INVERT` (R8). -/
  invert : Bool
  /-- `INIT_TABLE` (R10), the contents of the TABLE space (R61). -/
  initTable : List Byte
  deriving DecidableEq, Repr

/-- `PAGES` = H / 8 (R7). -/
def Params.pages (p : Params) : Nat := p.h / 8

/-- `FB_LEN` = W x PAGES (R7). -/
def Params.fbLen (p : Params) : Nat := p.w * p.pages

/-- `INIT_LEN` (R10). -/
def Params.initLen (p : Params) : Nat := p.initTable.length

namespace Config

/-- `CB_CMD`, the control byte of a command stream (R8, R109). -/
def cbCmd : Byte := 0x00

/-- `CB_DATA`, the control byte of a data stream (R8, R109). -/
def cbData : Byte := 0x40

/-- `CLR_BYTE` (R8, R110). -/
def clrByte : Byte := 0x00

/-- `FILL_BYTE` (R8, R110). -/
def fillByte : Byte := 0xFF

/-- The arbitrary oracle of R65, `Env(history, kind, byte)`, one for each epoch between resets: a free value, never constrained
(notes/assumptions/6.md). -/
opaque busAnswer : Nat → List Event → PhaseKind → Byte → Answer

/-- What the display controller did with a phase it did not acknowledge (93 U12), by epoch, history, kind and byte: a free
value (notes/assumptions/23.md). -/
opaque unacknowledged : Nat → List Event → PhaseKind → Byte → Fate

/-- Draw number n of an unspecified value a host read returns (93 U1, U2, U6, U9; notes/assumptions/5.md). -/
opaque freeRead : Nat → Word

/-- Unlisted byte a of display RAM, draw n (93 U3; notes/assumptions/14.md). -/
opaque ramByte : Nat → Nat → Byte

/-- Draw number n of what a block-only reset finds in the display controller (R221, 93 U15; notes/assumptions/13.md). -/
opaque freeDisplay : Nat → Dcs

/-- The first byte of INIT_TABLE, which the spec leaves OPEN (R10; notes/assumptions/10.md). -/
opaque initTableHead : Byte

/-- The other bytes of INIT_TABLE, which the spec leaves OPEN (R10; notes/assumptions/10.md). -/
opaque initTableTail : List Byte

/-- The INIT_TABLE of State.reset: uninterpreted, of a legal length (1 to 65535, R10). -/
def initTable : List Byte := initTableHead :: initTableTail.take 65534

end Config

/-- The defaults of R7, R8, R9 (those of R9 are the spec's own general knowledge; notes/assumptions/10.md). -/
def Params.default : Params where
  w := 128
  h := 64
  dispAddr := 0x3C
  stStart := 0x08
  stSlawAck := 0x18
  stSlawNack := 0x20
  stDataAck := 0x28
  stDataNack := 0x30
  stSlarAck := 0x40
  stSlarNack := 0x48
  stMask := 0xF8
  brDiv := 72
  invert := true
  initTable := Config.initTable

end Sys2Proof
end

