-- ==== Sys2Proof/Machine/State.lean ====
section
/-! DEFINITION. Machine/State.lean: the state of the machine as plain data (10_state.md R20 to R44, 20_memory.md R60 to
R68), its value after reset, and the reasons a step can stop. -/

namespace Sys2Proof.Machine

/-- TXN, the transaction tracker (R26). -/
inductive Txn where
  | idle
  | started
  | addrW
  | addrR
  deriving DecidableEq, Repr

/-- SESS, the display session state (R28). -/
inductive Sess where
  | off
  | initializing
  | onCommand
  | onData
  deriving DecidableEq, Repr

/-- STRM, the open-stream marker (R29); its encoding 3 is never taken and has no constructor (93 U14). -/
inductive Strm where
  | none
  | cmd
  | data
  deriving DecidableEq, Repr

/-- The two byte spaces the block reads (R60). -/
inductive Space where
  | table
  | frame
  deriving DecidableEq, Repr

/-- An input of the outside world: the host's moves (R33, R39, R62) and the reset event (70 R220, R221). -/
inductive HostInput where
  /-- The host writes register number `reg`; 13 is CMD, any other write is ignored (R39, 93 U9). -/
  | write (reg : Nat) (word : Word)
  /-- The host reads register number `reg` (R39). -/
  | read (reg : Nat)
  /-- The host binds a frame buffer to FRAME (R62, R222). -/
  | bindFrame (bytes : List Byte)
  /-- The host changes one byte of FRAME (R60, R62). -/
  | pokeFrame (addr : Nat) (byte : Byte)
  /-- Reset of the block together with the environment, "at boot" (R220, R221). -/
  | powerOn
  /-- Reset of the block alone (R221). -/
  | blockReset
  deriving DecidableEq, Repr

/-- Why the machine stops with a fault. -/
inductive Fault where
  /-- `MemRead` outside its space: 20_memory.md R64 says no rule ever calls it so, and it gives no value there. Raised by
  `memRead`'s callers (WSTRT, INIT, XFER); safe. No state and no command raises it (Obligations.ExecNeverFaultsOrRefuses). -/
  | readOutsideSpace (space : Space) (addr : Nat)
  deriving DecidableEq, Repr

/-- Why a step is refused. -/
inductive Refusal where
  /-- The arm of an instruction that has no meaning yet; raised by exec's arms only; safe. -/
  | notModelled (mnemonic : String)
  /-- The host binds a buffer that is not exactly FB_LEN bytes: "a buffer of any other length cannot be bound to it"
  (R62). Raised by `bindFrame`; safe. -/
  | frameLength
  /-- The host writes FRAME at an address outside 0 .. FB_LEN-1, which does not exist (R60, R62). Raised by `pokeFrame`; safe. -/
  | frameRange
  /-- The host changes FRAME while BUSY = 1: "the model's host has no move that changes FRAME while BUSY = 1" (93 U8).
  Raised by `bindFrame` and `pokeFrame`; safe. -/
  | frameWhileBusy
  deriving DecidableEq, Repr

/-- The complete state (R20, R40, R60, R68). -/
structure State where
  /-- The configuration (R7 to R11, R42); no step changes it. -/
  cfg : Params
  /-- CTRL (R22): RDY 7, STA 5, STO 4, EN 2. -/
  ctrl : Byte
  /-- STAT (R23). -/
  stat : Byte
  /-- DATA (R24). -/
  data : Byte
  /-- BR (R25). -/
  br : Byte
  /-- PORT (R25): PUE 0. -/
  port : Byte
  /-- TXN (R26). -/
  txn : Txn
  /-- PEND (R27): none, or the kind of the phase issued and not completed. -/
  pend : Option PhaseKind
  /-- SESS (R28). -/
  sess : Sess
  /-- STRM (R29). -/
  strm : Strm
  /-- ABRT (R30). -/
  abrt : Bool
  /-- INITD (R31). -/
  initd : Bool
  /-- PG (R32). -/
  pg : Word
  /-- COL (R32). -/
  col : Word
  /-- CUR (R32). -/
  cur : Word
  /-- The index into INIT_TABLE during WSTRT or INIT, hidden, 0 between commands (R37; notes/assumptions/16.md). -/
  tix : Word
  /-- The word CMD took last (R33); not readable (notes/assumptions/4.md). -/
  cmd : Word
  /-- RES (R34). -/
  res : Byte
  /-- FLT (R35). -/
  flt : Byte
  /-- BUSY bit 0 (R36). -/
  busy : Bool
  /-- TRACE (R40), oldest event first. -/
  trace : List Event
  /-- FRAME (R62): the bytes that differ from 0x00, addresses rising (notes/assumptions/11.md). -/
  frame : List Host.Cell
  /-- The bus environment (R65 to R70). -/
  bus : Bus
  /-- The outside world's inputs not yet taken, oldest first (the model's own; notes/assumptions/9.md). -/
  inputs : List HostInput
  /-- What the last host read returned (the model's own; notes/assumptions/19.md). -/
  rdata : Word
  /-- Whether DATA was written since reset (the model's own; notes/assumptions/5.md). -/
  dataWritten : Bool
  /-- Whether BR was written since reset (the model's own; notes/assumptions/5.md). -/
  brWritten : Bool
  /-- The number of the next free value drawn (the model's own; notes/assumptions/5.md). -/
  draws : Nat
  deriving DecidableEq, Repr

/-- DCS at its reset (R68), its RAM drawn with `seed`. -/
def Dcs.reset (seed : Nat) : Dcs where
  pwr := false
  ram := []
  seed := seed
  cp := 0
  cc := 0
  mode := .idle
  cmdbuf := []

/-- The machine right after reset (R44, R68, R220). STAT, DATA and BR are unspecified there: 0x00, DESIGN CHOICE
(notes/assumptions/1.md, 2.md, 3.md, unsafe); a host read of them before they are written is a free value. The oracle is the arbitrary
one, the configuration the spec's defaults, and nothing is bound to FRAME. -/
def State.reset : State where
  cfg := Params.default
  ctrl := 0x00
  stat := 0x00
  data := 0x00
  br := 0x00
  port := 0x00
  txn := .idle
  pend := none
  sess := .off
  strm := .none
  abrt := false
  initd := false
  pg := 0
  col := 0
  cur := 0
  tix := 0
  cmd := 0
  res := 0x03
  flt := 0x00
  busy := false
  trace := []
  frame := []
  bus := { kind := .arbitrary, epoch := 0, script := [], unacked := .anyValue, dcs := Dcs.reset 0 }
  inputs := []
  rdata := 0
  dataWritten := false
  brWritten := false
  draws := 1

end Sys2Proof.Machine
end

