-- ==== Sys2Proof/Machine/Memory.lean ====
section
/-! DEFINITION. Machine/Memory.lean: byte memories as address-sorted lists of Host.Cell: FRAME (20_memory.md R62) and the
display RAM of DCS (R68). -/

namespace Sys2Proof.Machine

/-- The byte listed at an address, if one is. -/
def Memory.lookup : List Host.Cell → Nat → Option Byte
  | [], _ => none
  | (k, v) :: rest, a => if k = a then some v else Memory.lookup rest a

/-- List a byte at an address, in its sorted place, replacing what was listed there. -/
def Memory.put : List Host.Cell → Nat → Byte → List Host.Cell
  | [], a, v => [(a, v)]
  | (k, u) :: rest, a, v =>
    if a < k then (a, v) :: (k, u) :: rest
    else if a = k then (a, v) :: rest
    else (k, u) :: Memory.put rest a v

/-- Remove what is listed at an address. -/
def Memory.drop : List Host.Cell → Nat → List Host.Cell
  | [], _ => []
  | (k, u) :: rest, a => if k = a then rest else (k, u) :: Memory.drop rest a

/-- What an unlisted byte of FRAME reads as: 0x00 (DESIGN CHOICE, notes/assumptions/11.md, unsafe). -/
def Memory.unlisted : Byte := 0x00

/-- Read one byte of FRAME. -/
def Memory.read (m : List Host.Cell) (a : Nat) : Byte :=
  (Memory.lookup m a).getD Memory.unlisted

/-- Write one byte of FRAME, keeping the canonical form. -/
def Memory.write (m : List Host.Cell) (a : Nat) (v : Byte) : List Host.Cell :=
  if v = Memory.unlisted then Memory.drop m a else Memory.put m a v

/-- The canonical memory that holds `bytes` from address a on and nothing else. -/
def Memory.ofBytes (a : Nat) : List Byte → List Host.Cell
  | [] => []
  | b :: bs => if b = Memory.unlisted then Memory.ofBytes (a + 1) bs else (a, b) :: Memory.ofBytes (a + 1) bs

/-- The addresses rise strictly, and each is at least `low`. -/
def Memory.sortedFrom (low : Nat) : List Host.Cell → Bool
  | [] => true
  | (k, _) :: rest => decide (low ≤ k) && Memory.sortedFrom (k + 1) rest

/-- The canonical form of FRAME: strictly rising addresses, and no entry equal to what an unlisted byte reads as. -/
def Memory.wf (m : List Host.Cell) : Bool :=
  Memory.sortedFrom 0 m && m.all (fun c => decide (c.2 ≠ Memory.unlisted))

/-- Every listed address is below n. -/
def Memory.below (n : Nat) (m : List Host.Cell) : Bool :=
  m.all (fun c => decide (c.1 < n))

end Sys2Proof.Machine
end

