-- ==== Sys2Proof/Machine/Operands.lean ====
section
/-! DEFINITION. Machine/Operands.lean: how an operand becomes a byte on the wire (30_encoding.md R108 to R110, 42 R170)
and the one read primitive of the block (20_memory.md R64). -/

namespace Sys2Proof.Machine

/-- `AddrByte(addr7, dir) = addr7 ‖ dir` (R108). -/
def addrByte (addr7 : BitVec 7) (dir : BitVec 1) : Byte := addr7 ++ dir

/-- The direction bit of an address byte: bit 0 (R108). -/
def dirBit (b : Byte) : BitVec 1 := b.extractLsb' 0 1

/-- `Transform(b)` (R170): the complement when INVERT is true. -/
def transform (p : Params) (b : Byte) : Byte := if p.invert then ~~~b else b

/-- `MemRead(space, a, 1)` (R64): defined inside the space only. -/
def memRead (space : Space) (a : Nat) (s : State) : Option Byte :=
  match space with
  | .table => s.cfg.initTable[a]?
  | .frame => if a < s.cfg.fbLen then some (Memory.read s.frame a) else none

/-- The source of XFER's frame bytes (R172): `Transform(MemRead(FRAME, k, 1))`. -/
def frameSource (s : State) (k : Nat) : Option Byte := (memRead .frame k s).map (transform s.cfg)

/-- The source of CLEAR's frame bytes (R173): 0x00, not transformed. -/
def clearSource (_ : State) (_ : Nat) : Option Byte := some Config.clrByte

/-- The source of FILL's frame bytes (R174): 0xFF, not transformed. -/
def fillSource (_ : State) (_ : Nat) : Option Byte := some Config.fillByte

end Sys2Proof.Machine
end

