-- ==== Sys2Proof/Machine/Flags.lean ====
section
/-! DEFINITION. Machine/Flags.lean: the classification of a status (40 R133), the result byte (10_state.md R34, 40 R130),
the misuse faults and the legality checks (60 R194, R195, R197), and the fields of the registers software reads whole. -/

namespace Sys2Proof.Machine

/-- RDY, bit 7 of CTRL (R22). -/
def ctrlRdy (ctrl : Byte) : Bool := ctrl.getLsbD 7

/-- STA, bit 5 of CTRL (R22). -/
def ctrlSta (ctrl : Byte) : Bool := ctrl.getLsbD 5

/-- STO, bit 4 of CTRL (R22). -/
def ctrlSto (ctrl : Byte) : Bool := ctrl.getLsbD 4

/-- EN, bit 2 of CTRL (R22). -/
def ctrlEn (ctrl : Byte) : Bool := ctrl.getLsbD 2

/-- `Classify(kind, dir, st)` (R133), on `c = st & ST_MASK`. -/
def classify (p : Params) (kind : PhaseKind) (dir : BitVec 1) (st : Byte) : PhaseOutcome :=
  let c := st &&& p.stMask
  match kind with
  | .start => if c = p.stStart then .ack else .unexpected
  | .address =>
    if dir = 0#1 then
      if c = p.stSlawAck then .ack else if c = p.stSlawNack then .nack else .unexpected
    else
      if c = p.stSlarAck then .ack else if c = p.stSlarNack then .nack else .unexpected
  | .data => if c = p.stDataAck then .ack else if c = p.stDataNack then .nack else .unexpected

/-- The OUT code of an Outcome (R34). -/
def PhaseOutcome.code : PhaseOutcome → Byte
  | .ack => 0
  | .nack => 1
  | .unexpected => 2

/-- The FPH code of a phase kind (R34). -/
def PhaseKind.code : PhaseKind → Byte
  | .start => 1
  | .address => 2
  | .data => 3

/-- `ResOf(o, ph)` (R130): 0x00 if Acknowledged, else OUT = o and FPH = ph. -/
def resOf (o : PhaseOutcome) (kind : PhaseKind) : Byte :=
  match o with
  | .ack => 0x00
  | o => o.code ||| (kind.code <<< 2)

/-- RES of a command that executed no acknowledged phase (R34): OUT = NoOutcome. -/
def resNoOutcome : Byte := 0x03

/-- RES of a refused command (R131). -/
def resRefused : Byte := 0x13

/-- RES of a suppressed stream write (R155). -/
def resSkipped : Byte := 0x23

/-- The result of a stream function (R150, R151): (Ack, none), the first Outcome that is not Acknowledged with its phase,
or Skipped. -/
inductive StreamResult where
  | ok
  | failed (o : PhaseOutcome) (kind : PhaseKind)
  | skipped
  deriving DecidableEq, Repr

/-- RES of a stream result (R155, R156, R158, R171). -/
def resOfStream : StreamResult → Byte
  | .ok => 0x00
  | .failed o kind => resOf o kind
  | .skipped => resSkipped

/-- The misuse faults of R194. -/
inductive Misuse where
  | ill
  | noinit
  | proto
  | seq
  deriving DecidableEq, Repr

/-- The FLT bit of a misuse fault (R35). -/
def Misuse.bit : Misuse → Byte
  | .ill => 0x01
  | .noinit => 0x02
  | .proto => 0x04
  | .seq => 0x08

/-- One legality check: the misuse it raises when its condition fails. -/
def require (cond : Bool) (m : Misuse) : Option Misuse := if cond then none else some m

/-- The checks of a command in the order of R197: the first that fails decides. -/
def firstOf : List (Option Misuse) → Option Misuse
  | [] => none
  | none :: rest => firstOf rest
  | some m :: _ => some m

/-- CTRL.EN = 1, else NOINIT (R130). -/
def needEnabled (s : State) : Option Misuse := require (ctrlEn s.ctrl) .noinit

/-- STRM = None, else SEQ. -/
def needNoStream (s : State) : Option Misuse := require (decide (s.strm = .none)) .seq

/-- STRM != None, else SEQ. -/
def needStream (s : State) : Option Misuse := require (decide (s.strm ≠ .none)) .seq

/-- STRM = Cmd, else SEQ. -/
def needCmdStream (s : State) : Option Misuse := require (decide (s.strm = .cmd)) .seq

/-- TXN = t, else PROTO. -/
def needTxn (t : Txn) (s : State) : Option Misuse := require (decide (s.txn = t)) .proto

/-- SESS = OnCommand, else SEQ. -/
def needOnCommand (s : State) : Option Misuse := require (decide (s.sess = .onCommand)) .seq

/-- The encoding of TXN (R26). -/
def Txn.code : Txn → Byte
  | .idle => 0
  | .started => 1
  | .addrW => 2
  | .addrR => 3

/-- The encoding of SESS (R28). -/
def Sess.code : Sess → Byte
  | .off => 0
  | .initializing => 1
  | .onCommand => 2
  | .onData => 3

/-- The encoding of STRM (R29). -/
def Strm.code : Strm → Byte
  | .none => 0
  | .cmd => 1
  | .data => 2

/-- A flag as bit n of a byte. -/
def flagAt (n : Nat) (f : Bool) : Byte := if f then 1 <<< n else 0

/-- SESSR, register 6 (R39): SESS 1:0, STRM 3:2, ABRT 4, INITD 5. -/
def sessr (s : State) : Byte :=
  s.sess.code ||| (s.strm.code <<< 2) ||| flagAt 4 s.abrt ||| flagAt 5 s.initd

end Sys2Proof.Machine
end

