-- ==== Sys2Proof/Machine/Env.lean ====
section
/-! DEFINITION. Machine/Env.lean: the bus environment (20_memory.md R65 to R71): the oracle, EnvAck, and the display
simulator DCS. -/

namespace Sys2Proof.Machine

/-- The status EnvAck completes a phase with (R67). -/
def envAck (p : Params) (kind : PhaseKind) (b : Byte) : Byte :=
  match kind with
  | .start => p.stStart
  | .address => if dirBit b = 0#1 then p.stSlawAck else p.stSlarAck
  | .data => p.stDataAck

/-- `Advance()` (R70): column first, then page, then back to (0, 0). -/
def Dcs.advance (p : Params) (d : Dcs) : Dcs :=
  if d.cc + 1 = p.w then
    if d.cp + 1 = p.pages then { d with cc := 0, cp := 0 } else { d with cc := 0, cp := d.cp + 1 }
  else { d with cc := d.cc + 1 }

/-- The flat address of `ram[page][column]`. -/
def ramAddr (p : Params) (page column : Nat) : Nat := page * p.w + column

/-- `ram[cp][cc] <- b; Advance()` (R69). -/
def Dcs.store (p : Params) (d : Dcs) (b : Byte) : Dcs :=
  Dcs.advance p { d with ram := Memory.put d.ram (ramAddr p d.cp d.cc) b }

/-- A byte of a command stream (R69): power on, cursor home, when the whole table has arrived. -/
def Dcs.command (p : Params) (d : Dcs) (b : Byte) : Dcs :=
  if d.cmdbuf ++ [b] = p.initTable then
    { d with cmdbuf := d.cmdbuf ++ [b], pwr := true, cp := 0, cc := 0 }
  else { d with cmdbuf := d.cmdbuf ++ [b] }

/-- The first data-phase byte of a transaction (R69). -/
def controlMode (b : Byte) : DcsMode :=
  if b = Config.cbCmd then .cmd else if b = Config.cbData then .data else .ignore

/-- DCS answers one phase, at once (R69). -/
def Dcs.phase (p : Params) (d : Dcs) (kind : PhaseKind) (b : Byte) : Byte × Dcs :=
  match kind with
  | .start => (p.stStart, { d with mode := .unaddressed, cmdbuf := [] })
  | .address =>
    if b = addrByte p.dispAddr 0#1 then (p.stSlawAck, { d with mode := .awaitControl })
    else if dirBit b = 0#1 then (p.stSlawNack, { d with mode := .unaddressed })
    else (p.stSlarNack, { d with mode := .unaddressed })
  | .data =>
    match d.mode with
    | .idle => (p.stDataNack, d)
    | .unaddressed => (p.stDataNack, d)
    | .awaitControl => (p.stDataAck, { d with mode := controlMode b })
    | .cmd => (p.stDataAck, Dcs.command p d b)
    | .data => (p.stDataAck, Dcs.store p d b)
    | .ignore => (p.stDataAck, d)

/-- DCS with RAM byte `a` left at the value `cell` names, if it names one. -/
def Dcs.leave (d : Dcs) (a : Nat) (cell : Option Byte) : Dcs :=
  match cell with
  | none => d
  | some v => { d with ram := Memory.put d.ram a v }

/-- DCS after a phase it may have taken or not. -/
def Dcs.took (p : Params) (d : Dcs) (kind : PhaseKind) (b : Byte) (taken : Bool) : Dcs :=
  if taken then (Dcs.phase p d kind b).2 else d

/-- DCS after a phase it did not acknowledge (93 U12, 70 R229): taken or not, and the RAM byte under the cursor at any value
where the phase is a byte of a data stream. -/
def Dcs.unacknowledged (p : Params) (d : Dcs) (kind : PhaseKind) (b : Byte) (fate : Fate) : Dcs :=
  if kind = .data ∧ d.mode = .data then (Dcs.took p d kind b fate.taken).leave (ramAddr p d.cp d.cc) fate.cell
  else Dcs.took p d kind b fate.taken

/-- DCS on a Stop (R69). -/
def Dcs.stop (d : Dcs) : Dcs := { d with mode := .idle }

/-- Read back `ram[page][column]` (R68): the byte written there, or the free value of an unwritten byte (93 U3). -/
def Dcs.readRam (p : Params) (d : Dcs) (page column : Nat) : Byte :=
  (Memory.lookup d.ram (ramAddr p page column)).getD (Config.ramByte d.seed (ramAddr p page column))

/-- Pixel (x, y) is lit (R63, R71): its bit, number y mod 8 of page y div 8, is 1 and the power is on. -/
def Dcs.pixelLit (p : Params) (d : Dcs) (x y : Nat) : Bool :=
  d.pwr && (Dcs.readRam p d (y / 8) x).getLsbD (y % 8)

/-- What a block-only reset finds in the display controller: anything within the ranges of R68 (R221, 93 U15). -/
def Dcs.arbitrary (p : Params) (draw : Nat) : Dcs where
  pwr := (Config.freeDisplay draw).pwr
  ram := []
  seed := draw
  cp := (Config.freeDisplay draw).cp % p.pages
  cc := (Config.freeDisplay draw).cc % p.w
  mode := (Config.freeDisplay draw).mode
  cmdbuf := (Config.freeDisplay draw).cmdbuf

/-- The answer of the oracle of the environment's kind (R65, R67, R69). `trace` is TRACE at the moment of issue. -/
def Bus.answer (p : Params) (trace : List Event) (kind : PhaseKind) (b : Byte) (bus : Bus) : Answer × Bus :=
  match bus.kind with
  | .arbitrary => (Config.busAnswer bus.epoch trace kind b, bus)
  | .envAck => (.done (envAck p kind b), bus)
  | .dcs => (.done (Dcs.phase p bus.dcs kind b).1, { bus with dcs := (Dcs.phase p bus.dcs kind b).2 })

/-- The answer acknowledges the phase (R133); an answer that never comes does not. -/
def Answer.acks (p : Params) (kind : PhaseKind) (b : Byte) (a : Answer) : Bool :=
  match a with
  | .never => false
  | .done st => decide (classify p kind (dirBit b) st = .ack)

/-- The display after a phase answered `a` at the test seam: it takes what was acknowledged (R69, R229), and what was not as
`unacked` says. A display that is not the environment sees nothing. -/
def Bus.scripted (p : Params) (trace : List Event) (kind : PhaseKind) (b : Byte) (a : Answer) (bus : Bus) : Dcs :=
  match bus.kind with
  | .arbitrary => bus.dcs
  | .envAck => bus.dcs
  | .dcs =>
    if a.acks p kind b then (Dcs.phase p bus.dcs kind b).2
    else match bus.unacked with
      | .anyValue => Dcs.unacknowledged p bus.dcs kind b (Config.unacknowledged bus.epoch trace kind b)
      | .dropped => bus.dcs

/-- Ask the environment about an issued phase (R65): the next scripted answer if there is one, else its oracle. -/
def Bus.ask (p : Params) (trace : List Event) (kind : PhaseKind) (b : Byte) (bus : Bus) : Answer × Bus :=
  match bus.script with
  | [] => Bus.answer p trace kind b bus
  | none :: rest => Bus.answer p trace kind b { bus with script := rest }
  | some a :: rest => (a, { bus with script := rest, dcs := Bus.scripted p trace kind b a bus })

/-- The environment sees a Stop; it is asked nothing (R65, R137). -/
def Bus.stop (bus : Bus) : Bus := { bus with dcs := bus.dcs.stop }

end Sys2Proof.Machine
end

