-- ==== Sys2Proof/Machine/Ops.lean ====
section
/-! DEFINITION. Machine/Ops.lean: the operations every command shares: refusing a command (the block's one exception
mechanism, 40 R131), issuing and completing a phase (40 R132), the Stop (40 R137), the command cycle (40 R130), reset
(70 R220, R221), and the host's register reads (10_state.md R39). -/

namespace Sys2Proof.Machine

/-- `Refuse(bit)` (R131): FLT.bit <- 1, RES <- 0x13, nothing else. This is how the block takes a misuse fault (R194):
there is no vector, no saved state and no return (60 R198, R199). -/
def refuse (m : Misuse) (s : State) : State := { s with flt := s.flt ||| m.bit, res := resRefused }

/-- How a piece of a command ends: with a value, in a hang (R144), or in a fault. -/
inductive Ran (α : Type) where
  | done (a : α) (s : State)
  | hung (s : State)
  | fault (r : Fault)

/-- Go on after a piece that ended with a value; a hang or a fault ends everything. -/
def Ran.andThen {α β : Type} (r : Ran α) (f : α → State → Ran β) : Ran β :=
  match r with
  | .done a s => f a s
  | .hung s => .hung s
  | .fault e => .fault e

/-- The command cycle of R130 around a command's own checks and its body: BUSY <- 1; a failed check refuses; else the body
runs, RES is written once and BUSY <- 0. In a hang BUSY stays 1 and RES is not written (R144). -/
def command (check : Option Misuse) (body : State → Ran Byte) (s : State) : Host.Outcome State Fault Refusal :=
  match check with
  | some m => .next { refuse m s with busy := false }
  | none =>
    match body { s with busy := true } with
    | .done r t => .next { t with res := r, busy := false }
    | .hung t => .next t
    | .fault e => .fault e

/-- The value the block writes to CTRL to issue a phase (R22, R132). -/
def issueCtrl : PhaseKind → Byte
  | .start => 0x24
  | .address => 0x04
  | .data => 0x04

/-- Issue a phase (R132): DATA <- byte unless it is a Start, CTRL written (which clears RDY), PEND <- kind. -/
def issue (kind : PhaseKind) (b : Byte) (s : State) : State :=
  match kind with
  | .start => { s with ctrl := issueCtrl kind, pend := some kind }
  | .address => { s with data := b, dataWritten := true, ctrl := issueCtrl kind, pend := some kind }
  | .data => { s with data := b, dataWritten := true, ctrl := issueCtrl kind, pend := some kind }

/-- The event of a completed phase (R40). -/
def eventOf (kind : PhaseKind) (b st : Byte) : Event :=
  match kind with
  | .start => .s st
  | .address => .a b st
  | .data => .d b st

/-- The environment's completion step and what BusPhase does after it (R132): STAT <- st, RDY <- 1, PEND <- None, the event
is appended. -/
def complete (kind : PhaseKind) (b st : Byte) (s : State) : State :=
  { s with stat := st, ctrl := s.ctrl ||| 0x80, pend := none, trace := s.trace ++ [eventOf kind b st] }

/-- The byte the oracle is shown: DATA, ignored for a Start (R65). -/
def shown (kind : PhaseKind) (b : Byte) : Byte :=
  match kind with
  | .start => 0x00
  | .address => b
  | .data => b

/-- `BusPhase(kind, byte)` (R132) in the big-step reading of R145: the status, or a hang. -/
def busPhase (kind : PhaseKind) (b : Byte) (s : State) : Ran Byte :=
  match Bus.ask s.cfg s.trace kind (shown kind b) s.bus with
  | (.never, bus) => .hung { issue kind b s with bus := bus }
  | (.done st, bus) => .done st (complete kind b st { issue kind b s with bus := bus })

/-- The value the block writes to CTRL to drive a Stop (R22, R137). -/
def stopCtrl : Byte := 0x14

/-- `SendStop()` (R137): CTRL <- 0x14, TXN <- Idle, P appended; the environment sees it and is asked nothing. -/
def sendStop (s : State) : State :=
  { s with ctrl := stopCtrl, txn := .idle, trace := s.trace ++ [.p], bus := s.bus.stop }

/-- Every block element at its reset value (R220); configuration, FRAME, the environment, the inputs and the model's own
read result and draw counter are not the block's. -/
def resetBlock (s : State) : State :=
  { State.reset with
    cfg := s.cfg, frame := s.frame, bus := s.bus, inputs := s.inputs, rdata := s.rdata, draws := s.draws }

/-- Reset of the block and of the environment with it, the power-on case (R220, R221). -/
def powerOnReset (s : State) : State :=
  { resetBlock s with bus := { s.bus with epoch := s.draws, dcs := Dcs.reset s.draws }, draws := s.draws + 1 }

/-- Reset of the block alone: the state of the bus and the display is then arbitrary (R221, 93 U15). -/
def blockOnlyReset (s : State) : State :=
  { resetBlock s with bus := { s.bus with epoch := s.draws, dcs := Dcs.arbitrary s.cfg s.draws }, draws := s.draws + 1 }

/-- An 8-bit register read whole, its reserved bits reading 0 (`readable` has a 1 for every bit that is not reserved). -/
def readByte (value readable : Byte) : Word := (value &&& readable).setWidth 16

/-- The value of CTRL on a host read (R22): STO is the bit of the free value `draw` once a Stop has been driven (93 U6). -/
def readCtrl (ctrl : Byte) (draw : Word) : Word :=
  if ctrlSto ctrl then readByte ctrl 0xA4 ||| (draw &&& 0x10) else readByte ctrl 0xA4

/-- The value register number n reads as (R39), `draw` being a free value for what is unspecified: STAT while RDY = 0
(93 U2), DATA and BR not yet written (93 U1), STO after a Stop (93 U6), CMD and numbers above 13 (93 U9). STAT reads under the
constant mask 0xF8 (R23: bits 2:0 read 0; DEDUCED, notes/assumptions/15.md, unsafe) whatever ST_MASK is: which mask a read takes
where ST_MASK is another legal value the spec leaves open (DESIGN CHOICE, notes/assumptions/22.md, unsafe). -/
def registerValue (n : Nat) (draw : Word) (s : State) : Word :=
  match n with
  | 0 => readCtrl s.ctrl draw
  | 1 => if ctrlRdy s.ctrl then readByte s.stat 0xF8 else draw &&& 0x00FF
  | 2 => if s.dataWritten then readByte s.data 0xFF else draw &&& 0x00FF
  | 3 => if s.brWritten then readByte s.br 0xFF else draw &&& 0x00FF
  | 4 => readByte s.port 0x01
  | 5 => readByte s.txn.code 0x03
  | 6 => readByte (sessr s) 0x3F
  | 7 => readByte s.res 0x3F
  | 8 => readByte s.flt 0x0F
  | 9 => readByte (flagAt 0 s.busy) 0x01
  | 10 => s.pg
  | 11 => s.col
  | 12 => s.cur
  | _ => draw

/-- The host reads register number n (R39): no register changes. -/
def hostRead (n : Nat) (s : State) : State :=
  { s with rdata := registerValue n (Config.freeRead s.draws) s, draws := s.draws + 1 }

end Sys2Proof.Machine
end

