-- ==== Sys2Proof/Machine/Engine.lean ====
section
/-! DEFINITION. Machine/Engine.lean: the Bus Master Engine: its phase primitives (40 R134 to R136; SendStop is in Ops) and
its commands BINIT, START, ADDR, BYTE, STOP (R138 to R142). No primitive retries, aborts or stops by itself (R143). -/

namespace Sys2Proof.Machine

/-- `SendStart()` (R134): TXN <- Started only when Acknowledged. -/
def sendStart (s : State) : Ran PhaseOutcome :=
  (busPhase .start 0x00 s).andThen fun st t =>
    match classify t.cfg .start 0#1 st with
    | .ack => .done .ack { t with txn := .started }
    | o => .done o t

/-- The TXN value after an Address phase, whatever its Outcome (R135). -/
def txnAfterAddress (dir : BitVec 1) : Txn := if dir = 0#1 then .addrW else .addrR

/-- `SendAddress(addr7, dir)` (R135). -/
def sendAddress (addr7 : BitVec 7) (dir : BitVec 1) (s : State) : Ran PhaseOutcome :=
  (busPhase .address (addrByte addr7 dir) s).andThen fun st t =>
    .done (classify t.cfg .address dir st) { t with txn := txnAfterAddress dir }

/-- `SendByte(b)` (R136). -/
def sendByte (b : Byte) (s : State) : Ran PhaseOutcome :=
  (busPhase .data b s).andThen fun st t => .done (classify t.cfg .data 0#1 st) t

/-- PORT.PUE <- 1 (R25): bit 0 of PORT. -/
def setPue (port : Byte) : Byte := port ||| 0x01

/-- The CTRL value BINIT writes: EN = 1, RDY = STA = STO = 0 (R138). -/
def enableCtrl : Byte := 0x04

/-- What BINIT does once accepted (R138). -/
def initPeripheral (s : State) : State :=
  { s with br := s.cfg.brDiv, brWritten := true, port := setPue s.port, ctrl := enableCtrl }

/-- BINIT (R138). -/
def execBinit (s : State) : Host.Outcome State Fault Refusal :=
  command (firstOf [needNoStream s, needTxn .idle s]) (fun t => .done resNoOutcome (initPeripheral t)) s

/-- START (R139). -/
def execStart (s : State) : Host.Outcome State Fault Refusal :=
  command (firstOf [needEnabled s, needNoStream s, needTxn .idle s])
    (fun t => (sendStart t).andThen fun o u => .done (resOf o .start) u) s

/-- ADDR addr7, dir (R140). -/
def execAddr (addr7 : BitVec 7) (dir : BitVec 1) (s : State) : Host.Outcome State Fault Refusal :=
  command (firstOf [needEnabled s, needNoStream s, needTxn .started s])
    (fun t => (sendAddress addr7 dir t).andThen fun o u => .done (resOf o .address) u) s

/-- BYTE imm8 (R141). -/
def execByte (imm8 : Byte) (s : State) : Host.Outcome State Fault Refusal :=
  command (firstOf [needEnabled s, needNoStream s, needTxn .addrW s])
    (fun t => (sendByte imm8 t).andThen fun o u => .done (resOf o .data) u) s

/-- STOP (R142). -/
def execStop (s : State) : Host.Outcome State Fault Refusal :=
  command (firstOf [needEnabled s, needNoStream s]) (fun t => .done resNoOutcome (sendStop t)) s

end Sys2Proof.Machine
end

