-- ==== Sys2Proof/Machine/Session.lean ====
section
/-! DEFINITION. Machine/Session.lean: the Display Session Controller: the stream functions (41 R150 to R152) and the
commands BEGINC, BEGIND, WSTRI, WSTRT, END, INIT (R153 to R158). It implements the corrected contract, abort on the first
Outcome that is not Acknowledged and always one Stop (R161, 90 C2, C7). -/

namespace Sys2Proof.Machine

/-- The start of BeginStream (R150): STRM <- mode, ABRT <- 0, INITD <- 0. -/
def openStream (mode : Strm) (s : State) : State := { s with strm := mode, abrt := false, initd := false }

/-- A phase of a stream returned o: go on if it is Acknowledged, else set ABRT and report it (R150, R151). -/
def unlessFailed (o : PhaseOutcome) (kind : PhaseKind) (s : State) (next : State → Ran StreamResult) : Ran StreamResult :=
  match o with
  | .ack => next s
  | o => .done (.failed o kind) { s with abrt := true }

/-- `BeginStream(cb, mode)` (R150): Start, Address for write, control byte; stops at the first failure. -/
def beginStream (cb : Byte) (mode : Strm) (s : State) : Ran StreamResult :=
  (sendStart (openStream mode s)).andThen fun o1 s1 =>
    unlessFailed o1 .start s1 fun t1 =>
      (sendAddress t1.cfg.dispAddr 0#1 t1).andThen fun o2 s2 =>
        unlessFailed o2 .address s2 fun t2 =>
          (sendByte cb t2).andThen fun o3 s3 =>
            unlessFailed o3 .data s3 fun t3 => .done .ok t3

/-- `WriteStream([b])` (R151) for one byte: nothing is sent when ABRT = 1. -/
def writeByte (b : Byte) (s : State) : Ran StreamResult :=
  if s.abrt then .done .skipped s
  else (sendByte b s).andThen fun o t => unlessFailed o .data t fun u => .done .ok u

/-- `n` bytes of TABLE from index `i` on, each read just before it is sent (R156); `tix` is the index (R37). -/
def tableLoop : Nat → Nat → State → Ran StreamResult
  | 0, _, s => .done .ok s
  | n + 1, i, s =>
    match memRead .table i s with
    | none => .fault (.readOutsideSpace .table i)
    | some b =>
      (writeByte b { s with tix := BitVec.ofNat 16 i }).andThen fun r t =>
        match r with
        | .ok => tableLoop n (i + 1) t
        | r => .done r t

/-- `WriteStream` of the whole table, and INITD <- 1 if all of it was acknowledged (R156, R158). The index is not kept (R37). -/
def writeTable (s : State) : Ran StreamResult :=
  if s.abrt then .done .skipped s
  else (tableLoop s.cfg.initLen 0 s).andThen fun r t =>
    match r with
    | .ok => .done .ok { t with tix := 0, initd := true }
    | r => .done r { t with tix := 0 }

/-- The session state after a stream is ended (R152). -/
def sessAfterEnd (sess : Sess) (initd : Bool) : Sess :=
  match sess with
  | .initializing => if initd then .onCommand else .off
  | .onData => .onCommand
  | sess => sess

/-- `EndStream()` (R152): the Stop, always; then SESS, STRM, ABRT, INITD. -/
def endStream (s : State) : State :=
  { sendStop s with sess := sessAfterEnd s.sess s.initd, strm := .none, abrt := false, initd := false }

/-- `if SESS = Off: SESS <- Initializing` (R153, R158). -/
def sessForCommands (s : State) : State :=
  { s with sess := match s.sess with
      | .off => .initializing
      | sess => sess }

/-- BEGINC (R153). -/
def execBeginc (s : State) : Host.Outcome State Fault Refusal :=
  command (firstOf [needEnabled s, needNoStream s, needTxn .idle s])
    (fun t => (beginStream Config.cbCmd .cmd (sessForCommands t)).andThen fun r u => .done (resOfStream r) u) s

/-- BEGIND (R154): SESS <- OnData, even if the open fails. -/
def execBegind (s : State) : Host.Outcome State Fault Refusal :=
  command (firstOf [needEnabled s, needNoStream s, needTxn .idle s, needOnCommand s])
    (fun t => (beginStream Config.cbData .data { t with sess := .onData }).andThen fun r u => .done (resOfStream r) u) s

/-- WSTRI imm8 (R155): the byte is sent as given. -/
def execWstri (imm8 : Byte) (s : State) : Host.Outcome State Fault Refusal :=
  command (firstOf [needEnabled s, needStream s])
    (fun t => (writeByte imm8 t).andThen fun r u => .done (resOfStream r) u) s

/-- WSTRT (R156). -/
def execWstrt (s : State) : Host.Outcome State Fault Refusal :=
  command (firstOf [needEnabled s, needCmdStream s])
    (fun t => (writeTable t).andThen fun r u => .done (resOfStream r) u) s

/-- END (R157). -/
def execEnd (s : State) : Host.Outcome State Fault Refusal :=
  command (firstOf [needEnabled s, needStream s]) (fun t => .done resNoOutcome (endStream t)) s

/-- `runInitializationSequence` once accepted (R158): begin, the table if the open succeeded, and always the end. -/
def initSequence (s : State) : Ran Byte :=
  (beginStream Config.cbCmd .cmd (sessForCommands s)).andThen fun r t =>
    match r with
    | .ok => (writeTable t).andThen fun r2 u => .done (resOfStream r2) (endStream u)
    | r => .done (resOfStream r) (endStream t)

/-- INIT (R158). -/
def execInit (s : State) : Host.Outcome State Fault Refusal :=
  command (firstOf [needEnabled s, needNoStream s, needTxn .idle s]) initSequence s

end Sys2Proof.Machine
end

