-- ==== Sys2Proof/Machine/Frame.lean ====
section
/-! DEFINITION. Machine/Frame.lean: the Frame Transfer Driver: the loop EmitFrame (42 R171) and the commands XFER, CLEAR,
FILL (R172 to R174). -/

namespace Sys2Proof.Machine

/-- `n` frame bytes of the current page, from the byte CUR on (R171's inner loop, which runs while COL < W;
notes/assumptions/17.md). -/
def emitColumns (src : State → Nat → Option Byte) : Nat → State → Ran StreamResult
  | 0, s => .done .ok s
  | n + 1, s =>
    match src s s.cur.toNat with
    | none => .fault (.readOutsideSpace .frame s.cur.toNat)
    | some b =>
      (writeByte b s).andThen fun r t =>
        match r with
        | .ok => emitColumns src n { t with col := t.col + 1, cur := t.cur + 1 }
        | r => .done r t

/-- `n` pages from the page PG on (R171's outer loop, which runs while PG < PAGES; notes/assumptions/17.md). -/
def emitPages (src : State → Nat → Option Byte) : Nat → State → Ran StreamResult
  | 0, s => .done .ok s
  | n + 1, s =>
    (emitColumns src s.cfg.w s).andThen fun r t =>
      match r with
      | .ok => emitPages src n { t with col := 0, pg := t.pg + 1 }
      | r => .done r t

/-- The start of EmitFrame (R171): PG, COL, CUR <- 0 and SESS <- OnData. -/
def beginFrame (s : State) : State := { s with pg := 0, col := 0, cur := 0, sess := .onData }

/-- `EmitFrame(src)` (R171): open, the frame bytes if the open succeeded, and always the end. -/
def emitFrame (src : State → Nat → Option Byte) (s : State) : Ran Byte :=
  (beginStream Config.cbData .data (beginFrame s)).andThen fun r t =>
    match r with
    | .ok => (emitPages src t.cfg.pages t).andThen fun r2 u => .done (resOfStream r2) (endStream u)
    | r => .done (resOfStream r) (endStream t)

/-- The checks of a frame command (R172 to R174), in the order of R197. -/
def frameChecks (s : State) : Option Misuse :=
  firstOf [needEnabled s, needNoStream s, needTxn .idle s, needOnCommand s]

/-- XFER (R172). -/
def execXfer (s : State) : Host.Outcome State Fault Refusal := command (frameChecks s) (emitFrame frameSource) s

/-- CLEAR (R173). -/
def execClear (s : State) : Host.Outcome State Fault Refusal := command (frameChecks s) (emitFrame clearSource) s

/-- FILL (R174). -/
def execFill (s : State) : Host.Outcome State Fault Refusal := command (frameChecks s) (emitFrame fillSource) s

end Sys2Proof.Machine
end

