-- ==== Sys2Proof/Machine/Dispatch.lean ====
section
/-! DEFINITION. Machine/Dispatch.lean: one arm per command, one direct call of its meaning. -/

namespace Sys2Proof.Machine

def exec (i : Instr) (s : State) : Host.Outcome State Fault Refusal :=
  match i with
  | .binit => Sys2Proof.Machine.execBinit s
  | .start => Sys2Proof.Machine.execStart s
  | .addr addr7 dir => Sys2Proof.Machine.execAddr addr7 dir s
  | .byte imm8 => Sys2Proof.Machine.execByte imm8 s
  | .stop => Sys2Proof.Machine.execStop s
  | .beginc => Sys2Proof.Machine.execBeginc s
  | .begind => Sys2Proof.Machine.execBegind s
  | .wstri imm8 => Sys2Proof.Machine.execWstri imm8 s
  | .wstrt => Sys2Proof.Machine.execWstrt s
  | .endCmd => Sys2Proof.Machine.execEnd s
  | .init => Sys2Proof.Machine.execInit s
  | .xfer => Sys2Proof.Machine.execXfer s
  | .clear => Sys2Proof.Machine.execClear s
  | .fill => Sys2Proof.Machine.execFill s

end Sys2Proof.Machine
end

