-- ==== Sys2Proof/Machine/Port.lean ====
section
/-! DEFINITION. Machine/Port.lean: the inputs of the outside world, one a step: the command port CMD (10_state.md R33, 40
R130), ignored writes and reads of registers (R39), FRAME (20_memory.md R62), and reset (70 R220, R221). -/

namespace Sys2Proof.Machine

/-- The number of CMD (R39). -/
def cmdNumber : Nat := 13

/-- CMD takes a word while BUSY = 0 (R33, R130): an illegal word is refused with ILL, any other runs. -/
def takeWord (word : Word) (s : State) : Host.Outcome State Fault Refusal :=
  match decode word with
  | .ok i => exec i { s with cmd := word }
  | .error _ => .next { refuse .ill { s with cmd := word } with busy := false }

/-- Bind a buffer to FRAME (R62): only while BUSY = 0 (93 U8) and only one of exactly FB_LEN bytes. -/
def bindFrame (bytes : List Byte) (s : State) : Host.Outcome State Fault Refusal :=
  if s.busy then .refused .frameWhileBusy
  else if bytes.length = s.cfg.fbLen then .next { s with frame := Memory.ofBytes 0 bytes }
  else .refused .frameLength

/-- Change one byte of FRAME (R60, R62): only while BUSY = 0 (93 U8) and only inside the space. -/
def pokeFrame (addr : Nat) (b : Byte) (s : State) : Host.Outcome State Fault Refusal :=
  if s.busy then .refused .frameWhileBusy
  else if addr < s.cfg.fbLen then .next { s with frame := Memory.write s.frame addr b }
  else .refused .frameRange

/-- The first reset among the inputs, and the inputs without it. -/
def takeReset : List HostInput → Option (HostInput × List HostInput)
  | [] => none
  | .powerOn :: rest => some (.powerOn, rest)
  | .blockReset :: rest => some (.blockReset, rest)
  | i :: rest => (takeReset rest).map fun x => (x.1, i :: x.2)

/-- A CMD write waits while BUSY = 1 (R33). Meanwhile only a reset, which is not the host's, can come (R221, R226): it is
taken ahead of the waiting write (notes/assumptions/9.md). With none queued nothing changes, for ever (R144). -/
def waitBusy (s : State) : State :=
  match takeReset s.inputs with
  | some (.blockReset, rest) => blockOnlyReset { s with inputs := rest }
  | some (_, rest) => powerOnReset { s with inputs := rest }
  | none => s

/-- The machine takes its next input (R6, R33, R39, R62, R220, R221); with none it stays as it is. -/
def takeInput (s : State) : Host.Outcome State Fault Refusal :=
  match s.inputs with
  | [] => .next s
  | .write reg word :: rest =>
    if reg = cmdNumber then
      if s.busy then .next (waitBusy s) else takeWord word { s with inputs := rest }
    else .next { s with inputs := rest }
  | .read reg :: rest => .next (hostRead reg { s with inputs := rest })
  | .bindFrame bytes :: rest => bindFrame bytes { s with inputs := rest }
  | .pokeFrame addr b :: rest => pokeFrame addr b { s with inputs := rest }
  | .powerOn :: rest => .next (powerOnReset { s with inputs := rest })
  | .blockReset :: rest => .next (blockOnlyReset { s with inputs := rest })

/-- The host is about to write a word to CMD. -/
def placeWord (word : Word) (s : State) : State := { s with inputs := .write cmdNumber word :: s.inputs }

end Sys2Proof.Machine
end

