-- ==== Sys2Proof/Machine/Step.lean ====
section
/-! DEFINITION. Machine/Step.lean: one step is one input of the outside world, taken whole (40 R145's big-step reading). -/

namespace Sys2Proof.Machine

/-- One step of the machine. -/
def step (s : State) : Host.Outcome State Fault Refusal := takeInput s

/-- `s` with the command whose bits are w (numbered as spec/opcode_table.json numbers them) as the host's next write to CMD.
The block fetches no instructions (10_state.md R37): its commands arrive through CMD. -/
def State.withFetchWord (s : State) (nbits w : Nat) : State := placeWord (BitVec.ofNat 16 (w % 2 ^ nbits)) s

end Sys2Proof.Machine
end

