-- ==== Sys2Proof/Machine/Asm.lean ====
section
/-! DEFINITION. Machine/Asm.lean: the assembler text of 30_encoding.md R113: one command a line, the mnemonic in capitals,
byte and address operands in hex, the direction letter W or R, `;` before a comment. -/

namespace Sys2Proof.Machine

/-- The mnemonic of a command (R104), as characters. -/
def mnemonic : Instr → List Char
  | .binit => ['B', 'I', 'N', 'I', 'T']
  | .start => ['S', 'T', 'A', 'R', 'T']
  | .addr _ _ => ['A', 'D', 'D', 'R']
  | .byte _ => ['B', 'Y', 'T', 'E']
  | .stop => ['S', 'T', 'O', 'P']
  | .beginc => ['B', 'E', 'G', 'I', 'N', 'C']
  | .begind => ['B', 'E', 'G', 'I', 'N', 'D']
  | .wstri _ => ['W', 'S', 'T', 'R', 'I']
  | .wstrt => ['W', 'S', 'T', 'R', 'T']
  | .endCmd => ['E', 'N', 'D']
  | .init => ['I', 'N', 'I', 'T']
  | .xfer => ['X', 'F', 'E', 'R']
  | .clear => ['C', 'L', 'E', 'A', 'R']
  | .fill => ['F', 'I', 'L', 'L']

/-- The commands that take no operand (format N, R100). -/
def plainCommands : List Instr :=
  [.binit, .start, .stop, .beginc, .begind, .wstrt, .endCmd, .init, .xfer, .clear, .fill]

/-- The hex digits as the spec writes them (`0x3C`, `0xAF`), each at the place of its value. -/
def hexDigits : List Char := "0123456789ABCDEF".toList

/-- The value of a hex digit: its place among the hex digits, a small letter read as its capital. -/
def hexDigit (c : Char) : Option Nat := hexDigits.idxOf? c.toUpper

/-- A number written in hex, `0x` and one or two digits. -/
def hexNumber : List Char → Option Nat
  | ['0', 'x', d] => hexDigit d
  | ['0', 'x', d, e] => (hexDigit d).bind fun hi => (hexDigit e).map fun lo => hi * 16 + lo
  | _ => none

/-- A byte operand (format B). -/
def byteOperand (token : List Char) : Option Byte := (hexNumber token).map fun n => BitVec.ofNat 8 n

/-- A 7-bit address operand (format A): a value that fits (R12). -/
def addressOperand (token : List Char) : Option (BitVec 7) :=
  (hexNumber token).bind fun n => if n < 128 then some (BitVec.ofNat 7 n) else none

/-- A direction letter: W = 0, R = 1 (R140). -/
def direction (token : List Char) : Option (BitVec 1) :=
  if token = ['W'] then some 0 else if token = ['R'] then some 1 else none

/-- Put a token before others, unless it is empty. -/
def addToken (token : List Char) (rest : List (List Char)) : List (List Char) :=
  if token = [] then rest else token :: rest

/-- The tokens of a line: blanks part them, a comma is one itself, and `;` ends the line. `token` is the one being read. -/
def tokens (token : List Char) : List Char → List (List Char)
  | [] => addToken token []
  | c :: cs =>
    if c = ';' then addToken token []
    else if c = ' ' then addToken token (tokens [] cs)
    else if c = ',' then addToken token ([','] :: tokens [] cs)
    else tokens (token ++ [c]) cs

/-- What a line of assembler text holds. -/
inductive AsmLine where
  /-- Nothing, or a comment only. -/
  | blank
  /-- A command. -/
  | command (i : Instr)
  /-- Text R113 gives no meaning. -/
  | malformed
  deriving DecidableEq, Repr

/-- A line's command, if it was read. -/
def asmResult : Option Instr → AsmLine
  | some i => .command i
  | none => .malformed

/-- Read one line (R113). -/
def assembleLine (line : List Char) : AsmLine :=
  match tokens [] line with
  | [] => .blank
  | [m] => asmResult (plainCommands.find? fun i => decide (mnemonic i = m))
  | [m, x] =>
    if m = mnemonic (.byte 0) then asmResult ((byteOperand x).map .byte)
    else if m = mnemonic (.wstri 0) then asmResult ((byteOperand x).map .wstri)
    else .malformed
  | [m, x, comma, d] =>
    if m = mnemonic (.addr 0 0) ∧ comma = [','] then
      asmResult ((addressOperand x).bind fun a => (direction d).map fun b => .addr a b)
    else .malformed
  | _ => .malformed

/-- Assemble a program: its lines' command words in order (R113: "a straight list of commands"). -/
def assemble : List (List Char) → Option (List Word)
  | [] => some []
  | line :: rest =>
    match assembleLine line with
    | .blank => assemble rest
    | .command i => (assemble rest).map fun ws => encode i :: ws
    | .malformed => none

/-- The hex digit of a value below 16. -/
def digitChar (n : Nat) : Char := hexDigits[n]?.getD '?'

/-- A value below 256 in hex, two digits. -/
def hexText (n : Nat) : List Char := ['0', 'x', digitChar (n / 16), digitChar (n % 16)]

/-- The text of a command (R113). -/
def asmText : Instr → List Char
  | .addr a d => mnemonic (.addr a d) ++ [' '] ++ hexText a.toNat ++ [',', ' ', if d = 0 then 'W' else 'R']
  | .byte b => mnemonic (.byte b) ++ [' '] ++ hexText b.toNat
  | .wstri b => mnemonic (.wstri b) ++ [' '] ++ hexText b.toNat
  | i => mnemonic i

end Sys2Proof.Machine
end

