-- ==== Sys2Proof/WellFormed.lean ====
section
/-! DEFINITION. WellFormed.lean: the checks on what a machine is built from. A command needs none (its fields carry the
widths of R102 and R103); a configuration must meet the constraints of 00_scope.md R7, R9 and R10. -/

namespace Sys2Proof

/-- The geometry of R7: W >= 1, H >= 8, H mod 8 = 0, FB_LEN <= 65535. -/
def Params.geometryOk (p : Params) : Bool :=
  decide (1 ≤ p.w) && decide (8 ≤ p.h) && decide (p.h % 8 = 0) && decide (p.fbLen ≤ 65535)

/-- The seven status codes of R9. -/
def Params.codes (p : Params) : List Byte :=
  [p.stStart, p.stSlawAck, p.stSlawNack, p.stDataAck, p.stDataNack, p.stSlarAck, p.stSlarNack]

/-- No two entries of the list are equal. -/
def distinct : List Byte → Bool
  | [] => true
  | c :: cs => cs.all (fun d => decide (c ≠ d)) && distinct cs

/-- R9: the seven codes are pairwise distinct and each is itself under ST_MASK. -/
def Params.codesOk (p : Params) : Bool :=
  distinct p.codes && p.codes.all (fun c => decide (c &&& p.stMask = c))

/-- R10: 1 <= INIT_LEN <= 65535. -/
def Params.tableOk (p : Params) : Bool :=
  decide (1 ≤ p.initLen) && decide (p.initLen ≤ 65535)

/-- A legal configuration (R7, R9, R10). -/
def Params.wf (p : Params) : Bool :=
  p.geometryOk && p.codesOk && p.tableOk

end Sys2Proof
end

