-- ==== Sys2Proof/Safety.lean ====
section
/-! DEFINITION. Safety.lean: what counts as a safe machine, in the terms the statements use: the invariants of 10_state.md
R41 and R32, the legality matrix of 60 R195, the session transitions of 41 R159, and what a session transaction puts on the
wire (30 R111). -/

namespace Sys2Proof.Machine

/-- How one event of TRACE moves the transaction tracker; none where no rule allows the event there (R26, R41 I10). -/
def traceStep (p : Params) (t : Txn) (e : Event) : Option Txn :=
  match t, e with
  | .idle, .s st => if classify p .start 0#1 st = .ack then some .started else some .idle
  | .started, .a b _ => some (txnAfterAddress (dirBit b))
  | .addrW, .d _ _ => some .addrW
  | _, .p => some .idle
  | _, _ => none

/-- Replay a history from a tracker value: none if it is not in the grammar of R41 I10. -/
def replay (p : Params) : Txn → List Event → Option Txn
  | t, [] => some t
  | t, e :: es =>
    match traceStep p t e with
    | some u => replay p u es
    | none => none

/-- R41 I1 to I5 and I8. -/
abbrev SessionInv (s : State) : Prop :=
  (s.sess = .off → s.strm = .none) ∧ (s.sess = .initializing → s.strm = .cmd) ∧
  (s.sess = .onData ↔ s.strm = .data) ∧ (s.abrt = true → s.strm ≠ .none) ∧
  (s.initd = true → s.strm = .cmd) ∧ (s.txn = .addrR → s.strm = .none)

/-- R41 I6 and I7, between commands. -/
abbrev StreamInv (s : State) : Prop :=
  s.busy = false → s.strm ≠ .none → (s.abrt = false → s.txn = .addrW) ∧ (s.abrt = true → s.txn = .idle ∨ s.txn = .addrW)

/-- R41 I9 and R27: BUSY = 1 exactly while a phase is pending, and then RDY = 0; the table index is 0 between commands. -/
abbrev BusyInv (s : State) : Prop :=
  s.busy = s.pend.isSome ∧ (s.busy = true → ctrlRdy s.ctrl = false) ∧ (s.busy = false → s.tix = 0)

/-- R41 I10: the history is in the grammar, and TXN is where it leaves the transaction. -/
abbrev TraceInv (s : State) : Prop := replay s.cfg .idle s.trace = some s.txn

/-- R195: with CTRL.EN = 0 nothing has happened since reset (R41 I11). -/
abbrev EnableInv (s : State) : Prop :=
  ctrlEn s.ctrl = false → s.txn = .idle ∧ s.strm = .none ∧ s.sess = .off ∧ s.busy = false ∧ s.trace = []

/-- R32: `CUR = PG x W + COL`, and the bounds. -/
abbrev CounterInv (s : State) : Prop :=
  s.cur.toNat = s.pg.toNat * s.cfg.w + s.col.toNat ∧ s.pg.toNat ≤ s.cfg.pages ∧ s.col.toNat < s.cfg.w ∧
  s.cur.toNat ≤ s.cfg.fbLen

/-- The byte values of RES that R34 calls legal. -/
def legalRes : List Byte := [0x00, 0x03, 0x13, 0x23, 0x06, 0x09, 0x0A, 0x0D, 0x0E]

/-- The byte values CTRL ever has (R22, R44). -/
def legalCtrl : List Byte := [0x00, 0x04, 0x24, 0x14, 0xA4, 0x84]

/-- R22, R25, R34, R35: only the values the spec lists, and reserved bits 0. -/
abbrev RegisterInv (s : State) : Prop :=
  s.ctrl ∈ legalCtrl ∧ s.res ∈ legalRes ∧ s.flt &&& 0xF0 = 0 ∧ s.port &&& 0xFE = 0

/-- The canonical form of FRAME and its bounds (R62), and the ranges of R68 for DCS. -/
abbrev MemoryInv (s : State) : Prop :=
  Memory.wf s.frame = true ∧ Memory.below s.cfg.fbLen s.frame = true ∧
  Memory.sortedFrom 0 s.bus.dcs.ram = true ∧ Memory.below s.cfg.fbLen s.bus.dcs.ram = true ∧
  s.bus.dcs.cp < s.cfg.pages ∧ s.bus.dcs.cc < s.cfg.w

/-- The invariant of the machine: every step keeps it, from any state that has it. -/
abbrev Inv (s : State) : Prop :=
  s.cfg.wf = true ∧ SessionInv s ∧ StreamInv s ∧ BusyInv s ∧ TraceInv s ∧ EnableInv s ∧ CounterInv s ∧
  RegisterInv s ∧ MemoryInv s

/-- The answer of a refused command: FLT's bit, RES = 0x13, BUSY back to 0 (R130, R131). -/
def refusedWith (m : Misuse) (s : State) : Host.Outcome State Fault Refusal := .next { refuse m s with busy := false }

/-- The state classes of R195. -/
inductive StateClass where
  | notEnabled
  | idleOff
  | idleOnC
  | started
  | addrW
  | addrR
  | strCmd
  | strData
  deriving DecidableEq, Repr

/-- The column of R195's matrix a state is in. -/
def classOf (s : State) : StateClass :=
  if ctrlEn s.ctrl = false then .notEnabled
  else match s.strm with
    | .cmd => .strCmd
    | .data => .strData
    | .none =>
      match s.txn with
      | .started => .started
      | .addrW => .addrW
      | .addrR => .addrR
      | .idle => if s.sess = .onCommand then .idleOnC else .idleOff

/-- A row of R195's matrix; `none` is `ok`. -/
def row (en0 idleOff idleOnC started addrW addrR strCmd strData : Option Misuse) (c : StateClass) : Option Misuse :=
  match c with
  | .notEnabled => en0
  | .idleOff => idleOff
  | .idleOnC => idleOnC
  | .started => started
  | .addrW => addrW
  | .addrR => addrR
  | .strCmd => strCmd
  | .strData => strData

/-- The legality matrix of R195, row by row as it stands there. -/
def matrix : Instr → StateClass → Option Misuse
  | .binit => row none none none (some .proto) (some .proto) (some .proto) (some .seq) (some .seq)
  | .start => row (some .noinit) none none (some .proto) (some .proto) (some .proto) (some .seq) (some .seq)
  | .addr _ _ => row (some .noinit) (some .proto) (some .proto) none (some .proto) (some .proto) (some .seq) (some .seq)
  | .byte _ => row (some .noinit) (some .proto) (some .proto) (some .proto) none (some .proto) (some .seq) (some .seq)
  | .stop => row (some .noinit) none none none none none (some .seq) (some .seq)
  | .beginc => row (some .noinit) none none (some .proto) (some .proto) (some .proto) (some .seq) (some .seq)
  | .begind => row (some .noinit) (some .seq) none (some .proto) (some .proto) (some .proto) (some .seq) (some .seq)
  | .wstri _ => row (some .noinit) (some .seq) (some .seq) (some .seq) (some .seq) (some .seq) none none
  | .wstrt => row (some .noinit) (some .seq) (some .seq) (some .seq) (some .seq) (some .seq) none (some .seq)
  | .endCmd => row (some .noinit) (some .seq) (some .seq) (some .seq) (some .seq) (some .seq) none none
  | .init => row (some .noinit) none none (some .proto) (some .proto) (some .proto) (some .seq) (some .seq)
  | .xfer => row (some .noinit) (some .seq) none (some .proto) (some .proto) (some .proto) (some .seq) (some .seq)
  | .clear => row (some .noinit) (some .seq) none (some .proto) (some .proto) (some .proto) (some .seq) (some .seq)
  | .fill => row (some .noinit) (some .seq) none (some .proto) (some .proto) (some .proto) (some .seq) (some .seq)

/-- Where the table of R159 takes (SESS, STRM) when command i is accepted and ends; `initd` is INITD before the command and
`res` is RES after it. Commands not in the table leave the pair as it is. -/
def sessionTarget (i : Instr) (pair : Sess × Strm) (initd : Bool) (res : Byte) : Sess × Strm :=
  match i, pair with
  | .beginc, (.off, .none) => (.initializing, .cmd)
  | .beginc, (.onCommand, .none) => (.onCommand, .cmd)
  | .begind, (.onCommand, .none) => (.onData, .data)
  | .endCmd, (.initializing, .cmd) => if initd then (.onCommand, .none) else (.off, .none)
  | .endCmd, (.onCommand, .cmd) => (.onCommand, .none)
  | .endCmd, (.onData, .data) => (.onCommand, .none)
  | .init, (.off, .none) => if res = 0x00 then (.onCommand, .none) else (.off, .none)
  | _, pair => pair

/-- The environment is EnvAck, with no scripted answer (R67). -/
abbrev Acks (s : State) : Prop := s.bus.kind = .envAck ∧ s.bus.script = []

/-- The environment is the simulator DCS, with no scripted answer (R69). -/
abbrev Displays (s : State) : Prop := s.bus.kind = .dcs ∧ s.bus.script = []

/-- A command that opens a transaction is accepted: EN = 1, STRM = None, TXN = Idle (R139, R153, R158). -/
abbrev Ready (s : State) : Prop := ctrlEn s.ctrl = true ∧ s.strm = .none ∧ s.txn = .idle

/-- A frame command is accepted: as `Ready`, with SESS = OnCommand (R172). -/
abbrev FrameReady (s : State) : Prop := Ready s ∧ s.sess = .onCommand

/-- The Outcome of a completed phase as TRACE records it (R133); a Stop has none and counts as Acknowledged. -/
def eventOutcome (p : Params) : Event → PhaseOutcome
  | .s st => classify p .start 0#1 st
  | .a b st => classify p .address (dirBit b) st
  | .d _ st => classify p .data 0#1 st
  | .p => .ack

/-- The RES byte of a completed phase (R130). -/
def eventRes (p : Params) : Event → Byte
  | .s st => resOf (classify p .start 0#1 st) .start
  | .a b st => resOf (classify p .address (dirBit b) st) .address
  | .d _ st => resOf (classify p .data 0#1 st) .data
  | .p => 0x00

/-- The RES byte of the first phase that was not Acknowledged, or 0x00 (R34). -/
def firstFailure (p : Params) : List Event → Byte
  | [] => 0x00
  | e :: es => if eventOutcome p e = .ack then firstFailure p es else eventRes p e

/-- How many phases were Acknowledged. -/
def ackCount (p : Params) : List Event → Nat
  | [] => 0
  | e :: es => (if eventOutcome p e = .ack then 1 else 0) + ackCount p es

/-- A planned phase: its kind and its byte (0x00 for a Start, which has none). -/
abbrev Planned := PhaseKind × Byte

/-- The planned phase an event completes. -/
def plannedOf : Event → Option Planned
  | .s _ => some (.start, 0x00)
  | .a b _ => some (.address, b)
  | .d b _ => some (.data, b)
  | .p => none

/-- R111: the phases of a session transaction before its Stop: Start, the display's write address, the control byte, the
stream's bytes. -/
def wirePlan (p : Params) (cb : Byte) (bytes : List Byte) : List Planned :=
  (.start, 0x00) :: (.address, addrByte p.dispAddr 0#1) :: (.data, cb) :: bytes.map fun b => (.data, b)

/-- The events are the plan, in order, "truncated after the first phase that is not Acknowledged" (R111) and nowhere else. -/
def follows (p : Params) : List Planned → List Event → Bool
  | [], [] => true
  | [], _ :: _ => false
  | _ :: _, [] => false
  | x :: plan, e :: es =>
    decide (plannedOf e = some x) &&
      (if eventOutcome p e = .ack then follows p plan es else decide (es = []))

/-- The events complete the first phases of the plan, all Acknowledged, and another phase is still planned. -/
def ackedSoFar (p : Params) : List Planned → List Event → Bool
  | [], _ => false
  | _ :: _, [] => true
  | x :: plan, e :: es => decide (plannedOf e = some x) && decide (eventOutcome p e = .ack) && ackedSoFar p plan es

/-- The event EnvAck makes of a planned phase (R67). -/
def ackEvent (p : Params) (x : Planned) : Event := eventOf x.1 x.2 (envAck p x.1 x.2)

/-- The bytes a complete XFER streams (R172): Transform(FRAME[k]) for k = 0 .. FB_LEN-1. -/
def xferBytes (s : State) : List Byte := (List.range s.cfg.fbLen).map fun k => transform s.cfg (Memory.read s.frame k)

/-- The bytes a complete CLEAR or FILL streams (R173, R174). -/
def constBytes (s : State) (b : Byte) : List Byte := List.replicate s.cfg.fbLen b

/-- The bytes a frame command streams. -/
def frameBytes (i : Instr) (s : State) : List Byte :=
  match i with
  | .xfer => xferBytes s
  | .clear => constBytes s Config.clrByte
  | .fill => constBytes s Config.fillByte
  | _ => []

/-- Run commands in order, each from the state the one before it ended in; none if one does not end (R37, R144). -/
def runList : List Instr → State → Option State
  | [], s => some s
  | i :: is, s =>
    match exec i s with
    | .next t => if t.busy then none else runList is t
    | .fault _ => none
    | .refused _ => none

/-- The flat address of the DCS cursor (R70, R229). -/
def cursorFlat (p : Params) (d : Dcs) : Nat := d.cp * p.w + d.cc

end Sys2Proof.Machine
end

