-- ==== Sys2Proof/Certificates/Slice0/Obligations.lean ====
section
/-! DEFINITION. Certificates/Slice0/Obligations.lean: the statements for the provers. Each docstring names the rules it
formalises. They hold for every legal configuration and, unless a statement names one, every bus environment. -/

open Sys2Proof Sys2Proof.Machine

/-! ### Encodings -/

/-- R100 to R105: a command's word decodes to the command, at every operand value. -/
def Obligations.EveryCommandDecodesFromItsWord : Prop :=
  ∀ i : Instr, decode (encode i) = .ok i

/-- R104, R105: each legal word is the word of the one command it decodes to. -/
def Obligations.EveryLegalWordIsItsCommandsWord : Prop :=
  ∀ (w : Word) (i : Instr), decode w = .ok i → encode i = w

/-- R105: which words are legal. -/
def Obligations.LegalWordsAreTheOpcodeMap : Prop :=
  ∀ w : Word, (∃ i, decode w = .ok i) ↔
    w.extractLsb' 8 8 ∈ [0x11#8, 0x12#8, 0x22#8] ∨
    (w.extractLsb' 8 8 ∈ [0x01#8, 0x10#8, 0x13#8, 0x20#8, 0x21#8, 0x23#8, 0x24#8, 0x25#8, 0x30#8, 0x31#8, 0x32#8] ∧
      w.extractLsb' 0 8 = 0x00#8)

/-- R104, R105 and the words of 95_test_vectors.md 2.1: some words written out, legal and illegal. -/
def Obligations.SpecWordsDecode : Prop :=
  decode 0x0100 = .ok .binit ∧ decode 0x1178 = .ok (.addr 0x3C 0) ∧ decode 0x1179 = .ok (.addr 0x3C 1) ∧
  decode 0x11FF = .ok (.addr 0x7F 1) ∧ decode 0x1240 = .ok (.byte 0x40) ∧ decode 0x22AF = .ok (.wstri 0xAF) ∧
  decode 0x2500 = .ok .init ∧ decode 0x3000 = .ok .xfer ∧ decode 0x3200 = .ok .fill ∧
  decode 0x0000 = .error (.unknownOpcode 0x00) ∧ decode 0xFFFF = .error (.unknownOpcode 0xFF) ∧
  decode 0x24FF = .error (.nonZeroArgument 0x24 0xFF) ∧ decode 0x7800 = .error (.unknownOpcode 0x78)

/-- R108, R103: the address byte, and that it is the low byte of ADDR's word. -/
def Obligations.AddressByteIsAddressThenDirection : Prop :=
  ∀ (a : BitVec 7) (d : BitVec 1),
    addrByte a d = (a.setWidth 8 <<< 1) ||| d.setWidth 8 ∧ (encode (.addr a d)).extractLsb' 0 8 = addrByte a d ∧
    addrByte 0x3C 0 = 0x78 ∧ addrByte 0x3C 1 = 0x79

/-- R113: the text of a command is read back as that command. -/
def Obligations.AssemblerReadsEveryCommandsText : Prop :=
  ∀ i : Instr, assembleLine (asmText i) = .command i

/-! ### The step and the host's side -/

/-- R33, R130: a word written to CMD while BUSY = 0 that decodes to a command runs that command; around exec the step only
takes the write from the inputs and keeps the word in CMD. -/
def Obligations.StepRunsTheDecodedCommand : Prop :=
  ∀ (s : State) (w : Word) (rest : List HostInput) (i : Instr),
    s.inputs = .write 13 w :: rest → s.busy = false → decode w = .ok i →
    step s = exec i { s with inputs := rest, cmd := w }

/-- R105, R131, R197: an illegal word sets FLT.ILL and RES = 0x13, in every state, and nothing else happens. -/
def Obligations.IllegalWordIsRefused : Prop :=
  ∀ (s : State) (w : Word) (rest : List HostInput) (e : DecodeError),
    s.inputs = .write 13 w :: rest → s.busy = false → decode w = .error e →
    step s = .next { s with inputs := rest, cmd := w, flt := s.flt ||| 0x01, res := 0x13 }

/-- R33, R144: while BUSY = 1 a write of CMD is not accepted; with no reset on its way nothing changes, for ever. -/
def Obligations.CommandWriteWaitsWhileBusy : Prop :=
  ∀ (s : State) (w : Word) (rest : List HostInput),
    s.inputs = .write 13 w :: rest → s.busy = true → HostInput.powerOn ∉ rest → HostInput.blockReset ∉ rest →
    step s = .next s

/-- R221: a reset ends a hang although the host waits in a write of CMD; the write still waits after it (the order among the
inputs is the model's choice, notes/assumptions/9.md). -/
def Obligations.ResetPassesAWaitingWrite : Prop :=
  ∀ (s : State) (w : Word) (before after : List HostInput),
    s.inputs = .write 13 w :: (before ++ .powerOn :: after) → s.busy = true →
    HostInput.powerOn ∉ before → HostInput.blockReset ∉ before →
    ∃ t, step s = .next t ∧ t.inputs = .write 13 w :: (before ++ after) ∧ t.busy = false ∧ t.pend = none ∧ t.ctrl = 0x00

/-- R44, R220: the values the spec gives for reset, at State.reset. -/
def Obligations.ResetStateHasTheSpecsValues : Prop :=
  State.reset.ctrl = 0x00 ∧ State.reset.port.getLsbD 0 = false ∧ State.reset.txn = .idle ∧ State.reset.pend = none ∧
  State.reset.sess = .off ∧ State.reset.strm = .none ∧ State.reset.abrt = false ∧ State.reset.initd = false ∧
  State.reset.pg = 0 ∧ State.reset.col = 0 ∧ State.reset.cur = 0 ∧ State.reset.res = 0x03 ∧ State.reset.flt = 0x00 ∧
  State.reset.busy = false ∧ State.reset.trace = [] ∧ State.reset.bus.dcs.pwr = false ∧ State.reset.bus.dcs.cp = 0 ∧
  State.reset.bus.dcs.cc = 0 ∧ State.reset.bus.dcs.mode = .idle ∧ State.reset.bus.dcs.cmdbuf = []

/-- R220, R221: a reset, at any moment and in any state, gives the block the values of R44 and leaves the configuration and
FRAME alone; a power-on resets the display simulator too. -/
def Obligations.ResetTakesEffectInAnyState : Prop :=
  ∀ (s : State) (rest : List HostInput) (r : HostInput),
    s.inputs = r :: rest → r = .powerOn ∨ r = .blockReset →
    ∃ t, step s = .next t ∧ t.ctrl = 0x00 ∧ t.port = 0x00 ∧ t.txn = .idle ∧ t.pend = none ∧ t.sess = .off ∧ t.strm = .none ∧
      t.abrt = false ∧ t.initd = false ∧ t.pg = 0 ∧ t.col = 0 ∧ t.cur = 0 ∧ t.res = 0x03 ∧ t.flt = 0x00 ∧ t.busy = false ∧
      t.trace = [] ∧ t.cfg = s.cfg ∧ t.frame = s.frame ∧ t.inputs = rest ∧
      (r = .powerOn → t.bus.dcs.pwr = false ∧ t.bus.dcs.cp = 0 ∧ t.bus.dcs.cc = 0 ∧ t.bus.dcs.mode = .idle ∧ t.bus.dcs.cmdbuf = [])

/-- R39: what a host read returns, register by register, and that it changes no register. STAT is stated only while RDY = 1,
DATA and BR only once written, and STO not after a Stop: elsewhere the value is free (93 U1, U2, U6; notes/assumptions/5.md).
That STAT's bits 2:0 read 0 is deduced from R23 (notes/assumptions/15.md); that the read takes the constant mask 0xF8 under
every legal ST_MASK is the model's choice (notes/assumptions/22.md). -/
def Obligations.HostReadReturnsTheRegister : Prop :=
  ∀ (s : State) (rest : List HostInput) (n : Nat), s.inputs = .read n :: rest →
    ∃ v : Word, step s = .next { s with inputs := rest, rdata := v, draws := s.draws + 1 } ∧
      (n = 0 → ctrlSto s.ctrl = false → v = (s.ctrl &&& 0xA4).setWidth 16) ∧
      (n = 0 → ctrlSto s.ctrl = true → v &&& 0xFFEF = (s.ctrl &&& 0xA4).setWidth 16) ∧
      (n = 1 → ctrlRdy s.ctrl = true → v = (s.stat &&& 0xF8).setWidth 16) ∧
      (n = 2 → s.dataWritten = true → v = s.data.setWidth 16) ∧
      (n = 3 → s.brWritten = true → v = s.br.setWidth 16) ∧
      (n = 4 → v = (s.port &&& 0x01).setWidth 16) ∧
      (n = 5 → v = match s.txn with
        | .idle => 0
        | .started => 1
        | .addrW => 2
        | .addrR => 3) ∧
      (n = 6 → v.toNat < 64 ∧ v.extractLsb' 0 2 = s.sess.code.setWidth 2 ∧ v.extractLsb' 2 2 = s.strm.code.setWidth 2 ∧
        v.getLsbD 4 = s.abrt ∧ v.getLsbD 5 = s.initd) ∧
      (n = 7 → v = (s.res &&& 0x3F).setWidth 16) ∧
      (n = 8 → v = (s.flt &&& 0x0F).setWidth 16) ∧
      (n = 9 → v = if s.busy then 1 else 0) ∧
      (n = 10 → v = s.pg) ∧ (n = 11 → v = s.col) ∧ (n = 12 → v = s.cur)

/-- R39, 93 U9: a host write to any register but CMD is ignored. -/
def Obligations.HostWritesOnlyCmd : Prop :=
  ∀ (s : State) (rest : List HostInput) (n : Nat) (w : Word),
    s.inputs = .write n w :: rest → n ≠ 13 → step s = .next { s with inputs := rest }

/-- R62, 93 U8: a buffer of exactly FB_LEN bytes is bound to FRAME while BUSY = 0 and then read back byte by byte, nothing
else changing; any other length, or BUSY = 1, is refused by name. -/
def Obligations.FrameBindsExactlyTheBuffer : Prop :=
  ∀ (s : State) (bytes : List Byte) (rest : List HostInput), s.inputs = .bindFrame bytes :: rest →
    (s.busy = false → bytes.length = s.cfg.fbLen →
      ∃ m, step s = .next { s with inputs := rest, frame := m } ∧ Memory.wf m = true ∧
        ∀ k, k < s.cfg.fbLen → bytes[k]? = some (Memory.read m k)) ∧
    (s.busy = false → bytes.length ≠ s.cfg.fbLen → step s = .refused .frameLength) ∧
    (s.busy = true → step s = .refused .frameWhileBusy)

/-- R60, R62: the host may change one byte of FRAME between commands: that byte reads as written, every other as before, and
the memory keeps its canonical form. Outside the space, or with BUSY = 1, it is refused by name. -/
def Obligations.FrameByteChangesAlone : Prop :=
  ∀ (s : State) (a : Nat) (b : Byte) (rest : List HostInput), s.inputs = .pokeFrame a b :: rest → Memory.wf s.frame = true →
    (s.busy = false → a < s.cfg.fbLen →
      ∃ m, step s = .next { s with inputs := rest, frame := m } ∧ Memory.wf m = true ∧ Memory.read m a = b ∧
        ∀ k, k ≠ a → Memory.read m k = Memory.read s.frame k) ∧
    (s.busy = false → s.cfg.fbLen ≤ a → step s = .refused .frameRange) ∧
    (s.busy = true → step s = .refused .frameWhileBusy)

/-! ### Classification -/

/-- R133: the classification table, for a legal configuration: each phase recognises its own success code and its own one
NACK code, and a Start none. -/
def Obligations.ClassifyFollowsTheTable : Prop :=
  ∀ (p : Params) (st : Byte), p.wf = true →
    (∀ d, classify p .start d st = .ack ↔ st &&& p.stMask = p.stStart) ∧
    (∀ d, classify p .start d st ≠ .nack) ∧
    (classify p .address 0 st = .ack ↔ st &&& p.stMask = p.stSlawAck) ∧
    (classify p .address 0 st = .nack ↔ st &&& p.stMask = p.stSlawNack) ∧
    (classify p .address 1 st = .ack ↔ st &&& p.stMask = p.stSlarAck) ∧
    (classify p .address 1 st = .nack ↔ st &&& p.stMask = p.stSlarNack) ∧
    (∀ d, classify p .data d st = .ack ↔ st &&& p.stMask = p.stDataAck) ∧
    (∀ d, classify p .data d st = .nack ↔ st &&& p.stMask = p.stDataNack)

/-- R34, R130: RES after a command that ended is one of the nine legal values; 0x05 is not among them. -/
def Obligations.ResultByteIsLegal : Prop :=
  ∀ (i : Instr) (s t : State), exec i s = .next t → t.busy = false →
    t.res ∈ [0x00#8, 0x03#8, 0x13#8, 0x23#8, 0x06#8, 0x09#8, 0x0A#8, 0x0D#8, 0x0E#8]

/-! ### Bus Master Engine -/

/-- R138: BINIT: its word, its refusals, its effect (accepted whatever CTRL.EN is), and that repeating it changes nothing. The
field brWritten is the model's own (DESIGN CHOICE, notes/assumptions/5.md). -/
def Obligations.BinitInitialisesThePeripheral : Prop :=
  encode .binit = 0x0100 ∧ ∀ s : State,
    (s.strm ≠ .none → exec .binit s = .next { s with flt := s.flt ||| 0x08, res := 0x13, busy := false }) ∧
    (s.strm = .none → s.txn ≠ .idle → exec .binit s = .next { s with flt := s.flt ||| 0x04, res := 0x13, busy := false }) ∧
    (s.strm = .none → s.txn = .idle →
      exec .binit s = .next { s with
        br := s.cfg.brDiv, brWritten := true, port := s.port ||| 0x01, ctrl := 0x04, res := 0x03, busy := false }) ∧
    (s.strm = .none → s.txn = .idle → ∀ t, exec .binit s = .next t → exec .binit t = .next t)

/-- R139, R134: START: its word, its refusals, its completion, and its hang. A hang as a next state is the model's reading
(DEDUCED, notes/assumptions/7.md). -/
def Obligations.StartIssuesOneStartPhase : Prop :=
  encode .start = 0x1000 ∧ ∀ s : State,
    (ctrlEn s.ctrl = false → exec .start s = .next { s with flt := s.flt ||| 0x02, res := 0x13, busy := false }) ∧
    (ctrlEn s.ctrl = true → s.strm ≠ .none →
      exec .start s = .next { s with flt := s.flt ||| 0x08, res := 0x13, busy := false }) ∧
    (ctrlEn s.ctrl = true → s.strm = .none → s.txn ≠ .idle →
      exec .start s = .next { s with flt := s.flt ||| 0x04, res := 0x13, busy := false }) ∧
    (ctrlEn s.ctrl = true → s.strm = .none → s.txn = .idle →
      ∀ st bus, Bus.ask s.cfg s.trace .start 0x00 s.bus = (.done st, bus) →
        exec .start s = .next { s with
          ctrl := 0xA4, stat := st, pend := none, bus := bus, trace := s.trace ++ [.s st]
          txn := if st &&& s.cfg.stMask = s.cfg.stStart then .started else .idle
          res := if st &&& s.cfg.stMask = s.cfg.stStart then 0x00 else 0x06
          busy := false }) ∧
    (ctrlEn s.ctrl = true → s.strm = .none → s.txn = .idle →
      ∀ bus, Bus.ask s.cfg s.trace .start 0x00 s.bus = (.never, bus) →
        exec .start s = .next { s with ctrl := 0x24, pend := some .start, bus := bus, busy := true })

/-- R140, R135: ADDR: its word, its refusals, its completion, and its hang. TXN moves on whatever the Outcome; in AddrR only
STOP is accepted. The field dataWritten is the model's own (DESIGN CHOICE, notes/assumptions/5.md), and a hang as a next state
is its reading (DEDUCED, notes/assumptions/7.md). -/
def Obligations.AddrIssuesOneAddressPhase : Prop :=
  ∀ (s : State) (a : BitVec 7) (d : BitVec 1),
    encode (.addr a d) = 0x1100 ||| (a.setWidth 16 <<< 1) ||| d.setWidth 16 ∧
    (ctrlEn s.ctrl = true → s.strm = .none → s.txn = .addrR → ∀ i : Instr, i ≠ .stop →
      ∃ m : Misuse, exec i s = .next { s with flt := s.flt ||| m.bit, res := 0x13, busy := false }) ∧
    (ctrlEn s.ctrl = false → exec (.addr a d) s = .next { s with flt := s.flt ||| 0x02, res := 0x13, busy := false }) ∧
    (ctrlEn s.ctrl = true → s.strm ≠ .none →
      exec (.addr a d) s = .next { s with flt := s.flt ||| 0x08, res := 0x13, busy := false }) ∧
    (ctrlEn s.ctrl = true → s.strm = .none → s.txn ≠ .started →
      exec (.addr a d) s = .next { s with flt := s.flt ||| 0x04, res := 0x13, busy := false }) ∧
    (ctrlEn s.ctrl = true → s.strm = .none → s.txn = .started →
      ∀ st bus, Bus.ask s.cfg s.trace .address (a ++ d) s.bus = (.done st, bus) →
        exec (.addr a d) s = .next { s with
          data := a ++ d, dataWritten := true, ctrl := 0x84, stat := st, pend := none, bus := bus
          trace := s.trace ++ [.a (a ++ d) st]
          txn := if d = 0 then .addrW else .addrR
          res :=
            if st &&& s.cfg.stMask = (if d = 0 then s.cfg.stSlawAck else s.cfg.stSlarAck) then 0x00
            else if st &&& s.cfg.stMask = (if d = 0 then s.cfg.stSlawNack else s.cfg.stSlarNack) then 0x09 else 0x0A
          busy := false }) ∧
    (ctrlEn s.ctrl = true → s.strm = .none → s.txn = .started →
      ∀ bus, Bus.ask s.cfg s.trace .address (a ++ d) s.bus = (.never, bus) →
        exec (.addr a d) s = .next { s with
          data := a ++ d, dataWritten := true, ctrl := 0x04, pend := some .address, bus := bus, busy := true })

/-- R141, R136: BYTE: its word, its refusals, its completion, and its hang. The field dataWritten is the model's own
(DESIGN CHOICE, notes/assumptions/5.md), and a hang as a next state is its reading (DEDUCED, notes/assumptions/7.md). -/
def Obligations.ByteIssuesOneDataPhase : Prop :=
  ∀ (s : State) (b : Byte),
    encode (.byte b) = 0x1200 ||| b.setWidth 16 ∧
    (ctrlEn s.ctrl = false → exec (.byte b) s = .next { s with flt := s.flt ||| 0x02, res := 0x13, busy := false }) ∧
    (ctrlEn s.ctrl = true → s.strm ≠ .none →
      exec (.byte b) s = .next { s with flt := s.flt ||| 0x08, res := 0x13, busy := false }) ∧
    (ctrlEn s.ctrl = true → s.strm = .none → s.txn ≠ .addrW →
      exec (.byte b) s = .next { s with flt := s.flt ||| 0x04, res := 0x13, busy := false }) ∧
    (ctrlEn s.ctrl = true → s.strm = .none → s.txn = .addrW →
      ∀ st bus, Bus.ask s.cfg s.trace .data b s.bus = (.done st, bus) →
        exec (.byte b) s = .next { s with
          data := b, dataWritten := true, ctrl := 0x84, stat := st, pend := none, bus := bus
          trace := s.trace ++ [.d b st]
          res :=
            if st &&& s.cfg.stMask = s.cfg.stDataAck then 0x00
            else if st &&& s.cfg.stMask = s.cfg.stDataNack then 0x0D else 0x0E
          busy := false }) ∧
    (ctrlEn s.ctrl = true → s.strm = .none → s.txn = .addrW →
      ∀ bus, Bus.ask s.cfg s.trace .data b s.bus = (.never, bus) →
        exec (.byte b) s = .next { s with
          data := b, dataWritten := true, ctrl := 0x04, pend := some .data, bus := bus, busy := true })

/-- R142, R137: STOP: its word, its refusals, and its effect, in every TXN state. -/
def Obligations.StopDrivesOneStop : Prop :=
  encode .stop = 0x1300 ∧ ∀ s : State,
    (ctrlEn s.ctrl = false → exec .stop s = .next { s with flt := s.flt ||| 0x02, res := 0x13, busy := false }) ∧
    (ctrlEn s.ctrl = true → s.strm ≠ .none →
      exec .stop s = .next { s with flt := s.flt ||| 0x08, res := 0x13, busy := false }) ∧
    (ctrlEn s.ctrl = true → s.strm = .none →
      exec .stop s = .next { s with
        ctrl := 0x14, txn := .idle, trace := s.trace ++ [.p], bus := s.bus.stop, res := 0x03, busy := false })

/-! ### Display Session Controller -/

/-- R153, R154, R150, with every phase Acknowledged by EnvAck (R67): what BEGINC and BEGIND leave. -/
def Obligations.OpenUnderEnvAck : Prop :=
  ∀ s : State, s.cfg.wf = true → Acks s → Ready s →
    exec .beginc s = .next { s with
      ctrl := 0x84, stat := s.cfg.stDataAck, data := 0x00, dataWritten := true, pend := none, txn := .addrW
      sess := if s.sess = .off then .initializing else s.sess
      strm := .cmd, abrt := false, initd := false
      trace := s.trace ++
        [.s s.cfg.stStart, .a (addrByte s.cfg.dispAddr 0) s.cfg.stSlawAck, .d 0x00 s.cfg.stDataAck]
      res := 0x00, busy := false } ∧
    (s.sess = .onCommand →
      exec .begind s = .next { s with
        ctrl := 0x84, stat := s.cfg.stDataAck, data := 0x40, dataWritten := true, pend := none, txn := .addrW
        sess := .onData, strm := .data, abrt := false, initd := false
        trace := s.trace ++
          [.s s.cfg.stStart, .a (addrByte s.cfg.dispAddr 0) s.cfg.stSlawAck, .d 0x40 s.cfg.stDataAck]
        res := 0x00, busy := false })

/-- R150, R153, R154, R161: under any environment an open that ends has issued Start, the display's write address and the
control byte, cut after the first that was not Acknowledged; RES reports that one, ABRT is set exactly then, and the stream
counts as open whatever happened. -/
def Obligations.OpenStopsAtTheFirstFailure : Prop :=
  ∀ (s t : State) (i : Instr) (cb : Byte), Ready s →
    (i = .beginc ∧ cb = 0x00) ∨ (i = .begind ∧ cb = 0x40 ∧ s.sess = .onCommand) →
    exec i s = .next t → t.busy = false →
    ∃ es, t.trace = s.trace ++ es ∧ follows s.cfg (wirePlan s.cfg cb []) es = true ∧ t.res = firstFailure s.cfg es ∧
      (t.abrt = true ↔ firstFailure s.cfg es ≠ 0x00) ∧ t.initd = false ∧
      t.strm = (if i = .beginc then .cmd else .data) ∧
      t.sess = (if i = .begind then .onData else if s.sess = .off then .initializing else s.sess)

/-- R155, R151: WSTRI: its refusals, its suppression after an abort, its completion, and its hang. The field dataWritten is the
model's own (DESIGN CHOICE, notes/assumptions/5.md), and a hang as a next state is its reading (DEDUCED,
notes/assumptions/7.md). -/
def Obligations.WstriStreamsOneByte : Prop :=
  ∀ (s : State) (b : Byte),
    (ctrlEn s.ctrl = false → exec (.wstri b) s = .next { s with flt := s.flt ||| 0x02, res := 0x13, busy := false }) ∧
    (ctrlEn s.ctrl = true → s.strm = .none →
      exec (.wstri b) s = .next { s with flt := s.flt ||| 0x08, res := 0x13, busy := false }) ∧
    (ctrlEn s.ctrl = true → s.strm ≠ .none → s.abrt = true →
      exec (.wstri b) s = .next { s with res := 0x23, busy := false }) ∧
    (ctrlEn s.ctrl = true → s.strm ≠ .none → s.abrt = false →
      ∀ st bus, Bus.ask s.cfg s.trace .data b s.bus = (.done st, bus) →
        exec (.wstri b) s = .next { s with
          data := b, dataWritten := true, ctrl := 0x84, stat := st, pend := none, bus := bus
          trace := s.trace ++ [.d b st]
          abrt := decide (st &&& s.cfg.stMask ≠ s.cfg.stDataAck)
          res :=
            if st &&& s.cfg.stMask = s.cfg.stDataAck then 0x00
            else if st &&& s.cfg.stMask = s.cfg.stDataNack then 0x0D else 0x0E
          busy := false }) ∧
    (ctrlEn s.ctrl = true → s.strm ≠ .none → s.abrt = false →
      ∀ bus, Bus.ask s.cfg s.trace .data b s.bus = (.never, bus) →
        exec (.wstri b) s = .next { s with
          data := b, dataWritten := true, ctrl := 0x04, pend := some .data, bus := bus, busy := true })

/-- R156, with every byte Acknowledged by EnvAck (R67): WSTRT streams the whole table and sets INITD; after an abort it
sends nothing. -/
def Obligations.WstrtUnderEnvAck : Prop :=
  ∀ s : State, s.cfg.wf = true → ctrlEn s.ctrl = true → s.strm = .cmd →
    (s.abrt = false → Acks s →
      exec .wstrt s = .next { s with
        ctrl := 0x84, stat := s.cfg.stDataAck, data := s.cfg.initTable.getLast?.getD 0x00, dataWritten := true, pend := none
        trace := s.trace ++ s.cfg.initTable.map fun b => .d b s.cfg.stDataAck
        initd := true, tix := 0, res := 0x00, busy := false }) ∧
    (s.abrt = true → exec .wstrt s = .next { s with res := 0x23, busy := false })

/-- R156, R151: under any environment, a WSTRT that ends in a command stream not aborted has sent the table's bytes in order,
cut after the first not Acknowledged; INITD is set exactly if all were, ABRT exactly if not. -/
def Obligations.WstrtStreamsTheTableInOrder : Prop :=
  ∀ s t : State, ctrlEn s.ctrl = true → s.strm = .cmd → s.abrt = false → exec .wstrt s = .next t → t.busy = false →
    ∃ es, t.trace = s.trace ++ es ∧ follows s.cfg (s.cfg.initTable.map fun b => (.data, b)) es = true ∧
      t.res = firstFailure s.cfg es ∧ (t.abrt = true ↔ firstFailure s.cfg es ≠ 0x00) ∧
      t.initd = (if firstFailure s.cfg es = 0x00 then true else s.initd) ∧ t.sess = s.sess ∧ t.strm = .cmd ∧ t.txn = s.txn

/-- R157, R152: END always drives one Stop, and what it makes of the session. -/
def Obligations.EndClosesTheStream : Prop :=
  ∀ s : State,
    (ctrlEn s.ctrl = false → exec .endCmd s = .next { s with flt := s.flt ||| 0x02, res := 0x13, busy := false }) ∧
    (ctrlEn s.ctrl = true → s.strm = .none →
      exec .endCmd s = .next { s with flt := s.flt ||| 0x08, res := 0x13, busy := false }) ∧
    (ctrlEn s.ctrl = true → s.strm ≠ .none →
      exec .endCmd s = .next { s with
        ctrl := 0x14, txn := .idle, trace := s.trace ++ [.p], bus := s.bus.stop
        sess :=
          if s.sess = .initializing then (if s.initd = true then .onCommand else .off)
          else if s.sess = .onData then .onCommand else s.sess
        strm := .none, abrt := false, initd := false, res := 0x03, busy := false })

/-- R158, with every phase Acknowledged by EnvAck (R67): INIT's whole transaction and what it leaves. -/
def Obligations.InitUnderEnvAck : Prop :=
  ∀ s : State, s.cfg.wf = true → Acks s → Ready s →
    exec .init s = .next { s with
      ctrl := 0x14, stat := s.cfg.stDataAck, data := s.cfg.initTable.getLast?.getD 0x00, dataWritten := true, pend := none
      txn := .idle, sess := .onCommand, strm := .none, abrt := false, initd := false, tix := 0
      trace := s.trace ++
        ([.s s.cfg.stStart, .a (addrByte s.cfg.dispAddr 0) s.cfg.stSlawAck, .d 0x00 s.cfg.stDataAck] ++
          (s.cfg.initTable.map fun b => .d b s.cfg.stDataAck) ++ [.p])
      bus := s.bus.stop, res := 0x00, busy := false }

/-- R158, R111, R161: under any environment, an INIT that ends has put on the wire Start, the display's write address, 0x00
and the table's bytes in order, cut after the first phase not Acknowledged, and then exactly one Stop; RES is that phase's, and
the session is OnCommand after success and, from Off, Off after a failure. -/
def Obligations.InitIsOneTransaction : Prop :=
  ∀ s t : State, Ready s → s.sess = .off ∨ s.sess = .onCommand → exec .init s = .next t → t.busy = false →
    ∃ es, t.trace = s.trace ++ es ++ [.p] ∧ Event.p ∉ es ∧
      follows s.cfg (wirePlan s.cfg 0x00 s.cfg.initTable) es = true ∧ t.res = firstFailure s.cfg es ∧
      t.sess = (if firstFailure s.cfg es = 0x00 then .onCommand else s.sess) ∧
      t.strm = .none ∧ t.abrt = false ∧ t.initd = false ∧ t.txn = .idle ∧ t.ctrl = 0x14 ∧ t.flt = s.flt

/-- R114, R158: an INIT that ends is BEGINC; WSTRT; END in everything but RES. -/
def Obligations.InitEqualsItsExpansion : Prop :=
  ∀ s t : State, Ready s → exec .init s = .next t → t.busy = false →
    runList [.beginc, .wstrt, .endCmd] s = some { t with res := 0x03 }

/-- R159: the transitions of (SESS, STRM), for every command that is accepted and ends, from every state between commands
that has the invariant. -/
def Obligations.SessionFollowsTheTransitionTable : Prop :=
  ∀ (i : Instr) (s t : State), Inv s → s.busy = false → matrix i (classOf s) = none → exec i s = .next t → t.busy = false →
    (t.sess, t.strm) = sessionTarget i (s.sess, s.strm) s.initd t.res

/-! ### Frame Transfer Driver -/

/-- R170: the transform. -/
def Obligations.TransformIsComplement : Prop :=
  ∀ (p : Params) (b : Byte),
    (p.invert = true → transform p b = ~~~b ∧ transform p b = b ^^^ 0xFF) ∧ (p.invert = false → transform p b = b) ∧
    transform p (transform p b) = b ∧
    (p.invert = true → transform p 0x00 = 0xFF ∧ transform p 0xFF = 0x00 ∧ transform p 0xA5 = 0x5A ∧ transform p 0x01 = 0xFE ∧
      transform p 0x80 = 0x7F)

/-- R171 to R175, with every phase Acknowledged by EnvAck (R67): XFER, CLEAR and FILL send exactly FB_LEN frame bytes, in
order, in one data transaction, and what they leave. -/
def Obligations.FrameUnderEnvAck : Prop :=
  ∀ (s : State) (i : Instr), i ∈ [.xfer, .clear, .fill] → s.cfg.wf = true → Acks s → FrameReady s →
    (frameBytes i s).length = s.cfg.fbLen ∧
    exec i s = .next { s with
      ctrl := 0x14, stat := s.cfg.stDataAck, data := (frameBytes i s).getLast?.getD 0x40, dataWritten := true, pend := none
      txn := .idle, sess := .onCommand, strm := .none, abrt := false, initd := false
      pg := BitVec.ofNat 16 s.cfg.pages, col := 0, cur := BitVec.ofNat 16 s.cfg.fbLen
      trace := s.trace ++
        ([.s s.cfg.stStart, .a (addrByte s.cfg.dispAddr 0) s.cfg.stSlawAck, .d 0x40 s.cfg.stDataAck] ++
          ((frameBytes i s).map fun b => .d b s.cfg.stDataAck) ++ [.p])
      bus := s.bus.stop, res := 0x00, busy := false }

/-- R171 to R175, R179: under any environment, a frame command that ends has put on the wire Start, the display's write
address, 0x40 and the frame's bytes in order, cut after the first phase not Acknowledged, and then exactly one Stop; CUR counts
the frame bytes Acknowledged, and PG and COL are its page and column. -/
def Obligations.FrameIsOneTransaction : Prop :=
  ∀ (s t : State) (i : Instr), i ∈ [.xfer, .clear, .fill] → s.cfg.wf = true → FrameReady s → exec i s = .next t →
    t.busy = false →
    ∃ es, t.trace = s.trace ++ es ++ [.p] ∧ Event.p ∉ es ∧
      follows s.cfg (wirePlan s.cfg 0x40 (frameBytes i s)) es = true ∧ t.res = firstFailure s.cfg es ∧
      t.cur.toNat = ackCount s.cfg es - 3 ∧ t.pg.toNat = t.cur.toNat / s.cfg.w ∧ t.col.toNat = t.cur.toNat % s.cfg.w ∧
      (t.cur.toNat = s.cfg.fbLen ↔ firstFailure s.cfg es = 0x00) ∧
      t.sess = .onCommand ∧ t.strm = .none ∧ t.abrt = false ∧ t.initd = false ∧ t.txn = .idle ∧ t.ctrl = 0x14 ∧ t.flt = s.flt

/-- R114: a frame command that ends is BEGIND, one WSTRI a frame byte, END, in everything but RES and the counters. -/
def Obligations.FrameEqualsItsExpansion : Prop :=
  ∀ (s t : State) (i : Instr), i ∈ [.xfer, .clear, .fill] → s.cfg.wf = true → FrameReady s → exec i s = .next t →
    t.busy = false →
    runList (.begind :: ((frameBytes i s).map .wstri ++ [.endCmd])) s =
      some { t with res := 0x03, pg := s.pg, col := s.col, cur := s.cur }

/-- R176: with the same FRAME and an environment that answers the same (EnvAck), a frame command issued twice appends the same
events twice and ends in the same state. -/
def Obligations.FrameTwiceSendsTheSameBytes : Prop :=
  ∀ (s t : State) (i : Instr), i ∈ [.xfer, .clear, .fill] → s.cfg.wf = true → Acks s → FrameReady s → exec i s = .next t →
    ∃ es, t.trace = s.trace ++ es ∧ exec i t = .next { t with trace := t.trace ++ es }

/-! ### The whole machine -/

/-- R41 I1 to I11, R27, R32, R22, R34, R35, R62, R68: every step from a state with the invariant that gives a next state gives
one with the invariant. -/
def Obligations.StepKeepsTheInvariant : Prop :=
  ∀ s t : State, Inv s → step s = .next t → Inv t

/-- R41, R44: the state after reset has the invariant. -/
def Obligations.ResetHasTheInvariant : Prop := Inv State.reset

/-- R195, R131, R197: in every state between commands that has the invariant, a command is refused exactly where the matrix
has a fault bit, with that bit, and nothing but FLT and RES changes; elsewhere it runs and FLT does not change. -/
def Obligations.LegalityMatrixHolds : Prop :=
  ∀ (i : Instr) (s : State), Inv s → s.busy = false →
    (∀ m, matrix i (classOf s) = some m → exec i s = .next { s with flt := s.flt ||| m.bit, res := 0x13 }) ∧
    (matrix i (classOf s) = none → ∃ t, exec i s = .next t ∧ t.flt = s.flt ∧ (t.busy = false → t.res ≠ 0x13))

/-- R42: the configuration is fixed for the life of the machine. -/
def Obligations.NoStepChangesTheConfiguration : Prop :=
  ∀ s t : State, step s = .next t → t.cfg = s.cfg

/-- R35: a FLT bit once set stays set through every command. -/
def Obligations.FltIsSticky : Prop :=
  ∀ (i : Instr) (s t : State), exec i s = .next t → s.flt &&& t.flt = s.flt

/-- R61, R62, R64, R147: on a legal configuration every command answers a next state in every state; in particular no
address outside TABLE or FRAME is ever generated. -/
def Obligations.ExecNeverFaultsOrRefuses : Prop :=
  ∀ (i : Instr) (s : State), s.cfg.wf = true → ∃ t, exec i s = .next t

/-- R138 to R142, R25, R20: what BINIT, START, ADDR, BYTE and STOP leave unchanged. -/
def Obligations.EngineCommandsFrame : Prop :=
  ∀ (i : Instr) (s t : State),
    i = .binit ∨ i = .start ∨ (∃ a d, i = .addr a d) ∨ (∃ b, i = .byte b) ∨ i = .stop → exec i s = .next t →
    t.cfg = s.cfg ∧ t.sess = s.sess ∧ t.strm = s.strm ∧ t.abrt = s.abrt ∧ t.initd = s.initd ∧ t.pg = s.pg ∧ t.col = s.col ∧
    t.cur = s.cur ∧ t.tix = s.tix ∧ t.cmd = s.cmd ∧ t.inputs = s.inputs ∧ t.rdata = s.rdata ∧ t.draws = s.draws ∧
    (∀ a, Memory.read t.frame a = Memory.read s.frame a) ∧
    (i ≠ .binit → t.br = s.br ∧ t.port = s.port ∧ t.brWritten = s.brWritten) ∧
    (i = .binit ∨ i = .stop → t.stat = s.stat ∧ t.pend = s.pend) ∧
    (i = .binit ∨ i = .start ∨ i = .stop → t.data = s.data ∧ t.dataWritten = s.dataWritten) ∧
    (i = .binit → t.txn = s.txn ∧ t.trace = s.trace ∧ t.bus = s.bus) ∧ (∀ b, i = .byte b → t.txn = s.txn) ∧
    (t.flt = s.flt ∨ ∃ m : Misuse, t = { s with flt := s.flt ||| m.bit, res := 0x13, busy := false })

/-- R153 to R158, R20: what BEGINC, BEGIND, WSTRI, WSTRT, END and INIT leave unchanged. -/
def Obligations.SessionCommandsFrame : Prop :=
  ∀ (i : Instr) (s t : State),
    i = .beginc ∨ i = .begind ∨ (∃ b, i = .wstri b) ∨ i = .wstrt ∨ i = .endCmd ∨ i = .init → exec i s = .next t →
    t.cfg = s.cfg ∧ t.br = s.br ∧ t.port = s.port ∧ t.brWritten = s.brWritten ∧ t.pg = s.pg ∧ t.col = s.col ∧ t.cur = s.cur ∧
    t.cmd = s.cmd ∧ t.inputs = s.inputs ∧ t.rdata = s.rdata ∧ t.draws = s.draws ∧
    (∀ a, Memory.read t.frame a = Memory.read s.frame a) ∧
    (i ≠ .wstrt → i ≠ .init → t.tix = s.tix) ∧
    ((∃ b, i = .wstri b) ∨ i = .wstrt → t.sess = s.sess ∧ t.strm = s.strm ∧ t.txn = s.txn) ∧
    (∀ b, i = .wstri b → t.initd = s.initd) ∧
    (i = .endCmd → t.data = s.data ∧ t.dataWritten = s.dataWritten ∧ t.stat = s.stat ∧ t.pend = s.pend) ∧
    (t.flt = s.flt ∨ ∃ m : Misuse, t = { s with flt := s.flt ||| m.bit, res := 0x13, busy := false })

/-- R172 to R174, R20, R62: what XFER, CLEAR and FILL leave unchanged; the frame buffer is never written. -/
def Obligations.FrameCommandsFrame : Prop :=
  ∀ (i : Instr) (s t : State), i ∈ [.xfer, .clear, .fill] → exec i s = .next t →
    t.cfg = s.cfg ∧ t.br = s.br ∧ t.port = s.port ∧ t.brWritten = s.brWritten ∧ t.tix = s.tix ∧ t.cmd = s.cmd ∧
    t.inputs = s.inputs ∧ t.rdata = s.rdata ∧ t.draws = s.draws ∧ (∀ a, Memory.read t.frame a = Memory.read s.frame a) ∧
    (t.flt = s.flt ∨ ∃ m : Misuse, t = { s with flt := s.flt ||| m.bit, res := 0x13, busy := false })

/-- R144, R193: what a command that hangs leaves: BUSY = 1, the phase pending, RDY = 0, EN = 1, STA only for a Start, RES and
FLT as the command before left them. -/
def Obligations.HangLeavesThePendingPhase : Prop :=
  ∀ (i : Instr) (s t : State), exec i s = .next t → t.busy = true →
    t.pend.isSome = true ∧ ctrlRdy t.ctrl = false ∧ ctrlEn t.ctrl = true ∧ (ctrlSta t.ctrl = true ↔ t.pend = some .start) ∧
    t.res = s.res ∧ t.flt = s.flt

/-- R144, R193: the commands that cannot hang. -/
def Obligations.CommandsThatCannotHang : Prop :=
  ∀ (i : Instr) (s t : State),
    i = .binit ∨ i = .stop ∨ i = .endCmd ∨ (s.abrt = true ∧ (i = .wstrt ∨ ∃ b, i = .wstri b)) → exec i s = .next t →
    t.busy = false

/-- R67, R69: no command hangs under EnvAck or under the display simulator. -/
def Obligations.NoHangWithAnAnsweringBus : Prop :=
  ∀ (i : Instr) (s t : State), Acks s ∨ Displays s → exec i s = .next t → t.busy = false

/-- R41 I11, R138: CTRL.EN is set by an accepted BINIT and by nothing else, and no command clears it. -/
def Obligations.OnlyBinitEnables : Prop :=
  ∀ (i : Instr) (s t : State), exec i s = .next t →
    (ctrlEn t.ctrl = true ↔ ctrlEn s.ctrl = true ∨ (i = .binit ∧ s.strm = .none ∧ s.txn = .idle))

/-- R40, R77: a command only appends to the history. -/
def Obligations.HistoryOnlyGrows : Prop :=
  ∀ (i : Instr) (s t : State), exec i s = .next t → ∃ es, t.trace = s.trace ++ es

/-! ### The display simulator -/

/-- R178, R229, R70: under DCS a frame command from any cursor position writes its bytes from there on, wrapping round the
display RAM, reports success, and leaves the cursor where it was. From cursor (0, 0) that is the picture of R178. -/
def Obligations.FrameReadsBackFromTheCursor : Prop :=
  ∀ (s : State) (i : Instr), i ∈ [.xfer, .clear, .fill] → s.cfg.wf = true → Displays s → FrameReady s →
    s.bus.dcs.cp < s.cfg.pages → s.bus.dcs.cc < s.cfg.w →
    ∃ t, exec i s = .next t ∧ t.res = 0x00 ∧ t.busy = false ∧ t.bus.dcs.cp = s.bus.dcs.cp ∧ t.bus.dcs.cc = s.bus.dcs.cc ∧
      t.bus.dcs.pwr = s.bus.dcs.pwr ∧
      ∀ j, j < s.cfg.fbLen →
        (frameBytes i s)[j]? = some (Dcs.readRam s.cfg t.bus.dcs
          ((j + cursorFlat s.cfg s.bus.dcs) % s.cfg.fbLen / s.cfg.w) ((j + cursorFlat s.cfg s.bus.dcs) % s.cfg.fbLen % s.cfg.w))

/-- R229: under DCS, with the test seam answering ST_DATA_NACK to frame byte k and the display dropping that byte (the
environment of R229's worked example; notes/assumptions/6.md, 23.md), a frame command from cursor (0, 0) fails with RES = 0x0D and
CUR = k, and leaves the display's cursor displaced by k. -/
def Obligations.AbortedFrameDisplacesTheCursor : Prop :=
  ∀ (s : State) (i : Instr) (k : Nat), i ∈ [.xfer, .clear, .fill] → s.cfg.wf = true → FrameReady s → s.bus.kind = .dcs →
    s.bus.unacked = .dropped →
    s.bus.script = List.replicate (3 + k) none ++ [some (.done s.cfg.stDataNack)] → s.bus.dcs.cp = 0 → s.bus.dcs.cc = 0 →
    k < s.cfg.fbLen →
    ∃ t, exec i s = .next t ∧ t.busy = false ∧ t.res = 0x0D ∧ t.cur.toNat = k ∧ t.bus.dcs.cp = k / s.cfg.w ∧
      t.bus.dcs.cc = k % s.cfg.w ∧ t.bus.script = []

/-- R178(b), R71, DOC's property T-P5: under DCS, INIT then FILL lights every pixel, and CLEAR then leaves none lit, whatever
the display held before. -/
def Obligations.InitFillClearShowOnTheDisplay : Prop :=
  ∀ s : State, s.cfg.wf = true → Displays s → Ready s →
    ∃ t u v, exec .init s = .next t ∧ exec .fill t = .next u ∧ exec .clear u = .next v ∧
      t.res = 0x00 ∧ t.bus.dcs.pwr = true ∧ t.bus.dcs.cp = 0 ∧ t.bus.dcs.cc = 0 ∧ u.res = 0x00 ∧ v.res = 0x00 ∧
      ∀ x y, x < s.cfg.w → y < s.cfg.h →
        Dcs.pixelLit s.cfg u.bus.dcs x y = true ∧ Dcs.pixelLit s.cfg v.bus.dcs x y = false

/-- R229, 93 U12: under DCS, whatever the display does with the byte it did not acknowledge (notes/assumptions/23.md): a frame
command from any cursor whose frame byte k is answered with a status that does not acknowledge it ends with CUR = k; the display
holds the k bytes acknowledged, its cursor has advanced by k or by k + 1, and no other RAM byte but the one where byte k
would have gone has changed. -/
def Obligations.AbortedFrameAdvancesByTheAcknowledgedBytes : Prop :=
  ∀ (s : State) (i : Instr) (k : Nat) (st : Byte), i ∈ [.xfer, .clear, .fill] → s.cfg.wf = true → FrameReady s →
    s.bus.kind = .dcs → s.bus.script = List.replicate (3 + k) none ++ [some (.done st)] →
    st &&& s.cfg.stMask ≠ s.cfg.stDataAck → s.bus.dcs.cp < s.cfg.pages → s.bus.dcs.cc < s.cfg.w → k < s.cfg.fbLen →
    ∃ t, exec i s = .next t ∧ t.busy = false ∧ t.res = (if st &&& s.cfg.stMask = s.cfg.stDataNack then 0x0D else 0x0E) ∧
      t.cur.toNat = k ∧ t.bus.script = [] ∧ t.bus.dcs.pwr = s.bus.dcs.pwr ∧
      (cursorFlat s.cfg t.bus.dcs = (cursorFlat s.cfg s.bus.dcs + k) % s.cfg.fbLen ∨
        cursorFlat s.cfg t.bus.dcs = (cursorFlat s.cfg s.bus.dcs + k + 1) % s.cfg.fbLen) ∧
      (∀ j, j < k →
        (frameBytes i s)[j]? = some (Dcs.readRam s.cfg t.bus.dcs
          ((j + cursorFlat s.cfg s.bus.dcs) % s.cfg.fbLen / s.cfg.w) ((j + cursorFlat s.cfg s.bus.dcs) % s.cfg.fbLen % s.cfg.w))) ∧
      (∀ j, k < j → j < s.cfg.fbLen →
        Dcs.readRam s.cfg t.bus.dcs
            ((j + cursorFlat s.cfg s.bus.dcs) % s.cfg.fbLen / s.cfg.w) ((j + cursorFlat s.cfg s.bus.dcs) % s.cfg.fbLen % s.cfg.w) =
          Dcs.readRam s.cfg s.bus.dcs
            ((j + cursorFlat s.cfg s.bus.dcs) % s.cfg.fbLen / s.cfg.w) ((j + cursorFlat s.cfg s.bus.dcs) % s.cfg.fbLen % s.cfg.w))
end

