-- ==== Sys2Proof/Laws/State.lean ====
section
/-! SUPPORT. Laws/State.lean: for each shared update of the state, what each field holds after it; all true by unfolding the
update once, so that no later proof unfolds a record update. -/

namespace Sys2Proof.Machine

/-! ### refuse (R131) -/

@[simp] theorem refuse_cfg (m : Misuse) (s : State) : (refuse m s).cfg = s.cfg := rfl
@[simp] theorem refuse_ctrl (m : Misuse) (s : State) : (refuse m s).ctrl = s.ctrl := rfl
@[simp] theorem refuse_stat (m : Misuse) (s : State) : (refuse m s).stat = s.stat := rfl
@[simp] theorem refuse_data (m : Misuse) (s : State) : (refuse m s).data = s.data := rfl
@[simp] theorem refuse_br (m : Misuse) (s : State) : (refuse m s).br = s.br := rfl
@[simp] theorem refuse_port (m : Misuse) (s : State) : (refuse m s).port = s.port := rfl
@[simp] theorem refuse_txn (m : Misuse) (s : State) : (refuse m s).txn = s.txn := rfl
@[simp] theorem refuse_pend (m : Misuse) (s : State) : (refuse m s).pend = s.pend := rfl
@[simp] theorem refuse_sess (m : Misuse) (s : State) : (refuse m s).sess = s.sess := rfl
@[simp] theorem refuse_strm (m : Misuse) (s : State) : (refuse m s).strm = s.strm := rfl
@[simp] theorem refuse_abrt (m : Misuse) (s : State) : (refuse m s).abrt = s.abrt := rfl
@[simp] theorem refuse_initd (m : Misuse) (s : State) : (refuse m s).initd = s.initd := rfl
@[simp] theorem refuse_pg (m : Misuse) (s : State) : (refuse m s).pg = s.pg := rfl
@[simp] theorem refuse_col (m : Misuse) (s : State) : (refuse m s).col = s.col := rfl
@[simp] theorem refuse_cur (m : Misuse) (s : State) : (refuse m s).cur = s.cur := rfl
@[simp] theorem refuse_tix (m : Misuse) (s : State) : (refuse m s).tix = s.tix := rfl
@[simp] theorem refuse_cmd (m : Misuse) (s : State) : (refuse m s).cmd = s.cmd := rfl
@[simp] theorem refuse_res (m : Misuse) (s : State) : (refuse m s).res = resRefused := rfl
@[simp] theorem refuse_flt (m : Misuse) (s : State) : (refuse m s).flt = s.flt ||| m.bit := rfl
@[simp] theorem refuse_busy (m : Misuse) (s : State) : (refuse m s).busy = s.busy := rfl
@[simp] theorem refuse_trace (m : Misuse) (s : State) : (refuse m s).trace = s.trace := rfl
@[simp] theorem refuse_frame (m : Misuse) (s : State) : (refuse m s).frame = s.frame := rfl
@[simp] theorem refuse_bus (m : Misuse) (s : State) : (refuse m s).bus = s.bus := rfl
@[simp] theorem refuse_inputs (m : Misuse) (s : State) : (refuse m s).inputs = s.inputs := rfl
@[simp] theorem refuse_rdata (m : Misuse) (s : State) : (refuse m s).rdata = s.rdata := rfl
@[simp] theorem refuse_dataWritten (m : Misuse) (s : State) : (refuse m s).dataWritten = s.dataWritten := rfl
@[simp] theorem refuse_brWritten (m : Misuse) (s : State) : (refuse m s).brWritten = s.brWritten := rfl
@[simp] theorem refuse_draws (m : Misuse) (s : State) : (refuse m s).draws = s.draws := rfl

/-! ### complete (R132) -/

@[simp] theorem complete_cfg (kind : PhaseKind) (b st : Byte) (s : State) : (complete kind b st s).cfg = s.cfg := rfl
@[simp] theorem complete_ctrl (kind : PhaseKind) (b st : Byte) (s : State) : (complete kind b st s).ctrl = s.ctrl ||| 0x80 := rfl
@[simp] theorem complete_stat (kind : PhaseKind) (b st : Byte) (s : State) : (complete kind b st s).stat = st := rfl
@[simp] theorem complete_data (kind : PhaseKind) (b st : Byte) (s : State) : (complete kind b st s).data = s.data := rfl
@[simp] theorem complete_br (kind : PhaseKind) (b st : Byte) (s : State) : (complete kind b st s).br = s.br := rfl
@[simp] theorem complete_port (kind : PhaseKind) (b st : Byte) (s : State) : (complete kind b st s).port = s.port := rfl
@[simp] theorem complete_txn (kind : PhaseKind) (b st : Byte) (s : State) : (complete kind b st s).txn = s.txn := rfl
@[simp] theorem complete_pend (kind : PhaseKind) (b st : Byte) (s : State) : (complete kind b st s).pend = none := rfl
@[simp] theorem complete_sess (kind : PhaseKind) (b st : Byte) (s : State) : (complete kind b st s).sess = s.sess := rfl
@[simp] theorem complete_strm (kind : PhaseKind) (b st : Byte) (s : State) : (complete kind b st s).strm = s.strm := rfl
@[simp] theorem complete_abrt (kind : PhaseKind) (b st : Byte) (s : State) : (complete kind b st s).abrt = s.abrt := rfl
@[simp] theorem complete_initd (kind : PhaseKind) (b st : Byte) (s : State) : (complete kind b st s).initd = s.initd := rfl
@[simp] theorem complete_pg (kind : PhaseKind) (b st : Byte) (s : State) : (complete kind b st s).pg = s.pg := rfl
@[simp] theorem complete_col (kind : PhaseKind) (b st : Byte) (s : State) : (complete kind b st s).col = s.col := rfl
@[simp] theorem complete_cur (kind : PhaseKind) (b st : Byte) (s : State) : (complete kind b st s).cur = s.cur := rfl
@[simp] theorem complete_tix (kind : PhaseKind) (b st : Byte) (s : State) : (complete kind b st s).tix = s.tix := rfl
@[simp] theorem complete_cmd (kind : PhaseKind) (b st : Byte) (s : State) : (complete kind b st s).cmd = s.cmd := rfl
@[simp] theorem complete_res (kind : PhaseKind) (b st : Byte) (s : State) : (complete kind b st s).res = s.res := rfl
@[simp] theorem complete_flt (kind : PhaseKind) (b st : Byte) (s : State) : (complete kind b st s).flt = s.flt := rfl
@[simp] theorem complete_busy (kind : PhaseKind) (b st : Byte) (s : State) : (complete kind b st s).busy = s.busy := rfl
@[simp] theorem complete_trace (kind : PhaseKind) (b st : Byte) (s : State) : (complete kind b st s).trace = s.trace ++ [eventOf kind b st] := rfl
@[simp] theorem complete_frame (kind : PhaseKind) (b st : Byte) (s : State) : (complete kind b st s).frame = s.frame := rfl
@[simp] theorem complete_bus (kind : PhaseKind) (b st : Byte) (s : State) : (complete kind b st s).bus = s.bus := rfl
@[simp] theorem complete_inputs (kind : PhaseKind) (b st : Byte) (s : State) : (complete kind b st s).inputs = s.inputs := rfl
@[simp] theorem complete_rdata (kind : PhaseKind) (b st : Byte) (s : State) : (complete kind b st s).rdata = s.rdata := rfl
@[simp] theorem complete_dataWritten (kind : PhaseKind) (b st : Byte) (s : State) : (complete kind b st s).dataWritten = s.dataWritten := rfl
@[simp] theorem complete_brWritten (kind : PhaseKind) (b st : Byte) (s : State) : (complete kind b st s).brWritten = s.brWritten := rfl
@[simp] theorem complete_draws (kind : PhaseKind) (b st : Byte) (s : State) : (complete kind b st s).draws = s.draws := rfl

/-! ### sendStop (R137) -/

@[simp] theorem sendStop_cfg (s : State) : (sendStop s).cfg = s.cfg := rfl
@[simp] theorem sendStop_ctrl (s : State) : (sendStop s).ctrl = stopCtrl := rfl
@[simp] theorem sendStop_stat (s : State) : (sendStop s).stat = s.stat := rfl
@[simp] theorem sendStop_data (s : State) : (sendStop s).data = s.data := rfl
@[simp] theorem sendStop_br (s : State) : (sendStop s).br = s.br := rfl
@[simp] theorem sendStop_port (s : State) : (sendStop s).port = s.port := rfl
@[simp] theorem sendStop_txn (s : State) : (sendStop s).txn = .idle := rfl
@[simp] theorem sendStop_pend (s : State) : (sendStop s).pend = s.pend := rfl
@[simp] theorem sendStop_sess (s : State) : (sendStop s).sess = s.sess := rfl
@[simp] theorem sendStop_strm (s : State) : (sendStop s).strm = s.strm := rfl
@[simp] theorem sendStop_abrt (s : State) : (sendStop s).abrt = s.abrt := rfl
@[simp] theorem sendStop_initd (s : State) : (sendStop s).initd = s.initd := rfl
@[simp] theorem sendStop_pg (s : State) : (sendStop s).pg = s.pg := rfl
@[simp] theorem sendStop_col (s : State) : (sendStop s).col = s.col := rfl
@[simp] theorem sendStop_cur (s : State) : (sendStop s).cur = s.cur := rfl
@[simp] theorem sendStop_tix (s : State) : (sendStop s).tix = s.tix := rfl
@[simp] theorem sendStop_cmd (s : State) : (sendStop s).cmd = s.cmd := rfl
@[simp] theorem sendStop_res (s : State) : (sendStop s).res = s.res := rfl
@[simp] theorem sendStop_flt (s : State) : (sendStop s).flt = s.flt := rfl
@[simp] theorem sendStop_busy (s : State) : (sendStop s).busy = s.busy := rfl
@[simp] theorem sendStop_trace (s : State) : (sendStop s).trace = s.trace ++ [.p] := rfl
@[simp] theorem sendStop_frame (s : State) : (sendStop s).frame = s.frame := rfl
@[simp] theorem sendStop_bus (s : State) : (sendStop s).bus = s.bus.stop := rfl
@[simp] theorem sendStop_inputs (s : State) : (sendStop s).inputs = s.inputs := rfl
@[simp] theorem sendStop_rdata (s : State) : (sendStop s).rdata = s.rdata := rfl
@[simp] theorem sendStop_dataWritten (s : State) : (sendStop s).dataWritten = s.dataWritten := rfl
@[simp] theorem sendStop_brWritten (s : State) : (sendStop s).brWritten = s.brWritten := rfl
@[simp] theorem sendStop_draws (s : State) : (sendStop s).draws = s.draws := rfl

/-! ### initPeripheral (R138) -/

@[simp] theorem initPeripheral_cfg (s : State) : (initPeripheral s).cfg = s.cfg := rfl
@[simp] theorem initPeripheral_ctrl (s : State) : (initPeripheral s).ctrl = enableCtrl := rfl
@[simp] theorem initPeripheral_stat (s : State) : (initPeripheral s).stat = s.stat := rfl
@[simp] theorem initPeripheral_data (s : State) : (initPeripheral s).data = s.data := rfl
@[simp] theorem initPeripheral_br (s : State) : (initPeripheral s).br = s.cfg.brDiv := rfl
@[simp] theorem initPeripheral_port (s : State) : (initPeripheral s).port = setPue s.port := rfl
@[simp] theorem initPeripheral_txn (s : State) : (initPeripheral s).txn = s.txn := rfl
@[simp] theorem initPeripheral_pend (s : State) : (initPeripheral s).pend = s.pend := rfl
@[simp] theorem initPeripheral_sess (s : State) : (initPeripheral s).sess = s.sess := rfl
@[simp] theorem initPeripheral_strm (s : State) : (initPeripheral s).strm = s.strm := rfl
@[simp] theorem initPeripheral_abrt (s : State) : (initPeripheral s).abrt = s.abrt := rfl
@[simp] theorem initPeripheral_initd (s : State) : (initPeripheral s).initd = s.initd := rfl
@[simp] theorem initPeripheral_pg (s : State) : (initPeripheral s).pg = s.pg := rfl
@[simp] theorem initPeripheral_col (s : State) : (initPeripheral s).col = s.col := rfl
@[simp] theorem initPeripheral_cur (s : State) : (initPeripheral s).cur = s.cur := rfl
@[simp] theorem initPeripheral_tix (s : State) : (initPeripheral s).tix = s.tix := rfl
@[simp] theorem initPeripheral_cmd (s : State) : (initPeripheral s).cmd = s.cmd := rfl
@[simp] theorem initPeripheral_res (s : State) : (initPeripheral s).res = s.res := rfl
@[simp] theorem initPeripheral_flt (s : State) : (initPeripheral s).flt = s.flt := rfl
@[simp] theorem initPeripheral_busy (s : State) : (initPeripheral s).busy = s.busy := rfl
@[simp] theorem initPeripheral_trace (s : State) : (initPeripheral s).trace = s.trace := rfl
@[simp] theorem initPeripheral_frame (s : State) : (initPeripheral s).frame = s.frame := rfl
@[simp] theorem initPeripheral_bus (s : State) : (initPeripheral s).bus = s.bus := rfl
@[simp] theorem initPeripheral_inputs (s : State) : (initPeripheral s).inputs = s.inputs := rfl
@[simp] theorem initPeripheral_rdata (s : State) : (initPeripheral s).rdata = s.rdata := rfl
@[simp] theorem initPeripheral_dataWritten (s : State) : (initPeripheral s).dataWritten = s.dataWritten := rfl
@[simp] theorem initPeripheral_brWritten (s : State) : (initPeripheral s).brWritten = true := rfl
@[simp] theorem initPeripheral_draws (s : State) : (initPeripheral s).draws = s.draws := rfl

/-! ### openStream (R150) -/

@[simp] theorem openStream_cfg (mode : Strm) (s : State) : (openStream mode s).cfg = s.cfg := rfl
@[simp] theorem openStream_ctrl (mode : Strm) (s : State) : (openStream mode s).ctrl = s.ctrl := rfl
@[simp] theorem openStream_stat (mode : Strm) (s : State) : (openStream mode s).stat = s.stat := rfl
@[simp] theorem openStream_data (mode : Strm) (s : State) : (openStream mode s).data = s.data := rfl
@[simp] theorem openStream_br (mode : Strm) (s : State) : (openStream mode s).br = s.br := rfl
@[simp] theorem openStream_port (mode : Strm) (s : State) : (openStream mode s).port = s.port := rfl
@[simp] theorem openStream_txn (mode : Strm) (s : State) : (openStream mode s).txn = s.txn := rfl
@[simp] theorem openStream_pend (mode : Strm) (s : State) : (openStream mode s).pend = s.pend := rfl
@[simp] theorem openStream_sess (mode : Strm) (s : State) : (openStream mode s).sess = s.sess := rfl
@[simp] theorem openStream_strm (mode : Strm) (s : State) : (openStream mode s).strm = mode := rfl
@[simp] theorem openStream_abrt (mode : Strm) (s : State) : (openStream mode s).abrt = false := rfl
@[simp] theorem openStream_initd (mode : Strm) (s : State) : (openStream mode s).initd = false := rfl
@[simp] theorem openStream_pg (mode : Strm) (s : State) : (openStream mode s).pg = s.pg := rfl
@[simp] theorem openStream_col (mode : Strm) (s : State) : (openStream mode s).col = s.col := rfl
@[simp] theorem openStream_cur (mode : Strm) (s : State) : (openStream mode s).cur = s.cur := rfl
@[simp] theorem openStream_tix (mode : Strm) (s : State) : (openStream mode s).tix = s.tix := rfl
@[simp] theorem openStream_cmd (mode : Strm) (s : State) : (openStream mode s).cmd = s.cmd := rfl
@[simp] theorem openStream_res (mode : Strm) (s : State) : (openStream mode s).res = s.res := rfl
@[simp] theorem openStream_flt (mode : Strm) (s : State) : (openStream mode s).flt = s.flt := rfl
@[simp] theorem openStream_busy (mode : Strm) (s : State) : (openStream mode s).busy = s.busy := rfl
@[simp] theorem openStream_trace (mode : Strm) (s : State) : (openStream mode s).trace = s.trace := rfl
@[simp] theorem openStream_frame (mode : Strm) (s : State) : (openStream mode s).frame = s.frame := rfl
@[simp] theorem openStream_bus (mode : Strm) (s : State) : (openStream mode s).bus = s.bus := rfl
@[simp] theorem openStream_inputs (mode : Strm) (s : State) : (openStream mode s).inputs = s.inputs := rfl
@[simp] theorem openStream_rdata (mode : Strm) (s : State) : (openStream mode s).rdata = s.rdata := rfl
@[simp] theorem openStream_dataWritten (mode : Strm) (s : State) : (openStream mode s).dataWritten = s.dataWritten := rfl
@[simp] theorem openStream_brWritten (mode : Strm) (s : State) : (openStream mode s).brWritten = s.brWritten := rfl
@[simp] theorem openStream_draws (mode : Strm) (s : State) : (openStream mode s).draws = s.draws := rfl

/-! ### endStream (R152) -/

@[simp] theorem endStream_cfg (s : State) : (endStream s).cfg = s.cfg := rfl
@[simp] theorem endStream_ctrl (s : State) : (endStream s).ctrl = stopCtrl := rfl
@[simp] theorem endStream_stat (s : State) : (endStream s).stat = s.stat := rfl
@[simp] theorem endStream_data (s : State) : (endStream s).data = s.data := rfl
@[simp] theorem endStream_br (s : State) : (endStream s).br = s.br := rfl
@[simp] theorem endStream_port (s : State) : (endStream s).port = s.port := rfl
@[simp] theorem endStream_txn (s : State) : (endStream s).txn = .idle := rfl
@[simp] theorem endStream_pend (s : State) : (endStream s).pend = s.pend := rfl
@[simp] theorem endStream_sess (s : State) : (endStream s).sess = sessAfterEnd s.sess s.initd := rfl
@[simp] theorem endStream_strm (s : State) : (endStream s).strm = .none := rfl
@[simp] theorem endStream_abrt (s : State) : (endStream s).abrt = false := rfl
@[simp] theorem endStream_initd (s : State) : (endStream s).initd = false := rfl
@[simp] theorem endStream_pg (s : State) : (endStream s).pg = s.pg := rfl
@[simp] theorem endStream_col (s : State) : (endStream s).col = s.col := rfl
@[simp] theorem endStream_cur (s : State) : (endStream s).cur = s.cur := rfl
@[simp] theorem endStream_tix (s : State) : (endStream s).tix = s.tix := rfl
@[simp] theorem endStream_cmd (s : State) : (endStream s).cmd = s.cmd := rfl
@[simp] theorem endStream_res (s : State) : (endStream s).res = s.res := rfl
@[simp] theorem endStream_flt (s : State) : (endStream s).flt = s.flt := rfl
@[simp] theorem endStream_busy (s : State) : (endStream s).busy = s.busy := rfl
@[simp] theorem endStream_trace (s : State) : (endStream s).trace = s.trace ++ [.p] := rfl
@[simp] theorem endStream_frame (s : State) : (endStream s).frame = s.frame := rfl
@[simp] theorem endStream_bus (s : State) : (endStream s).bus = s.bus.stop := rfl
@[simp] theorem endStream_inputs (s : State) : (endStream s).inputs = s.inputs := rfl
@[simp] theorem endStream_rdata (s : State) : (endStream s).rdata = s.rdata := rfl
@[simp] theorem endStream_dataWritten (s : State) : (endStream s).dataWritten = s.dataWritten := rfl
@[simp] theorem endStream_brWritten (s : State) : (endStream s).brWritten = s.brWritten := rfl
@[simp] theorem endStream_draws (s : State) : (endStream s).draws = s.draws := rfl

/-! ### beginFrame (R171) -/

@[simp] theorem beginFrame_cfg (s : State) : (beginFrame s).cfg = s.cfg := rfl
@[simp] theorem beginFrame_ctrl (s : State) : (beginFrame s).ctrl = s.ctrl := rfl
@[simp] theorem beginFrame_stat (s : State) : (beginFrame s).stat = s.stat := rfl
@[simp] theorem beginFrame_data (s : State) : (beginFrame s).data = s.data := rfl
@[simp] theorem beginFrame_br (s : State) : (beginFrame s).br = s.br := rfl
@[simp] theorem beginFrame_port (s : State) : (beginFrame s).port = s.port := rfl
@[simp] theorem beginFrame_txn (s : State) : (beginFrame s).txn = s.txn := rfl
@[simp] theorem beginFrame_pend (s : State) : (beginFrame s).pend = s.pend := rfl
@[simp] theorem beginFrame_sess (s : State) : (beginFrame s).sess = .onData := rfl
@[simp] theorem beginFrame_strm (s : State) : (beginFrame s).strm = s.strm := rfl
@[simp] theorem beginFrame_abrt (s : State) : (beginFrame s).abrt = s.abrt := rfl
@[simp] theorem beginFrame_initd (s : State) : (beginFrame s).initd = s.initd := rfl
@[simp] theorem beginFrame_pg (s : State) : (beginFrame s).pg = 0 := rfl
@[simp] theorem beginFrame_col (s : State) : (beginFrame s).col = 0 := rfl
@[simp] theorem beginFrame_cur (s : State) : (beginFrame s).cur = 0 := rfl
@[simp] theorem beginFrame_tix (s : State) : (beginFrame s).tix = s.tix := rfl
@[simp] theorem beginFrame_cmd (s : State) : (beginFrame s).cmd = s.cmd := rfl
@[simp] theorem beginFrame_res (s : State) : (beginFrame s).res = s.res := rfl
@[simp] theorem beginFrame_flt (s : State) : (beginFrame s).flt = s.flt := rfl
@[simp] theorem beginFrame_busy (s : State) : (beginFrame s).busy = s.busy := rfl
@[simp] theorem beginFrame_trace (s : State) : (beginFrame s).trace = s.trace := rfl
@[simp] theorem beginFrame_frame (s : State) : (beginFrame s).frame = s.frame := rfl
@[simp] theorem beginFrame_bus (s : State) : (beginFrame s).bus = s.bus := rfl
@[simp] theorem beginFrame_inputs (s : State) : (beginFrame s).inputs = s.inputs := rfl
@[simp] theorem beginFrame_rdata (s : State) : (beginFrame s).rdata = s.rdata := rfl
@[simp] theorem beginFrame_dataWritten (s : State) : (beginFrame s).dataWritten = s.dataWritten := rfl
@[simp] theorem beginFrame_brWritten (s : State) : (beginFrame s).brWritten = s.brWritten := rfl
@[simp] theorem beginFrame_draws (s : State) : (beginFrame s).draws = s.draws := rfl

/-! ### resetBlock (R220) -/

@[simp] theorem resetBlock_cfg (s : State) : (resetBlock s).cfg = s.cfg := rfl
@[simp] theorem resetBlock_ctrl (s : State) : (resetBlock s).ctrl = State.reset.ctrl := rfl
@[simp] theorem resetBlock_stat (s : State) : (resetBlock s).stat = State.reset.stat := rfl
@[simp] theorem resetBlock_data (s : State) : (resetBlock s).data = State.reset.data := rfl
@[simp] theorem resetBlock_br (s : State) : (resetBlock s).br = State.reset.br := rfl
@[simp] theorem resetBlock_port (s : State) : (resetBlock s).port = State.reset.port := rfl
@[simp] theorem resetBlock_txn (s : State) : (resetBlock s).txn = State.reset.txn := rfl
@[simp] theorem resetBlock_pend (s : State) : (resetBlock s).pend = State.reset.pend := rfl
@[simp] theorem resetBlock_sess (s : State) : (resetBlock s).sess = State.reset.sess := rfl
@[simp] theorem resetBlock_strm (s : State) : (resetBlock s).strm = State.reset.strm := rfl
@[simp] theorem resetBlock_abrt (s : State) : (resetBlock s).abrt = State.reset.abrt := rfl
@[simp] theorem resetBlock_initd (s : State) : (resetBlock s).initd = State.reset.initd := rfl
@[simp] theorem resetBlock_pg (s : State) : (resetBlock s).pg = State.reset.pg := rfl
@[simp] theorem resetBlock_col (s : State) : (resetBlock s).col = State.reset.col := rfl
@[simp] theorem resetBlock_cur (s : State) : (resetBlock s).cur = State.reset.cur := rfl
@[simp] theorem resetBlock_tix (s : State) : (resetBlock s).tix = State.reset.tix := rfl
@[simp] theorem resetBlock_cmd (s : State) : (resetBlock s).cmd = State.reset.cmd := rfl
@[simp] theorem resetBlock_res (s : State) : (resetBlock s).res = State.reset.res := rfl
@[simp] theorem resetBlock_flt (s : State) : (resetBlock s).flt = State.reset.flt := rfl
@[simp] theorem resetBlock_busy (s : State) : (resetBlock s).busy = State.reset.busy := rfl
@[simp] theorem resetBlock_trace (s : State) : (resetBlock s).trace = State.reset.trace := rfl
@[simp] theorem resetBlock_frame (s : State) : (resetBlock s).frame = s.frame := rfl
@[simp] theorem resetBlock_bus (s : State) : (resetBlock s).bus = s.bus := rfl
@[simp] theorem resetBlock_inputs (s : State) : (resetBlock s).inputs = s.inputs := rfl
@[simp] theorem resetBlock_rdata (s : State) : (resetBlock s).rdata = s.rdata := rfl
@[simp] theorem resetBlock_dataWritten (s : State) : (resetBlock s).dataWritten = State.reset.dataWritten := rfl
@[simp] theorem resetBlock_brWritten (s : State) : (resetBlock s).brWritten = State.reset.brWritten := rfl
@[simp] theorem resetBlock_draws (s : State) : (resetBlock s).draws = s.draws := rfl

/-! ### powerOnReset (R220, R221) -/

@[simp] theorem powerOnReset_cfg (s : State) : (powerOnReset s).cfg = s.cfg := rfl
@[simp] theorem powerOnReset_ctrl (s : State) : (powerOnReset s).ctrl = State.reset.ctrl := rfl
@[simp] theorem powerOnReset_stat (s : State) : (powerOnReset s).stat = State.reset.stat := rfl
@[simp] theorem powerOnReset_data (s : State) : (powerOnReset s).data = State.reset.data := rfl
@[simp] theorem powerOnReset_br (s : State) : (powerOnReset s).br = State.reset.br := rfl
@[simp] theorem powerOnReset_port (s : State) : (powerOnReset s).port = State.reset.port := rfl
@[simp] theorem powerOnReset_txn (s : State) : (powerOnReset s).txn = State.reset.txn := rfl
@[simp] theorem powerOnReset_pend (s : State) : (powerOnReset s).pend = State.reset.pend := rfl
@[simp] theorem powerOnReset_sess (s : State) : (powerOnReset s).sess = State.reset.sess := rfl
@[simp] theorem powerOnReset_strm (s : State) : (powerOnReset s).strm = State.reset.strm := rfl
@[simp] theorem powerOnReset_abrt (s : State) : (powerOnReset s).abrt = State.reset.abrt := rfl
@[simp] theorem powerOnReset_initd (s : State) : (powerOnReset s).initd = State.reset.initd := rfl
@[simp] theorem powerOnReset_pg (s : State) : (powerOnReset s).pg = State.reset.pg := rfl
@[simp] theorem powerOnReset_col (s : State) : (powerOnReset s).col = State.reset.col := rfl
@[simp] theorem powerOnReset_cur (s : State) : (powerOnReset s).cur = State.reset.cur := rfl
@[simp] theorem powerOnReset_tix (s : State) : (powerOnReset s).tix = State.reset.tix := rfl
@[simp] theorem powerOnReset_cmd (s : State) : (powerOnReset s).cmd = State.reset.cmd := rfl
@[simp] theorem powerOnReset_res (s : State) : (powerOnReset s).res = State.reset.res := rfl
@[simp] theorem powerOnReset_flt (s : State) : (powerOnReset s).flt = State.reset.flt := rfl
@[simp] theorem powerOnReset_busy (s : State) : (powerOnReset s).busy = State.reset.busy := rfl
@[simp] theorem powerOnReset_trace (s : State) : (powerOnReset s).trace = State.reset.trace := rfl
@[simp] theorem powerOnReset_frame (s : State) : (powerOnReset s).frame = s.frame := rfl
@[simp] theorem powerOnReset_bus (s : State) : (powerOnReset s).bus = { s.bus with epoch := s.draws, dcs := Dcs.reset s.draws } := rfl
@[simp] theorem powerOnReset_inputs (s : State) : (powerOnReset s).inputs = s.inputs := rfl
@[simp] theorem powerOnReset_rdata (s : State) : (powerOnReset s).rdata = s.rdata := rfl
@[simp] theorem powerOnReset_dataWritten (s : State) : (powerOnReset s).dataWritten = State.reset.dataWritten := rfl
@[simp] theorem powerOnReset_brWritten (s : State) : (powerOnReset s).brWritten = State.reset.brWritten := rfl
@[simp] theorem powerOnReset_draws (s : State) : (powerOnReset s).draws = s.draws + 1 := rfl

/-! ### blockOnlyReset (R221) -/

@[simp] theorem blockOnlyReset_cfg (s : State) : (blockOnlyReset s).cfg = s.cfg := rfl
@[simp] theorem blockOnlyReset_ctrl (s : State) : (blockOnlyReset s).ctrl = State.reset.ctrl := rfl
@[simp] theorem blockOnlyReset_stat (s : State) : (blockOnlyReset s).stat = State.reset.stat := rfl
@[simp] theorem blockOnlyReset_data (s : State) : (blockOnlyReset s).data = State.reset.data := rfl
@[simp] theorem blockOnlyReset_br (s : State) : (blockOnlyReset s).br = State.reset.br := rfl
@[simp] theorem blockOnlyReset_port (s : State) : (blockOnlyReset s).port = State.reset.port := rfl
@[simp] theorem blockOnlyReset_txn (s : State) : (blockOnlyReset s).txn = State.reset.txn := rfl
@[simp] theorem blockOnlyReset_pend (s : State) : (blockOnlyReset s).pend = State.reset.pend := rfl
@[simp] theorem blockOnlyReset_sess (s : State) : (blockOnlyReset s).sess = State.reset.sess := rfl
@[simp] theorem blockOnlyReset_strm (s : State) : (blockOnlyReset s).strm = State.reset.strm := rfl
@[simp] theorem blockOnlyReset_abrt (s : State) : (blockOnlyReset s).abrt = State.reset.abrt := rfl
@[simp] theorem blockOnlyReset_initd (s : State) : (blockOnlyReset s).initd = State.reset.initd := rfl
@[simp] theorem blockOnlyReset_pg (s : State) : (blockOnlyReset s).pg = State.reset.pg := rfl
@[simp] theorem blockOnlyReset_col (s : State) : (blockOnlyReset s).col = State.reset.col := rfl
@[simp] theorem blockOnlyReset_cur (s : State) : (blockOnlyReset s).cur = State.reset.cur := rfl
@[simp] theorem blockOnlyReset_tix (s : State) : (blockOnlyReset s).tix = State.reset.tix := rfl
@[simp] theorem blockOnlyReset_cmd (s : State) : (blockOnlyReset s).cmd = State.reset.cmd := rfl
@[simp] theorem blockOnlyReset_res (s : State) : (blockOnlyReset s).res = State.reset.res := rfl
@[simp] theorem blockOnlyReset_flt (s : State) : (blockOnlyReset s).flt = State.reset.flt := rfl
@[simp] theorem blockOnlyReset_busy (s : State) : (blockOnlyReset s).busy = State.reset.busy := rfl
@[simp] theorem blockOnlyReset_trace (s : State) : (blockOnlyReset s).trace = State.reset.trace := rfl
@[simp] theorem blockOnlyReset_frame (s : State) : (blockOnlyReset s).frame = s.frame := rfl
@[simp] theorem blockOnlyReset_bus (s : State) : (blockOnlyReset s).bus = { s.bus with epoch := s.draws, dcs := Dcs.arbitrary s.cfg s.draws } := rfl
@[simp] theorem blockOnlyReset_inputs (s : State) : (blockOnlyReset s).inputs = s.inputs := rfl
@[simp] theorem blockOnlyReset_rdata (s : State) : (blockOnlyReset s).rdata = s.rdata := rfl
@[simp] theorem blockOnlyReset_dataWritten (s : State) : (blockOnlyReset s).dataWritten = State.reset.dataWritten := rfl
@[simp] theorem blockOnlyReset_brWritten (s : State) : (blockOnlyReset s).brWritten = State.reset.brWritten := rfl
@[simp] theorem blockOnlyReset_draws (s : State) : (blockOnlyReset s).draws = s.draws + 1 := rfl

/-! ### hostRead (R39) -/

@[simp] theorem hostRead_cfg (n : Nat) (s : State) : (hostRead n s).cfg = s.cfg := rfl
@[simp] theorem hostRead_ctrl (n : Nat) (s : State) : (hostRead n s).ctrl = s.ctrl := rfl
@[simp] theorem hostRead_stat (n : Nat) (s : State) : (hostRead n s).stat = s.stat := rfl
@[simp] theorem hostRead_data (n : Nat) (s : State) : (hostRead n s).data = s.data := rfl
@[simp] theorem hostRead_br (n : Nat) (s : State) : (hostRead n s).br = s.br := rfl
@[simp] theorem hostRead_port (n : Nat) (s : State) : (hostRead n s).port = s.port := rfl
@[simp] theorem hostRead_txn (n : Nat) (s : State) : (hostRead n s).txn = s.txn := rfl
@[simp] theorem hostRead_pend (n : Nat) (s : State) : (hostRead n s).pend = s.pend := rfl
@[simp] theorem hostRead_sess (n : Nat) (s : State) : (hostRead n s).sess = s.sess := rfl
@[simp] theorem hostRead_strm (n : Nat) (s : State) : (hostRead n s).strm = s.strm := rfl
@[simp] theorem hostRead_abrt (n : Nat) (s : State) : (hostRead n s).abrt = s.abrt := rfl
@[simp] theorem hostRead_initd (n : Nat) (s : State) : (hostRead n s).initd = s.initd := rfl
@[simp] theorem hostRead_pg (n : Nat) (s : State) : (hostRead n s).pg = s.pg := rfl
@[simp] theorem hostRead_col (n : Nat) (s : State) : (hostRead n s).col = s.col := rfl
@[simp] theorem hostRead_cur (n : Nat) (s : State) : (hostRead n s).cur = s.cur := rfl
@[simp] theorem hostRead_tix (n : Nat) (s : State) : (hostRead n s).tix = s.tix := rfl
@[simp] theorem hostRead_cmd (n : Nat) (s : State) : (hostRead n s).cmd = s.cmd := rfl
@[simp] theorem hostRead_res (n : Nat) (s : State) : (hostRead n s).res = s.res := rfl
@[simp] theorem hostRead_flt (n : Nat) (s : State) : (hostRead n s).flt = s.flt := rfl
@[simp] theorem hostRead_busy (n : Nat) (s : State) : (hostRead n s).busy = s.busy := rfl
@[simp] theorem hostRead_trace (n : Nat) (s : State) : (hostRead n s).trace = s.trace := rfl
@[simp] theorem hostRead_frame (n : Nat) (s : State) : (hostRead n s).frame = s.frame := rfl
@[simp] theorem hostRead_bus (n : Nat) (s : State) : (hostRead n s).bus = s.bus := rfl
@[simp] theorem hostRead_inputs (n : Nat) (s : State) : (hostRead n s).inputs = s.inputs := rfl
@[simp] theorem hostRead_rdata (n : Nat) (s : State) : (hostRead n s).rdata = registerValue n (Config.freeRead s.draws) s := rfl
@[simp] theorem hostRead_dataWritten (n : Nat) (s : State) : (hostRead n s).dataWritten = s.dataWritten := rfl
@[simp] theorem hostRead_brWritten (n : Nat) (s : State) : (hostRead n s).brWritten = s.brWritten := rfl
@[simp] theorem hostRead_draws (n : Nat) (s : State) : (hostRead n s).draws = s.draws + 1 := rfl

/-! ### placeWord (R33) -/

@[simp] theorem placeWord_cfg (word : Word) (s : State) : (placeWord word s).cfg = s.cfg := rfl
@[simp] theorem placeWord_ctrl (word : Word) (s : State) : (placeWord word s).ctrl = s.ctrl := rfl
@[simp] theorem placeWord_stat (word : Word) (s : State) : (placeWord word s).stat = s.stat := rfl
@[simp] theorem placeWord_data (word : Word) (s : State) : (placeWord word s).data = s.data := rfl
@[simp] theorem placeWord_br (word : Word) (s : State) : (placeWord word s).br = s.br := rfl
@[simp] theorem placeWord_port (word : Word) (s : State) : (placeWord word s).port = s.port := rfl
@[simp] theorem placeWord_txn (word : Word) (s : State) : (placeWord word s).txn = s.txn := rfl
@[simp] theorem placeWord_pend (word : Word) (s : State) : (placeWord word s).pend = s.pend := rfl
@[simp] theorem placeWord_sess (word : Word) (s : State) : (placeWord word s).sess = s.sess := rfl
@[simp] theorem placeWord_strm (word : Word) (s : State) : (placeWord word s).strm = s.strm := rfl
@[simp] theorem placeWord_abrt (word : Word) (s : State) : (placeWord word s).abrt = s.abrt := rfl
@[simp] theorem placeWord_initd (word : Word) (s : State) : (placeWord word s).initd = s.initd := rfl
@[simp] theorem placeWord_pg (word : Word) (s : State) : (placeWord word s).pg = s.pg := rfl
@[simp] theorem placeWord_col (word : Word) (s : State) : (placeWord word s).col = s.col := rfl
@[simp] theorem placeWord_cur (word : Word) (s : State) : (placeWord word s).cur = s.cur := rfl
@[simp] theorem placeWord_tix (word : Word) (s : State) : (placeWord word s).tix = s.tix := rfl
@[simp] theorem placeWord_cmd (word : Word) (s : State) : (placeWord word s).cmd = s.cmd := rfl
@[simp] theorem placeWord_res (word : Word) (s : State) : (placeWord word s).res = s.res := rfl
@[simp] theorem placeWord_flt (word : Word) (s : State) : (placeWord word s).flt = s.flt := rfl
@[simp] theorem placeWord_busy (word : Word) (s : State) : (placeWord word s).busy = s.busy := rfl
@[simp] theorem placeWord_trace (word : Word) (s : State) : (placeWord word s).trace = s.trace := rfl
@[simp] theorem placeWord_frame (word : Word) (s : State) : (placeWord word s).frame = s.frame := rfl
@[simp] theorem placeWord_bus (word : Word) (s : State) : (placeWord word s).bus = s.bus := rfl
@[simp] theorem placeWord_inputs (word : Word) (s : State) : (placeWord word s).inputs = .write cmdNumber word :: s.inputs := rfl
@[simp] theorem placeWord_rdata (word : Word) (s : State) : (placeWord word s).rdata = s.rdata := rfl
@[simp] theorem placeWord_dataWritten (word : Word) (s : State) : (placeWord word s).dataWritten = s.dataWritten := rfl
@[simp] theorem placeWord_brWritten (word : Word) (s : State) : (placeWord word s).brWritten = s.brWritten := rfl
@[simp] theorem placeWord_draws (word : Word) (s : State) : (placeWord word s).draws = s.draws := rfl

/-! ### sessForCommands (R153) -/

@[simp] theorem sessForCommands_cfg (s : State) : (sessForCommands s).cfg = s.cfg := rfl
@[simp] theorem sessForCommands_ctrl (s : State) : (sessForCommands s).ctrl = s.ctrl := rfl
@[simp] theorem sessForCommands_stat (s : State) : (sessForCommands s).stat = s.stat := rfl
@[simp] theorem sessForCommands_data (s : State) : (sessForCommands s).data = s.data := rfl
@[simp] theorem sessForCommands_br (s : State) : (sessForCommands s).br = s.br := rfl
@[simp] theorem sessForCommands_port (s : State) : (sessForCommands s).port = s.port := rfl
@[simp] theorem sessForCommands_txn (s : State) : (sessForCommands s).txn = s.txn := rfl
@[simp] theorem sessForCommands_pend (s : State) : (sessForCommands s).pend = s.pend := rfl
@[simp] theorem sessForCommands_strm (s : State) : (sessForCommands s).strm = s.strm := rfl
@[simp] theorem sessForCommands_abrt (s : State) : (sessForCommands s).abrt = s.abrt := rfl
@[simp] theorem sessForCommands_initd (s : State) : (sessForCommands s).initd = s.initd := rfl
@[simp] theorem sessForCommands_pg (s : State) : (sessForCommands s).pg = s.pg := rfl
@[simp] theorem sessForCommands_col (s : State) : (sessForCommands s).col = s.col := rfl
@[simp] theorem sessForCommands_cur (s : State) : (sessForCommands s).cur = s.cur := rfl
@[simp] theorem sessForCommands_tix (s : State) : (sessForCommands s).tix = s.tix := rfl
@[simp] theorem sessForCommands_cmd (s : State) : (sessForCommands s).cmd = s.cmd := rfl
@[simp] theorem sessForCommands_res (s : State) : (sessForCommands s).res = s.res := rfl
@[simp] theorem sessForCommands_flt (s : State) : (sessForCommands s).flt = s.flt := rfl
@[simp] theorem sessForCommands_busy (s : State) : (sessForCommands s).busy = s.busy := rfl
@[simp] theorem sessForCommands_trace (s : State) : (sessForCommands s).trace = s.trace := rfl
@[simp] theorem sessForCommands_frame (s : State) : (sessForCommands s).frame = s.frame := rfl
@[simp] theorem sessForCommands_bus (s : State) : (sessForCommands s).bus = s.bus := rfl
@[simp] theorem sessForCommands_inputs (s : State) : (sessForCommands s).inputs = s.inputs := rfl
@[simp] theorem sessForCommands_rdata (s : State) : (sessForCommands s).rdata = s.rdata := rfl
@[simp] theorem sessForCommands_dataWritten (s : State) : (sessForCommands s).dataWritten = s.dataWritten := rfl
@[simp] theorem sessForCommands_brWritten (s : State) : (sessForCommands s).brWritten = s.brWritten := rfl
@[simp] theorem sessForCommands_draws (s : State) : (sessForCommands s).draws = s.draws := rfl

/-! ### issue (R132) -/

@[simp] theorem issue_ctrl (kind : PhaseKind) (b : Byte) (s : State) : (issue kind b s).ctrl = issueCtrl kind := by cases kind <;> rfl
@[simp] theorem issue_pend (kind : PhaseKind) (b : Byte) (s : State) : (issue kind b s).pend = some kind := by cases kind <;> rfl
@[simp] theorem issue_start_data (b : Byte) (s : State) : (issue .start b s).data = s.data := rfl
@[simp] theorem issue_address_data (b : Byte) (s : State) : (issue .address b s).data = b := rfl
@[simp] theorem issue_data_data (b : Byte) (s : State) : (issue .data b s).data = b := rfl
@[simp] theorem issue_start_dataWritten (b : Byte) (s : State) : (issue .start b s).dataWritten = s.dataWritten := rfl
@[simp] theorem issue_address_dataWritten (b : Byte) (s : State) : (issue .address b s).dataWritten = true := rfl
@[simp] theorem issue_data_dataWritten (b : Byte) (s : State) : (issue .data b s).dataWritten = true := rfl
@[simp] theorem issue_cfg (kind : PhaseKind) (b : Byte) (s : State) : (issue kind b s).cfg = s.cfg := by cases kind <;> rfl
@[simp] theorem issue_stat (kind : PhaseKind) (b : Byte) (s : State) : (issue kind b s).stat = s.stat := by cases kind <;> rfl
@[simp] theorem issue_br (kind : PhaseKind) (b : Byte) (s : State) : (issue kind b s).br = s.br := by cases kind <;> rfl
@[simp] theorem issue_port (kind : PhaseKind) (b : Byte) (s : State) : (issue kind b s).port = s.port := by cases kind <;> rfl
@[simp] theorem issue_txn (kind : PhaseKind) (b : Byte) (s : State) : (issue kind b s).txn = s.txn := by cases kind <;> rfl
@[simp] theorem issue_sess (kind : PhaseKind) (b : Byte) (s : State) : (issue kind b s).sess = s.sess := by cases kind <;> rfl
@[simp] theorem issue_strm (kind : PhaseKind) (b : Byte) (s : State) : (issue kind b s).strm = s.strm := by cases kind <;> rfl
@[simp] theorem issue_abrt (kind : PhaseKind) (b : Byte) (s : State) : (issue kind b s).abrt = s.abrt := by cases kind <;> rfl
@[simp] theorem issue_initd (kind : PhaseKind) (b : Byte) (s : State) : (issue kind b s).initd = s.initd := by cases kind <;> rfl
@[simp] theorem issue_pg (kind : PhaseKind) (b : Byte) (s : State) : (issue kind b s).pg = s.pg := by cases kind <;> rfl
@[simp] theorem issue_col (kind : PhaseKind) (b : Byte) (s : State) : (issue kind b s).col = s.col := by cases kind <;> rfl
@[simp] theorem issue_cur (kind : PhaseKind) (b : Byte) (s : State) : (issue kind b s).cur = s.cur := by cases kind <;> rfl
@[simp] theorem issue_tix (kind : PhaseKind) (b : Byte) (s : State) : (issue kind b s).tix = s.tix := by cases kind <;> rfl
@[simp] theorem issue_cmd (kind : PhaseKind) (b : Byte) (s : State) : (issue kind b s).cmd = s.cmd := by cases kind <;> rfl
@[simp] theorem issue_res (kind : PhaseKind) (b : Byte) (s : State) : (issue kind b s).res = s.res := by cases kind <;> rfl
@[simp] theorem issue_flt (kind : PhaseKind) (b : Byte) (s : State) : (issue kind b s).flt = s.flt := by cases kind <;> rfl
@[simp] theorem issue_busy (kind : PhaseKind) (b : Byte) (s : State) : (issue kind b s).busy = s.busy := by cases kind <;> rfl
@[simp] theorem issue_trace (kind : PhaseKind) (b : Byte) (s : State) : (issue kind b s).trace = s.trace := by cases kind <;> rfl
@[simp] theorem issue_frame (kind : PhaseKind) (b : Byte) (s : State) : (issue kind b s).frame = s.frame := by cases kind <;> rfl
@[simp] theorem issue_bus (kind : PhaseKind) (b : Byte) (s : State) : (issue kind b s).bus = s.bus := by cases kind <;> rfl
@[simp] theorem issue_inputs (kind : PhaseKind) (b : Byte) (s : State) : (issue kind b s).inputs = s.inputs := by cases kind <;> rfl
@[simp] theorem issue_rdata (kind : PhaseKind) (b : Byte) (s : State) : (issue kind b s).rdata = s.rdata := by cases kind <;> rfl
@[simp] theorem issue_brWritten (kind : PhaseKind) (b : Byte) (s : State) : (issue kind b s).brWritten = s.brWritten := by cases kind <;> rfl
@[simp] theorem issue_draws (kind : PhaseKind) (b : Byte) (s : State) : (issue kind b s).draws = s.draws := by cases kind <;> rfl

end Sys2Proof.Machine
end

