-- ==== Sys2Proof/Laws/Memory.lean ====
section
/-! SUPPORT. Laws/Memory.lean: what the memory operations do to a read, and that each keeps the canonical form. -/

namespace Sys2Proof.Machine

theorem lookup_put_same (m : List Host.Cell) (a : Nat) (v : Byte) : Memory.lookup (Memory.put m a v) a = some v := by
  induction m with
  | nil => simp [Memory.put, Memory.lookup]
  | cons c rest ih =>
    obtain ⟨k, u⟩ := c
    unfold Memory.put
    split
    · simp [Memory.lookup]
    · split
      · simp [Memory.lookup]
      · rw [Memory.lookup, if_neg (by omega), ih]

theorem lookup_put_other (m : List Host.Cell) {a b : Nat} (v : Byte) (h : b ≠ a) :
    Memory.lookup (Memory.put m a v) b = Memory.lookup m b := by
  induction m with
  | nil => simp [Memory.put, Memory.lookup, h.symm]
  | cons c rest ih =>
    obtain ⟨k, u⟩ := c
    unfold Memory.put
    split
    · simp [Memory.lookup, h.symm]
    · split
      · next heq => subst heq; simp [Memory.lookup, h.symm]
      · simp only [Memory.lookup, ih]

theorem lookup_drop_other (m : List Host.Cell) {a b : Nat} (h : b ≠ a) :
    Memory.lookup (Memory.drop m a) b = Memory.lookup m b := by
  induction m with
  | nil => rfl
  | cons c rest ih =>
    obtain ⟨k, u⟩ := c
    unfold Memory.drop
    split
    · next heq => subst heq; simp [Memory.lookup, h.symm]
    · simp only [Memory.lookup, ih]

theorem sortedFrom_mono {m : List Host.Cell} {i j : Nat} (h : i ≤ j) (hs : Memory.sortedFrom j m = true) :
    Memory.sortedFrom i m = true := by
  cases m with
  | nil => rfl
  | cons c rest =>
    simp only [Memory.sortedFrom, Bool.and_eq_true, decide_eq_true_eq] at hs ⊢
    exact ⟨by omega, hs.2⟩

theorem lookup_below_low {m : List Host.Cell} {low a : Nat} (hs : Memory.sortedFrom low m = true) (h : a < low) :
    Memory.lookup m a = none := by
  induction m generalizing low with
  | nil => rfl
  | cons c rest ih =>
    obtain ⟨k, u⟩ := c
    simp only [Memory.sortedFrom, Bool.and_eq_true, decide_eq_true_eq] at hs
    rw [Memory.lookup, if_neg (by omega)]
    exact ih hs.2 (by omega)

theorem lookup_drop_same {m : List Host.Cell} {low a : Nat} (hs : Memory.sortedFrom low m = true) :
    Memory.lookup (Memory.drop m a) a = none := by
  induction m generalizing low with
  | nil => rfl
  | cons c rest ih =>
    obtain ⟨k, u⟩ := c
    simp only [Memory.sortedFrom, Bool.and_eq_true, decide_eq_true_eq] at hs
    unfold Memory.drop
    split
    · next heq => subst heq; exact lookup_below_low hs.2 (by omega)
    · next hne => rw [Memory.lookup, if_neg hne]; exact ih hs.2

theorem sortedFrom_put {m : List Host.Cell} {low a : Nat} (v : Byte) (hs : Memory.sortedFrom low m = true) (h : low ≤ a) :
    Memory.sortedFrom low (Memory.put m a v) = true := by
  induction m generalizing low with
  | nil => simp [Memory.put, Memory.sortedFrom, h]
  | cons c rest ih =>
    obtain ⟨k, u⟩ := c
    simp only [Memory.sortedFrom, Bool.and_eq_true, decide_eq_true_eq] at hs
    unfold Memory.put
    split
    · simp only [Memory.sortedFrom, Bool.and_eq_true, decide_eq_true_eq]; exact ⟨h, by omega, hs.2⟩
    · split
      · next heq => subst heq; simp only [Memory.sortedFrom, Bool.and_eq_true, decide_eq_true_eq]; exact hs
      · simp only [Memory.sortedFrom, Bool.and_eq_true, decide_eq_true_eq]
        exact ⟨hs.1, ih hs.2 (by omega)⟩

theorem sortedFrom_drop {m : List Host.Cell} {low : Nat} (a : Nat) (hs : Memory.sortedFrom low m = true) :
    Memory.sortedFrom low (Memory.drop m a) = true := by
  induction m generalizing low with
  | nil => rfl
  | cons c rest ih =>
    obtain ⟨k, u⟩ := c
    simp only [Memory.sortedFrom, Bool.and_eq_true, decide_eq_true_eq] at hs
    unfold Memory.drop
    split
    · exact sortedFrom_mono (by omega) hs.2
    · simp only [Memory.sortedFrom, Bool.and_eq_true, decide_eq_true_eq]; exact ⟨hs.1, ih hs.2⟩

/-- A property of cells that holds of all of a memory and of a new cell holds after the cell is put. -/
theorem all_put {f : Host.Cell → Bool} {m : List Host.Cell} {a : Nat} {v : Byte} (hm : m.all f = true) (hv : f (a, v) = true) :
    (Memory.put m a v).all f = true := by
  induction m with
  | nil => simp [Memory.put, hv]
  | cons c rest ih =>
    obtain ⟨k, u⟩ := c
    simp only [List.all_cons, Bool.and_eq_true] at hm
    unfold Memory.put
    split
    · simp only [List.all_cons, Bool.and_eq_true]; exact ⟨hv, hm⟩
    · split
      · simp only [List.all_cons, Bool.and_eq_true]; exact ⟨hv, hm.2⟩
      · simp only [List.all_cons, Bool.and_eq_true]; exact ⟨hm.1, ih hm.2⟩

theorem all_drop {f : Host.Cell → Bool} {m : List Host.Cell} (a : Nat) (hm : m.all f = true) :
    (Memory.drop m a).all f = true := by
  induction m with
  | nil => rfl
  | cons c rest ih =>
    obtain ⟨k, u⟩ := c
    simp only [List.all_cons, Bool.and_eq_true] at hm
    unfold Memory.drop
    split
    · exact hm.2
    · simp only [List.all_cons, Bool.and_eq_true]; exact ⟨hm.1, ih hm.2⟩

/-- Reading where a byte was just written gives it. -/
theorem read_write_same {m : List Host.Cell} (hm : Memory.wf m = true) (a : Nat) (v : Byte) :
    Memory.read (Memory.write m a v) a = v := by
  simp only [Memory.wf, Bool.and_eq_true] at hm
  unfold Memory.read Memory.write
  split
  · next h => rw [lookup_drop_same hm.1]; exact h.symm
  · rw [lookup_put_same]; rfl

/-- A write leaves every other byte as it was. -/
theorem read_write_other (m : List Host.Cell) {a b : Nat} (v : Byte) (h : b ≠ a) :
    Memory.read (Memory.write m a v) b = Memory.read m b := by
  unfold Memory.read Memory.write
  split
  · rw [lookup_drop_other m h]
  · rw [lookup_put_other m v h]

/-- A write keeps the canonical form. -/
theorem wf_write {m : List Host.Cell} (hm : Memory.wf m = true) (a : Nat) (v : Byte) :
    Memory.wf (Memory.write m a v) = true := by
  simp only [Memory.wf, Bool.and_eq_true] at hm ⊢
  unfold Memory.write
  split
  · exact ⟨sortedFrom_drop a hm.1, all_drop a hm.2⟩
  · next h => exact ⟨sortedFrom_put v hm.1 (by omega), all_put hm.2 (by simpa using h)⟩

theorem below_put {m : List Host.Cell} {n a : Nat} (v : Byte) (hm : Memory.below n m = true) (h : a < n) :
    Memory.below n (Memory.put m a v) = true := all_put hm (by simpa using h)

theorem below_write {m : List Host.Cell} {n a : Nat} (v : Byte) (hm : Memory.below n m = true) (h : a < n) :
    Memory.below n (Memory.write m a v) = true := by
  unfold Memory.write
  split
  · exact all_drop a hm
  · exact below_put v hm h

theorem sortedFrom_ofBytes (a : Nat) (bs : List Byte) : Memory.sortedFrom a (Memory.ofBytes a bs) = true := by
  induction bs generalizing a with
  | nil => rfl
  | cons b bs ih =>
    unfold Memory.ofBytes
    split
    · exact sortedFrom_mono (by omega) (ih (a + 1))
    · simp only [Memory.sortedFrom, Bool.and_eq_true, decide_eq_true_eq]; exact ⟨Nat.le_refl a, ih (a + 1)⟩

/-- A bound buffer is in canonical form. -/
theorem wf_ofBytes (a : Nat) (bs : List Byte) : Memory.wf (Memory.ofBytes a bs) = true := by
  simp only [Memory.wf, Bool.and_eq_true]
  refine ⟨sortedFrom_mono (Nat.zero_le a) (sortedFrom_ofBytes a bs), ?_⟩
  induction bs generalizing a with
  | nil => rfl
  | cons b bs ih =>
    unfold Memory.ofBytes
    split
    · exact ih (a + 1)
    · next h => simp only [List.all_cons, Bool.and_eq_true]; exact ⟨by simpa using h, ih (a + 1)⟩

theorem below_ofBytes (a : Nat) (bs : List Byte) : Memory.below (a + bs.length) (Memory.ofBytes a bs) = true := by
  unfold Memory.below
  induction bs generalizing a with
  | nil => rfl
  | cons b bs ih =>
    have h := ih (a + 1)
    rw [show a + 1 + bs.length = a + (b :: bs).length by simp; omega] at h
    unfold Memory.ofBytes
    split
    · exact h
    · simp only [List.all_cons, Bool.and_eq_true]; exact ⟨by simp, h⟩

/-- Reading a bound buffer gives its bytes, and 0x00 outside it. -/
theorem read_ofBytes (a : Nat) (bs : List Byte) (k : Nat) (h : a ≤ k) :
    Memory.read (Memory.ofBytes a bs) k = (bs[k - a]?).getD Memory.unlisted := by
  induction bs generalizing a with
  | nil => simp [Memory.ofBytes, Memory.read, Memory.lookup]
  | cons b bs ih =>
    unfold Memory.ofBytes
    rcases Nat.eq_or_lt_of_le h with rfl | hlt
    · split
      · next hb =>
        rw [Memory.read, lookup_below_low (sortedFrom_ofBytes (a + 1) bs) (by omega)]
        simp [hb]
      · simp [Memory.read, Memory.lookup]
    · have h1 := ih (a + 1) (by omega)
      have h2 : k - a = (k - (a + 1)) + 1 := by omega
      split
      · rw [h1, h2]; simp
      · rw [Memory.read, Memory.lookup, if_neg (by omega), h2]
        simpa [Memory.read] using h1

end Sys2Proof.Machine
end

