-- ==== Sys2Proof/Laws/Ops.lean ====
section
/-! SUPPORT. Laws/Ops.lean: for each shared operation one lemma that says everything it can do, and the closure principle
`exec_closed`: a relation that every primitive update respects is respected by every command. -/

namespace Sys2Proof.Machine

/-! ### Ran -/

@[simp] theorem andThen_done {α β : Type} (a : α) (s : State) (f : α → State → Ran β) :
    (Ran.done a s).andThen f = f a s := rfl

@[simp] theorem andThen_hung {α β : Type} (s : State) (f : α → State → Ran β) :
    (Ran.hung s : Ran α).andThen f = .hung s := rfl

@[simp] theorem andThen_fault {α β : Type} (e : Fault) (f : α → State → Ran β) :
    (Ran.fault e : Ran α).andThen f = .fault e := rfl

/-- What holds of how a piece of a command ends: `done` of its value and state, `hung` of the state it hangs in, and
`fault` if it faults at all (False: it does not). -/
def Ran.Ends {α : Type} (done : α → State → Prop) (hung : State → Prop) (fault : Prop) : Ran α → Prop
  | .done a t => done a t
  | .hung t => hung t
  | .fault _ => fault

@[simp] theorem ends_done {α : Type} (D : α → State → Prop) (H : State → Prop) (F : Prop) (a : α) (t : State) :
    (Ran.done a t).Ends D H F ↔ D a t := Iff.rfl

@[simp] theorem ends_hung {α : Type} (D : α → State → Prop) (H : State → Prop) (F : Prop) (t : State) :
    (Ran.hung t : Ran α).Ends D H F ↔ H t := Iff.rfl

@[simp] theorem ends_fault {α : Type} (D : α → State → Prop) (H : State → Prop) (F : Prop) (e : Fault) :
    (Ran.fault e : Ran α).Ends D H F ↔ F := Iff.rfl

theorem ends_andThen {α β : Type} {r : Ran α} {f : α → State → Ran β} {D : α → State → Prop} {H : State → Prop}
    {D' : β → State → Prop} {H' : State → Prop} {F : Prop} (h : r.Ends D H F) (hH : ∀ t, H t → H' t)
    (hD : ∀ a t, D a t → (f a t).Ends D' H' F) : (r.andThen f).Ends D' H' F := by
  cases r with
  | done a t => exact hD a t h
  | hung t => exact hH t h
  | fault e => exact h

theorem ends_mono {α : Type} {r : Ran α} {D D' : α → State → Prop} {H H' : State → Prop} {F : Prop} (h : r.Ends D H F)
    (hD : ∀ a t, D a t → D' a t) (hH : ∀ t, H t → H' t) : r.Ends D' H' F := by
  cases r with
  | done a t => exact hD a t h
  | hung t => exact hH t h
  | fault e => exact h

/-! ### The environment -/

@[simp] theorem answer_kind (p : Params) (tr : List Event) (k : PhaseKind) (b : Byte) (bus : Bus) :
    (Bus.answer p tr k b bus).2.kind = bus.kind := by
  unfold Bus.answer; split <;> simp_all

@[simp] theorem answer_script (p : Params) (tr : List Event) (k : PhaseKind) (b : Byte) (bus : Bus) :
    (Bus.answer p tr k b bus).2.script = bus.script := by
  unfold Bus.answer; split <;> simp_all

@[simp] theorem ask_kind (p : Params) (tr : List Event) (k : PhaseKind) (b : Byte) (bus : Bus) :
    (Bus.ask p tr k b bus).2.kind = bus.kind := by
  unfold Bus.ask; split <;> simp_all

@[simp] theorem ask_script (p : Params) (tr : List Event) (k : PhaseKind) (b : Byte) (bus : Bus) :
    (Bus.ask p tr k b bus).2.script = bus.script.tail := by
  unfold Bus.ask; split <;> simp_all

@[simp] theorem answer_unacked (p : Params) (tr : List Event) (k : PhaseKind) (b : Byte) (bus : Bus) :
    (Bus.answer p tr k b bus).2.unacked = bus.unacked := by
  unfold Bus.answer; split <;> simp_all

@[simp] theorem ask_unacked (p : Params) (tr : List Event) (k : PhaseKind) (b : Byte) (bus : Bus) :
    (Bus.ask p tr k b bus).2.unacked = bus.unacked := by
  unfold Bus.ask; split <;> simp_all

/-- Where no entry is scripted for this phase, the environment's oracle answers. -/
theorem ask_none {p : Params} {tr : List Event} {k : PhaseKind} {b : Byte} {bus : Bus} {rest : List (Option Answer)}
    (h : bus.script = none :: rest) : Bus.ask p tr k b bus = Bus.answer p tr k b { bus with script := rest } := by
  simp [Bus.ask, h]

/-- Where an answer is scripted, it is the answer. -/
theorem ask_some {p : Params} {tr : List Event} {k : PhaseKind} {b : Byte} {bus : Bus} {a : Answer}
    {rest : List (Option Answer)} (h : bus.script = some a :: rest) :
    Bus.ask p tr k b bus = (a, { bus with script := rest, dcs := Bus.scripted p tr k b a bus }) := by
  simp [Bus.ask, h]

/-- A display at the test seam: as it was, as DCS leaves it after that phase, or as a Fate leaves it (93 U12). -/
theorem scripted_cases (p : Params) (tr : List Event) (k : PhaseKind) (b : Byte) (a : Answer) (bus : Bus) :
    Bus.scripted p tr k b a bus = bus.dcs ∨ Bus.scripted p tr k b a bus = (Dcs.phase p bus.dcs k b).2 ∨
    ∃ f, Bus.scripted p tr k b a bus = Dcs.unacknowledged p bus.dcs k b f := by
  unfold Bus.scripted
  split
  · exact .inl rfl
  · exact .inl rfl
  · split
    · exact .inr (.inl rfl)
    · split
      · exact .inr (.inr ⟨_, rfl⟩)
      · exact .inl rfl

/-- The display after any phase: as it was, as DCS leaves it after that phase, or as a Fate leaves it (93 U12). -/
theorem ask_dcs (p : Params) (tr : List Event) (k : PhaseKind) (b : Byte) (bus : Bus) :
    (Bus.ask p tr k b bus).2.dcs = bus.dcs ∨ (Bus.ask p tr k b bus).2.dcs = (Dcs.phase p bus.dcs k b).2 ∨
    ∃ f, (Bus.ask p tr k b bus).2.dcs = Dcs.unacknowledged p bus.dcs k b f := by
  unfold Bus.ask
  split
  · unfold Bus.answer; split <;> simp
  · unfold Bus.answer; split <;> simp
  · exact scripted_cases p tr k b _ bus

/-- Under R229's environment a phase not acknowledged leaves the display as it was. -/
theorem scripted_dropped {p : Params} {tr : List Event} {k : PhaseKind} {b : Byte} {a : Answer} {bus : Bus}
    (hu : bus.unacked = .dropped) (ha : a.acks p k b = false) : Bus.scripted p tr k b a bus = bus.dcs := by
  unfold Bus.scripted
  split <;> simp_all

theorem ask_envAck {p : Params} {tr : List Event} {k : PhaseKind} {b : Byte} {bus : Bus} (hk : bus.kind = .envAck)
    (hs : bus.script = []) : Bus.ask p tr k b bus = (.done (envAck p k b), bus) := by
  simp [Bus.ask, Bus.answer, hk, hs]

theorem ask_display {p : Params} {tr : List Event} {k : PhaseKind} {b : Byte} {bus : Bus} (hk : bus.kind = .dcs)
    (hs : bus.script = []) :
    Bus.ask p tr k b bus = (.done (Dcs.phase p bus.dcs k b).1, { bus with dcs := (Dcs.phase p bus.dcs k b).2 }) := by
  simp [Bus.ask, Bus.answer, hk, hs]

/-! ### One phase -/

/-- A phase hangs where it was issued, or completes with the answered status; nothing else. -/
theorem busPhase_cases (k : PhaseKind) (b : Byte) (s : State) :
    (∃ bus, Bus.ask s.cfg s.trace k (shown k b) s.bus = (.never, bus) ∧
        busPhase k b s = .hung { issue k b s with bus := bus }) ∨
    (∃ st bus, Bus.ask s.cfg s.trace k (shown k b) s.bus = (.done st, bus) ∧
        busPhase k b s = .done st (complete k b st { issue k b s with bus := bus })) := by
  unfold busPhase
  rcases h : Bus.ask s.cfg s.trace k (shown k b) s.bus with ⟨a, bus⟩
  cases a with
  | never => exact .inl ⟨bus, rfl, rfl⟩
  | done st => exact .inr ⟨st, bus, rfl, rfl⟩

theorem busPhase_never {k : PhaseKind} {b : Byte} {s : State} {bus : Bus}
    (h : Bus.ask s.cfg s.trace k (shown k b) s.bus = (.never, bus)) :
    busPhase k b s = .hung { issue k b s with bus := bus } := by simp [busPhase, h]

theorem busPhase_done {k : PhaseKind} {b st : Byte} {s : State} {bus : Bus}
    (h : Bus.ask s.cfg s.trace k (shown k b) s.bus = (.done st, bus)) :
    busPhase k b s = .done st (complete k b st { issue k b s with bus := bus }) := by simp [busPhase, h]

/-! ### The command cycle -/

@[simp] theorem command_refused (m : Misuse) (body : State → Ran Byte) (s : State) :
    command (some m) body s = .next { refuse m s with busy := false } := rfl

/-- Every way an accepted or refused command can end. -/
theorem command_cases (c : Option Misuse) (body : State → Ran Byte) (s : State) :
    (∃ m, c = some m ∧ command c body s = .next { refuse m s with busy := false }) ∨
    (c = none ∧
      ((∃ r t, body { s with busy := true } = .done r t ∧ command c body s = .next { t with res := r, busy := false }) ∨
       (∃ t, body { s with busy := true } = .hung t ∧ command c body s = .next t) ∨
       (∃ e, body { s with busy := true } = .fault e ∧ command c body s = .fault e))) := by
  cases c with
  | some m => exact .inl ⟨m, rfl, rfl⟩
  | none =>
    refine .inr ⟨rfl, ?_⟩
    unfold command
    rcases h : body { s with busy := true } with ⟨r, t⟩ | t | e
    · exact .inl ⟨r, t, rfl, by simp⟩
    · exact .inr (.inl ⟨t, rfl, by simp⟩)
    · exact .inr (.inr ⟨e, rfl, by simp⟩)

theorem command_done {body : State → Ran Byte} {s t : State} {r : Byte}
    (h : body { s with busy := true } = .done r t) : command none body s = .next { t with res := r, busy := false } := by
  simp [command, h]

theorem command_hung {body : State → Ran Byte} {s t : State}
    (h : body { s with busy := true } = .hung t) : command none body s = .next t := by
  simp [command, h]

/-! ### Checks -/

@[simp] theorem firstOf_nil : firstOf [] = none := rfl
@[simp] theorem firstOf_none (l : List (Option Misuse)) : firstOf (none :: l) = firstOf l := rfl
@[simp] theorem firstOf_some (m : Misuse) (l : List (Option Misuse)) : firstOf (some m :: l) = some m := rfl

@[simp] theorem require_true (m : Misuse) : require true m = none := rfl
@[simp] theorem require_false (m : Misuse) : require false m = some m := rfl

/-! ### The closure principle -/

/-- A relation between the state before and after that every primitive update of a command respects. -/
structure Closed (R : State → State → Prop) : Prop where
  refl : ∀ s, R s s
  trans : ∀ s t u, R s t → R t u → R s u
  refused : ∀ m s, R s { refuse m s with busy := false }
  accept : ∀ s, R s { s with busy := true }
  finish : ∀ r s, R s { s with res := r, busy := false }
  init : ∀ s, R s (initPeripheral s)
  issue : ∀ k b s, R s { issue k b s with bus := (Bus.ask s.cfg s.trace k (shown k b) s.bus).2 }
  complete : ∀ k b st s, R s (complete k b st s)
  txn : ∀ x s, R s { s with txn := x }
  stop : ∀ s, R s (sendStop s)
  opened : ∀ m s, R s (openStream m s)
  abort : ∀ s, R s { s with abrt := true }
  index : ∀ i s, R s { s with tix := i }
  initd : ∀ s, R s { s with initd := true }
  closed : ∀ x s, R s { s with sess := x, strm := .none, abrt := false, initd := false }
  sess : ∀ x s, R s { s with sess := x }
  counters : ∀ p c k s, R s { s with pg := p, col := c, cur := k }

section closure

variable {R : State → State → Prop} {F : Prop} (hR : Closed R)
include hR

/-- What a piece of a command that starts at s may end in: a state R-related to s, or a fault. -/
theorem closed_busPhase (k : PhaseKind) (b : Byte) (s : State) :
    (busPhase k b s).Ends (fun _ t => R s t) (R s) F := by
  have h := hR.issue k b s
  rcases busPhase_cases k b s with ⟨bus, ha, he⟩ | ⟨st, bus, ha, he⟩ <;> rw [he] <;> simp only [ha] at h
  · exact h
  · exact hR.trans _ _ _ h (hR.complete k b st _)

theorem closed_sendStart (s : State) : (sendStart s).Ends (fun _ t => R s t) (R s) F := by
  refine ends_andThen (closed_busPhase hR .start 0 s) (fun _ h => h) fun st t h => ?_
  split
  · exact hR.trans _ _ _ h (hR.txn _ _)
  · exact h

theorem closed_sendAddress (a : BitVec 7) (d : BitVec 1) (s : State) :
    (sendAddress a d s).Ends (fun _ t => R s t) (R s) F :=
  ends_andThen (closed_busPhase hR .address _ s) (fun _ h => h) fun _ _ h => hR.trans _ _ _ h (hR.txn _ _)

theorem closed_sendByte (b : Byte) (s : State) : (sendByte b s).Ends (fun _ t => R s t) (R s) F :=
  ends_andThen (closed_busPhase hR .data b s) (fun _ h => h) fun _ _ h => h

theorem closed_unlessFailed {s t : State} {next : State → Ran StreamResult} (o : PhaseOutcome) (k : PhaseKind)
    (h : R s t) (hn : ∀ u, R s u → (next u).Ends (fun _ v => R s v) (R s) F) :
    (unlessFailed o k t next).Ends (fun _ v => R s v) (R s) F := by
  cases o with
  | ack => exact hn t h
  | nack => exact hR.trans _ _ _ h (hR.abort _)
  | unexpected => exact hR.trans _ _ _ h (hR.abort _)

theorem closed_beginStream (cb : Byte) (mode : Strm) (s : State) :
    (beginStream cb mode s).Ends (fun _ t => R s t) (R s) F := by
  have h0 := hR.opened mode s
  refine ends_andThen (closed_sendStart hR _) (fun _ h => hR.trans _ _ _ h0 h) fun o1 s1 h1 => ?_
  have h1 := hR.trans _ _ _ h0 h1
  refine closed_unlessFailed hR o1 .start h1 fun t1 h1 => ?_
  refine ends_andThen (closed_sendAddress hR _ _ _) (fun _ h => hR.trans _ _ _ h1 h) fun o2 s2 h2 => ?_
  have h2 := hR.trans _ _ _ h1 h2
  refine closed_unlessFailed hR o2 .address h2 fun t2 h2 => ?_
  refine ends_andThen (closed_sendByte hR _ _) (fun _ h => hR.trans _ _ _ h2 h) fun o3 s3 h3 => ?_
  exact closed_unlessFailed hR o3 .data (hR.trans _ _ _ h2 h3) fun t3 h3 => h3

theorem closed_writeByte (b : Byte) (s : State) : (writeByte b s).Ends (fun _ t => R s t) (R s) F := by
  unfold writeByte
  split
  · exact hR.refl s
  · exact ends_andThen (closed_sendByte hR b s) (fun _ h => h) fun o t h =>
      closed_unlessFailed hR o .data h fun u hu => hu

theorem closed_tableLoop (n i : Nat) (s : State) : (tableLoop n i s).Ends (fun _ t => R s t) (R s) True := by
  induction n generalizing i s with
  | zero => exact hR.refl s
  | succ n ih =>
    unfold tableLoop
    split
    · trivial
    · have h0 := hR.index (BitVec.ofNat 16 i) s
      refine ends_andThen (closed_writeByte hR _ _) (fun _ h => hR.trans _ _ _ h0 h) fun r t h => ?_
      have h := hR.trans _ _ _ h0 h
      split
      · exact ends_mono (ih _ _) (fun _ _ h' => hR.trans _ _ _ h h') (fun _ h' => hR.trans _ _ _ h h')
      · exact h

theorem closed_writeTable (s : State) : (writeTable s).Ends (fun _ t => R s t) (R s) True := by
  unfold writeTable
  split
  · exact hR.refl s
  · refine ends_andThen (closed_tableLoop hR _ _ _) (fun _ h => h) fun r t h => ?_
    split
    · exact hR.trans _ _ _ h (hR.trans _ _ _ (hR.index 0 t) (hR.initd _))
    · exact hR.trans _ _ _ h (hR.index 0 t)

theorem closed_emitColumns (src : State → Nat → Option Byte) (n : Nat) (s : State) :
    (emitColumns src n s).Ends (fun _ t => R s t) (R s) True := by
  induction n generalizing s with
  | zero => exact hR.refl s
  | succ n ih =>
    unfold emitColumns
    split
    · trivial
    · refine ends_andThen (closed_writeByte hR _ _) (fun _ h => h) fun r t h => ?_
      split
      · have h := hR.trans _ _ _ h (hR.counters t.pg (t.col + 1) (t.cur + 1) t)
        exact ends_mono (ih _) (fun _ _ h' => hR.trans _ _ _ h h') (fun _ h' => hR.trans _ _ _ h h')
      · exact h

theorem closed_emitPages (src : State → Nat → Option Byte) (n : Nat) (s : State) :
    (emitPages src n s).Ends (fun _ t => R s t) (R s) True := by
  induction n generalizing s with
  | zero => exact hR.refl s
  | succ n ih =>
    unfold emitPages
    refine ends_andThen (closed_emitColumns hR src _ _) (fun _ h => h) fun r t h => ?_
    split
    · have h := hR.trans _ _ _ h (hR.counters (t.pg + 1) 0 t.cur t)
      exact ends_mono (ih _) (fun _ _ h' => hR.trans _ _ _ h h') (fun _ h' => hR.trans _ _ _ h h')
    · exact h

theorem closed_endStream (s : State) : R s (endStream s) :=
  hR.trans _ _ _ (hR.stop s) (hR.closed (sessAfterEnd s.sess s.initd) (sendStop s))

theorem closed_initSequence (s : State) : (initSequence s).Ends (fun _ t => R s t) (R s) True := by
  have h0 : R s (sessForCommands s) := hR.sess _ s
  refine ends_andThen (closed_beginStream hR _ _ _) (fun _ h => hR.trans _ _ _ h0 h) fun r t h => ?_
  have h := hR.trans _ _ _ h0 h
  split
  · refine ends_andThen (closed_writeTable hR _) (fun _ h' => hR.trans _ _ _ h h') fun r2 u h' => ?_
    exact hR.trans _ _ _ (hR.trans _ _ _ h h') (closed_endStream hR u)
  · exact hR.trans _ _ _ h (closed_endStream hR t)

theorem closed_emitFrame (src : State → Nat → Option Byte) (s : State) :
    (emitFrame src s).Ends (fun _ t => R s t) (R s) True := by
  have h0 : R s (beginFrame s) := hR.trans _ _ _ (hR.sess .onData s) (hR.counters 0 0 0 _)
  refine ends_andThen (closed_beginStream hR _ _ _) (fun _ h => hR.trans _ _ _ h0 h) fun r t h => ?_
  have h := hR.trans _ _ _ h0 h
  split
  · refine ends_andThen (closed_emitPages hR src _ _) (fun _ h' => hR.trans _ _ _ h h') fun r2 u h' => ?_
    exact hR.trans _ _ _ (hR.trans _ _ _ h h') (closed_endStream hR u)
  · exact hR.trans _ _ _ h (closed_endStream hR t)

theorem closed_command {c : Option Misuse} {body : State → Ran Byte} {s t : State} (h : command c body s = .next t)
    (hb : ∀ s, (body s).Ends (fun _ t => R s t) (R s) True) : R s t := by
  rcases command_cases c body s with ⟨m, -, he⟩ | ⟨-, ⟨r, u, hr, he⟩ | ⟨u, hr, he⟩ | ⟨e, hr, he⟩⟩
  · rw [he] at h; cases h; exact hR.refused m s
  · rw [he] at h; cases h
    have h1 := hb { s with busy := true }
    rw [hr] at h1
    exact hR.trans _ _ _ (hR.trans _ _ _ (hR.accept s) h1) (hR.finish r u)
  · rw [he] at h; cases h
    have h1 := hb { s with busy := true }
    rw [hr] at h1
    exact hR.trans _ _ _ (hR.accept s) h1
  · rw [he] at h; cases h

/-- Every next state of every command is R-related to the state before it. -/
theorem exec_closed {i : Instr} {s t : State} (h : exec i s = .next t) : R s t := by
  cases i with
  | binit => unfold exec execBinit at h; exact closed_command hR h fun s => hR.init s
  | start =>
    unfold exec execStart at h
    exact closed_command hR h fun s => ends_andThen (closed_sendStart hR s) (fun _ h => h) fun _ _ h => h
  | addr a d =>
    unfold exec execAddr at h
    exact closed_command hR h fun s => ends_andThen (closed_sendAddress hR a d s) (fun _ h => h) fun _ _ h => h
  | byte b =>
    unfold exec execByte at h
    exact closed_command hR h fun s => ends_andThen (closed_sendByte hR b s) (fun _ h => h) fun _ _ h => h
  | stop => unfold exec execStop at h; exact closed_command hR h fun s => hR.stop s
  | beginc =>
    unfold exec execBeginc at h
    refine closed_command hR h fun s => ?_
    have h0 : R s (sessForCommands s) := hR.sess _ s
    exact ends_andThen (closed_beginStream hR _ _ _) (fun _ h => hR.trans _ _ _ h0 h) fun _ _ h => hR.trans _ _ _ h0 h
  | begind =>
    unfold exec execBegind at h
    refine closed_command hR h fun s => ?_
    have h0 := hR.sess .onData s
    exact ends_andThen (closed_beginStream hR _ _ _) (fun _ h => hR.trans _ _ _ h0 h) fun _ _ h => hR.trans _ _ _ h0 h
  | wstri b =>
    unfold exec execWstri at h
    exact closed_command hR h fun s => ends_andThen (closed_writeByte hR b s) (fun _ h => h) fun _ _ h => h
  | wstrt =>
    unfold exec execWstrt at h
    exact closed_command hR h fun s => ends_andThen (closed_writeTable hR s) (fun _ h => h) fun _ _ h => h
  | endCmd => unfold exec execEnd at h; exact closed_command hR h fun s => closed_endStream hR s
  | init => unfold exec execInit at h; exact closed_command hR h fun s => closed_initSequence hR s
  | xfer => unfold exec execXfer at h; exact closed_command hR h fun s => closed_emitFrame hR _ s
  | clear => unfold exec execClear at h; exact closed_command hR h fun s => closed_emitFrame hR _ s
  | fill => unfold exec execFill at h; exact closed_command hR h fun s => closed_emitFrame hR _ s

end closure

end Sys2Proof.Machine
end

