-- ==== Sys2Proof/Laws/Streams.lean ====
section
/-! SUPPORT. Laws/Streams.lean: the loops over the table and over the frame are one loop, `stream`, that sends a list of
bytes; one lemma says everything that loop can do, and one everything an open can do. -/

namespace Sys2Proof.Machine

/-! ### Plans -/

theorem resOf_ack (k : PhaseKind) : resOf .ack k = 0 := rfl

theorem resOf_ne_zero {o : PhaseOutcome} (k : PhaseKind) (h : o ≠ .ack) : resOf o k ≠ 0 := by
  cases o <;> cases k <;> first | exact absurd rfl h | decide

theorem eventRes_ne_zero {p : Params} {e : Event} (h : eventOutcome p e ≠ .ack) : eventRes p e ≠ 0 := by
  cases e with
  | p => exact absurd rfl h
  | s st => exact resOf_ne_zero _ h
  | a b st => exact resOf_ne_zero _ h
  | d b st => exact resOf_ne_zero _ h

/-- Events that complete the whole of one plan, all Acknowledged, followed by events that follow another. -/
theorem follows_append {p : Params} {plan plan' : List Planned} {es es' : List Event} (h : follows p plan es = true)
    (h0 : firstFailure p es = 0) (h' : follows p plan' es' = true) : follows p (plan ++ plan') (es ++ es') = true := by
  induction plan generalizing es with
  | nil =>
    cases es with
    | nil => exact h'
    | cons e es => simp [follows] at h
  | cons x plan ih =>
    cases es with
    | nil => simp [follows] at h
    | cons e es =>
      by_cases ho : eventOutcome p e = .ack
      · simp only [follows, ho, if_true, Bool.and_eq_true, firstFailure] at h h0 ⊢
        simp only [List.cons_append, follows, ho, if_true, Bool.and_eq_true]
        exact ⟨h.1, ih h.2 h0⟩
      · simp only [firstFailure, ho, if_false] at h0
        exact absurd h0 (eventRes_ne_zero ho)

/-- Events cut short by a failure follow every longer plan too. -/
theorem follows_failed {p : Params} {plan : List Planned} (plan' : List Planned) {es : List Event}
    (h : follows p plan es = true) (h0 : firstFailure p es ≠ 0) : follows p (plan ++ plan') es = true := by
  induction plan generalizing es with
  | nil =>
    cases es with
    | nil => exact absurd rfl h0
    | cons e es => simp [follows] at h
  | cons x plan ih =>
    cases es with
    | nil => simp [follows] at h
    | cons e es =>
      by_cases ho : eventOutcome p e = .ack
      · simp only [follows, ho, if_true, Bool.and_eq_true, firstFailure] at h h0
        simp only [List.cons_append, follows, ho, if_true, Bool.and_eq_true]
        exact ⟨h.1, ih h.2 h0⟩
      · simp only [follows, ho, if_false] at h
        simpa only [List.cons_append, follows, ho, if_false] using h

theorem acked_append {p : Params} {plan plan' : List Planned} {es es' : List Event} (h : follows p plan es = true)
    (h0 : firstFailure p es = 0) (h' : ackedSoFar p plan' es' = true) : ackedSoFar p (plan ++ plan') (es ++ es') = true := by
  induction plan generalizing es with
  | nil =>
    cases es with
    | nil => exact h'
    | cons e es => simp [follows] at h
  | cons x plan ih =>
    cases es with
    | nil => simp [follows] at h
    | cons e es =>
      by_cases ho : eventOutcome p e = .ack
      · simp only [follows, ho, if_true, Bool.and_eq_true, firstFailure] at h h0
        simp only [List.cons_append, ackedSoFar, ho, Bool.and_eq_true]
        exact ⟨⟨h.1, rfl⟩, ih h.2 h0⟩
      · simp only [firstFailure, ho, if_false] at h0
        exact absurd h0 (eventRes_ne_zero ho)

theorem acked_longer {p : Params} {plan : List Planned} (plan' : List Planned) {es : List Event}
    (h : ackedSoFar p plan es = true) : ackedSoFar p (plan ++ plan') es = true := by
  induction plan generalizing es with
  | nil => simp [ackedSoFar] at h
  | cons x plan ih =>
    cases es with
    | nil => rfl
    | cons e es =>
      simp only [List.cons_append, ackedSoFar, Bool.and_eq_true] at h ⊢
      exact ⟨h.1, ih h.2⟩

theorem firstFailure_append {p : Params} {es es' : List Event} (h : firstFailure p es = 0) :
    firstFailure p (es ++ es') = firstFailure p es' := by
  induction es with
  | nil => rfl
  | cons e es ih =>
    by_cases ho : eventOutcome p e = .ack
    · simp only [firstFailure, ho, if_true] at h
      simp only [List.cons_append, firstFailure, ho, if_true, ih h]
    · simp only [firstFailure, ho, if_false] at h
      exact absurd h (eventRes_ne_zero ho)

@[simp] theorem ackCount_append (p : Params) (es es' : List Event) :
    ackCount p (es ++ es') = ackCount p es + ackCount p es' := by
  induction es with
  | nil => simp [ackCount]
  | cons e es ih => simp only [List.cons_append, ackCount, ih]; omega

/-- A plan followed without a failure is followed to its end. -/
theorem ackCount_of_follows {p : Params} {plan : List Planned} {es : List Event} (h : follows p plan es = true)
    (h0 : firstFailure p es = 0) : ackCount p es = plan.length ∧ es.length = plan.length := by
  induction plan generalizing es with
  | nil =>
    cases es with
    | nil => exact ⟨rfl, rfl⟩
    | cons e es => simp [follows] at h
  | cons x plan ih =>
    cases es with
    | nil => simp [follows] at h
    | cons e es =>
      by_cases ho : eventOutcome p e = .ack
      · simp only [follows, ho, if_true, Bool.and_eq_true, firstFailure] at h h0
        have := ih h.2 h0
        simp only [ackCount, ho, if_true, List.length_cons, this]
        exact ⟨by omega, trivial⟩
      · simp only [firstFailure, ho, if_false] at h0
        exact absurd h0 (eventRes_ne_zero ho)

/-- The events of a plan contain no Stop. -/
theorem follows_noStop {p : Params} {plan : List Planned} {es : List Event} (h : follows p plan es = true) :
    Event.p ∉ es := by
  induction plan generalizing es with
  | nil =>
    cases es with
    | nil => simp
    | cons e es => simp [follows] at h
  | cons x plan ih =>
    cases es with
    | nil => simp
    | cons e es =>
      simp only [follows, Bool.and_eq_true, decide_eq_true_eq] at h
      have he : e ≠ .p := by rintro rfl; simp [plannedOf] at h
      by_cases ho : eventOutcome p e = .ack
      · simp only [ho, if_true] at h
        simp only [List.mem_cons, not_or]
        exact ⟨Ne.symm he, ih h.2⟩
      · simp only [ho, if_false, decide_eq_true_eq] at h
        simp [h.2, Ne.symm he]

/-! ### One byte of a stream -/

/-- What of a state a stream's phases leave alone: the state with all they write blotted out. -/
def rest (s : State) : State :=
  { s with
    ctrl := 0, stat := 0, data := 0, dataWritten := false, pend := none, bus := ⟨s.bus.kind, 0, [], .anyValue, Dcs.reset 0⟩
    trace := [], abrt := false, pg := 0, col := 0, cur := 0, tix := 0 }

theorem rest_cfg {s t : State} (h : rest t = rest s) : t.cfg = s.cfg := by
  have := congrArg State.cfg h
  exact this

/-- CTRL after a completed Data phase (R22). -/
theorem issueCtrl_data_complete : issueCtrl .data ||| 0x80 = (0x84 : Byte) := by decide

/-- CTRL after a completed Start (R22). -/
theorem issueCtrl_start_complete : issueCtrl .start ||| 0x80 = (0xA4 : Byte) := by decide

/-- CTRL after a completed Address phase (R22). -/
theorem issueCtrl_address_complete : issueCtrl .address ||| 0x80 = (0x84 : Byte) := by decide

/-- Everything one streamed byte can do while ABRT = 0. -/
theorem writeByte_cases (b : Byte) (s : State) (ha : s.abrt = false) :
    (∃ bus, Bus.ask s.cfg s.trace .data b s.bus = (.never, bus) ∧
      writeByte b s = .hung { issue .data b s with bus := bus }) ∨
    (∃ st bus, Bus.ask s.cfg s.trace .data b s.bus = (.done st, bus) ∧
      writeByte b s =
        if classify s.cfg .data 0#1 st = .ack then .done .ok (complete .data b st { issue .data b s with bus := bus })
        else .done (.failed (classify s.cfg .data 0#1 st) .data)
          { complete .data b st { issue .data b s with bus := bus } with abrt := true }) := by
  have hw : writeByte b s = (sendByte b s).andThen fun o t => unlessFailed o .data t fun u => .done .ok u := by
    simp [writeByte, ha]
  rw [hw]
  unfold sendByte
  rcases busPhase_cases .data b s with ⟨bus, h, he⟩ | ⟨st, bus, h, he⟩
  · exact .inl ⟨bus, h, by rw [he]; rfl⟩
  · refine .inr ⟨st, bus, h, ?_⟩
    rw [he]
    simp only [andThen_done, complete_cfg, issue_cfg]
    cases classify s.cfg .data 0#1 st <;> rfl

/-! ### The stream loop -/

/-- PG, COL, CUR and the table index while byte k of a stream is being sent. -/
abbrev Tags := Nat → Word × Word × Word × Word

/-- The counters of byte k. -/
def tagged (g : Tags) (k : Nat) (s : State) : State :=
  { s with pg := (g k).1, col := (g k).2.1, cur := (g k).2.2.1, tix := (g k).2.2.2 }

/-- The counters of a state. -/
def tagsOf (s : State) : Word × Word × Word × Word := (s.pg, s.col, s.cur, s.tix)

@[simp] theorem tagsOf_tagged (g : Tags) (k : Nat) (s : State) : tagsOf (tagged g k s) = g k := rfl

@[simp] theorem tagged_tagged (g h : Tags) (k j : Nat) (s : State) : tagged g k (tagged h j s) = tagged g k s := rfl

@[simp] theorem tagged_cfg (g : Tags) (k : Nat) (s : State) : (tagged g k s).cfg = s.cfg := rfl
@[simp] theorem tagged_trace (g : Tags) (k : Nat) (s : State) : (tagged g k s).trace = s.trace := rfl
@[simp] theorem tagged_bus (g : Tags) (k : Nat) (s : State) : (tagged g k s).bus = s.bus := rfl

theorem tagged_of_tagsOf {g : Tags} {k : Nat} {s : State} (h : tagsOf s = g k) : tagged g k s = s := by
  unfold tagged; rw [← h]; rfl

/-- Send the bytes one after another, from byte k on, stopping at the first that is not Acknowledged. -/
def stream (g : Tags) : Nat → List Byte → State → Ran StreamResult
  | k, [], s => .done .ok (tagged g k s)
  | k, b :: bs, s =>
    (writeByte b (tagged g k s)).andThen fun r t =>
      match r with
      | .ok => stream g (k + 1) bs t
      | r => .done r t

theorem stream_append (g : Tags) (k : Nat) (bs bs' : List Byte) (s : State) :
    stream g k (bs ++ bs') s = (stream g k bs s).andThen fun r t =>
      match r with
      | .ok => stream g (k + bs.length) bs' t
      | r => .done r t := by
  induction bs generalizing k s with
  | nil =>
    cases bs' with
    | nil => simp [stream]
    | cons b bs' => simp [stream]
  | cons b bs ih =>
    simp only [List.cons_append, stream]
    rcases h : writeByte b (tagged g k s) with ⟨r, t⟩ | t | e
    · cases r with
      | ok => simp only [andThen_done, ih, List.length_cons]; rw [show k + 1 + bs.length = k + (bs.length + 1) by omega]
      | failed o kd => rfl
      | skipped => rfl
    · rfl
    · rfl

/-- What a stream can end in, and what it can hang in: the events follow the bytes, the counters are those of the byte not
acknowledged (or of the end), nothing else has changed, and it never faults. -/
theorem stream_spec (g : Tags) (k : Nat) (bs : List Byte) (s : State) (ha : s.abrt = false) :
    (stream g k bs s).Ends
      (fun r t => ∃ es, t.trace = s.trace ++ es ∧ follows s.cfg (bs.map fun b => (.data, b)) es = true ∧
        resOfStream r = firstFailure s.cfg es ∧ r ≠ .skipped ∧ (r = .ok ↔ firstFailure s.cfg es = 0) ∧
        (t.abrt = true ↔ r ≠ .ok) ∧ tagsOf t = g (k + ackCount s.cfg es) ∧ rest t = rest s ∧
        (s.pend = none → t.pend = none) ∧ (t.ctrl = 0x84 ∨ t.ctrl = s.ctrl))
      (fun t => ∃ es, t.trace = s.trace ++ es ∧ ackedSoFar s.cfg (bs.map fun b => (.data, b)) es = true ∧
        t.abrt = false ∧ tagsOf t = g (k + es.length) ∧ rest t = rest s ∧ t.pend = some .data ∧ t.ctrl = 0x04)
      False := by
  induction bs generalizing k s with
  | nil =>
    refine ⟨[], by simp [tagged], rfl, rfl, by simp, by simp [firstFailure], ?_, rfl, rfl, id, .inr rfl⟩
    simp [tagged, ha]
  | cons b bs ih =>
    unfold stream
    rcases writeByte_cases b (tagged g k s) ha with ⟨bus, hask, hw⟩ | ⟨st, bus, hask, hw⟩
    · rw [hw]
      exact ⟨[], by simp [tagged], rfl, ha, rfl, by
        have hk : bus.kind = s.bus.kind := by
          have := congrArg (fun x => x.2.kind) hask; simpa [tagged] using this.symm
        simp [rest, issue, tagged, hk], rfl, rfl⟩
    · have hk : bus.kind = s.bus.kind := by
        have := congrArg (fun x => x.2.kind) hask; simpa [tagged] using this.symm
      rw [hw]
      have hcfg : (tagged g k s).cfg = s.cfg := rfl
      rw [hcfg]
      split
      · next hc =>
        have hco : eventOutcome s.cfg (.d b st) = .ack := hc
        simp only [andThen_done]
        refine ends_mono (ih (k + 1) _ ?_) ?_ ?_
        · exact ha
        · rintro r t ⟨es, h1, h2, h3, h4, h5, h6, h7, h8, h9, h10⟩
          simp only [complete_cfg, issue_cfg, tagged_cfg, complete_trace, issue_trace, tagged_trace] at h1 h2 h3 h5 h7
          refine ⟨.d b st :: es, ?_, ?_, ?_, h4, ?_, h6, ?_, ?_, fun _ => h9 rfl,
            .inl (h10.elim id fun h => h.trans issueCtrl_data_complete)⟩
          · rw [h1]; simp [eventOf]
          · simpa [follows, hco, plannedOf] using h2
          · rw [h3]; simp [firstFailure, hco]
          · rw [h5]; simp [firstFailure, hco]
          · rw [h7, show k + 1 + ackCount s.cfg es = k + ackCount s.cfg (.d b st :: es) by
              simp [ackCount, hco]; omega]
          · rw [h8]; simp [rest, complete, issue, tagged, hk]
        · rintro t ⟨es, h1, h2, h3, h4, h5, h6, h7⟩
          simp only [complete_cfg, issue_cfg, tagged_cfg, complete_trace, issue_trace, tagged_trace] at h1 h2
          refine ⟨.d b st :: es, ?_, ?_, h3, ?_, ?_, h6, h7⟩
          · rw [h1]; simp [eventOf]
          · simpa [ackedSoFar, plannedOf, hco] using h2
          · rw [h4, show k + 1 + es.length = k + (Event.d b st :: es).length by simp; omega]
          · rw [h5]; simp [rest, complete, issue, tagged, hk]
      · next hc =>
        have hco : eventOutcome s.cfg (.d b st) ≠ .ack := hc
        have hr : eventRes s.cfg (.d b st) ≠ 0 := eventRes_ne_zero hco
        simp only [andThen_done]
        refine ⟨[.d b st], ?_, ?_, ?_, by simp, ?_, by simp, ?_, ?_, fun _ => rfl, .inl issueCtrl_data_complete⟩
        · simp [eventOf]
        · simp [follows, plannedOf, hco]
        · simp [firstFailure, hco, resOfStream, eventRes]
        · refine ⟨fun h => by simp at h, fun h => ?_⟩
          simp only [firstFailure, hco, if_false] at h
          exact absurd h hr
        · simp [ackCount, hco, tagsOf, tagged]
        · simp [rest, complete, issue, tagged, hk]

/-! ### The table -/

/-- The counters of a table stream: PG, COL, CUR as they were, the index counting (R37). -/
def tableTags (s : State) : Tags := fun k => (s.pg, s.col, s.cur, BitVec.ofNat 16 k)

/-- The table loop sends the bytes of INIT_TABLE (R156); `f` is any continuation that does not look at the index. -/
theorem tableLoop_stream {β : Type} (f : StreamResult → State → Ran β) (hf : ∀ r t i, f r { t with tix := i } = f r t)
    (s0 : State) (n i : Nat) (s : State) (hn : i + n = s.cfg.initLen) (htags : s.pg = s0.pg ∧ s.col = s0.col ∧ s.cur = s0.cur) :
    (tableLoop n i s).andThen f = (stream (tableTags s0) i (s.cfg.initTable.drop i) s).andThen f := by
  induction n generalizing i s with
  | zero =>
    have : s.cfg.initTable.drop i = [] := List.drop_eq_nil_of_le (by unfold Params.initLen at hn; omega)
    rw [this]
    simp only [tableLoop, stream, andThen_done]
    rw [← hf .ok s (BitVec.ofNat 16 i)]
    congr 1
    unfold tagged tableTags
    rw [← htags.1, ← htags.2.1, ← htags.2.2]
  | succ n ih =>
    have hlt : i < s.cfg.initTable.length := by unfold Params.initLen at hn; omega
    have hd : s.cfg.initTable.drop i = s.cfg.initTable[i] :: s.cfg.initTable.drop (i + 1) := List.drop_eq_getElem_cons hlt
    have hm : memRead .table i s = some s.cfg.initTable[i] := by simp [memRead, hlt]
    have ht : tagged (tableTags s0) i s = { s with tix := BitVec.ofNat 16 i } := by
      unfold tagged tableTags; rw [← htags.1, ← htags.2.1, ← htags.2.2]
    rw [hd]
    simp only [tableLoop, hm, stream, ht]
    have hfr : (writeByte s.cfg.initTable[i] { s with tix := BitVec.ofNat 16 i }).Ends
        (fun _ t => t.cfg = s.cfg ∧ t.pg = s.pg ∧ t.col = s.col ∧ t.cur = s.cur) (fun _ => True) True := by
      unfold writeByte
      split
      · exact ⟨rfl, rfl, rfl, rfl⟩
      · unfold sendByte
        rcases busPhase_cases .data s.cfg.initTable[i] { s with tix := BitVec.ofNat 16 i } with ⟨bus, h, he⟩ | ⟨st, bus, h, he⟩ <;>
          rw [he]
        · trivial
        · simp only [andThen_done]
          cases classify _ PhaseKind.data 0#1 st <;> exact ⟨rfl, rfl, rfl, rfl⟩
    rcases h : writeByte s.cfg.initTable[i] { s with tix := BitVec.ofNat 16 i } with ⟨r, t⟩ | t | e
    · rw [h] at hfr
      obtain ⟨h1, h2, h3, h4⟩ := hfr
      cases r with
      | ok =>
        simp only [andThen_done]
        rw [ih (i + 1) t (by rw [h1]; omega) ⟨h2.trans htags.1, h3.trans htags.2.1, h4.trans htags.2.2⟩, h1]
      | failed o kd => rfl
      | skipped => rfl
    · rfl
    · rfl

/-- What follows a table stream (R156): the index is dropped, and INITD set if all of it was acknowledged. -/
def tableEnd (r : StreamResult) (t : State) : Ran StreamResult :=
  match r with
  | .ok => .done .ok { t with tix := 0, initd := true }
  | r => .done r { t with tix := 0 }

/-- WriteStream of the table is the stream of INIT_TABLE. -/
theorem writeTable_stream (s : State) (ha : s.abrt = false) :
    writeTable s = (stream (tableTags s) 0 s.cfg.initTable s).andThen tableEnd := by
  have h := tableLoop_stream tableEnd (fun r t i => by cases r <;> rfl) s s.cfg.initLen 0 s (by simp) ⟨rfl, rfl, rfl⟩
  rw [List.drop_zero] at h
  rw [← h]
  unfold writeTable
  rw [ha]
  rfl

/-! ### The frame -/

/-- The counters of a frame stream (R171): PG = k div W, COL = k mod W, CUR = k; the index as it was. -/
def frameTags (s : State) : Tags := fun k =>
  (BitVec.ofNat 16 (k / s.cfg.w), BitVec.ofNat 16 (k % s.cfg.w), BitVec.ofNat 16 k, s.tix)

/-- A source of frame bytes that gives `f k` for byte k of any state with that configuration and FRAME. -/
def Sources (src : State → Nat → Option Byte) (f : Nat → Byte) (s : State) : Prop :=
  ∀ t : State, t.cfg = s.cfg → t.frame = s.frame → ∀ k, k < s.cfg.fbLen → src t k = some (f k)

/-- The counters of the bytes of one page. -/
def pageTags (s0 : State) (page : Nat) : Tags := fun k =>
  (BitVec.ofNat 16 page, BitVec.ofNat 16 (k - page * s0.cfg.w), BitVec.ofNat 16 k, s0.tix)

theorem writeByte_keeps (b : Byte) (s : State) :
    (writeByte b s).Ends (fun _ t => t.cfg = s.cfg ∧ t.frame = s.frame ∧ tagsOf t = tagsOf s) (fun _ => True) True := by
  unfold writeByte
  split
  · exact ⟨rfl, rfl, rfl⟩
  · unfold sendByte
    rcases busPhase_cases .data b s with ⟨bus, h, he⟩ | ⟨st, bus, h, he⟩ <;> rw [he]
    · trivial
    · simp only [andThen_done]
      cases classify _ PhaseKind.data 0#1 st <;> exact ⟨rfl, rfl, rfl⟩

theorem emitColumns_stream {src : State → Nat → Option Byte} {f : Nat → Byte} {s0 : State} (hs : Sources src f s0)
    (hlen : s0.cfg.fbLen ≤ 65535) (page : Nat) (n k : Nat) (s : State) (hk : page * s0.cfg.w ≤ k)
    (hend : k + n ≤ s0.cfg.fbLen) (hc : s.cfg = s0.cfg) (hf : s.frame = s0.frame) (ht : tagsOf s = pageTags s0 page k) :
    emitColumns src n s = stream (pageTags s0 page) k ((List.range' k n).map f) s := by
  induction n generalizing k s with
  | zero => simp only [emitColumns, List.range'_zero, List.map_nil, stream]; rw [tagged_of_tagsOf ht]
  | succ n ih =>
    have hcur : s.cur = BitVec.ofNat 16 k := congrArg (fun x => x.2.2.1) ht
    have hcn : s.cur.toNat = k := by rw [hcur, BitVec.toNat_ofNat]; omega
    simp only [List.range'_succ, List.map_cons, stream, emitColumns, hcn, hs s hc hf k (by omega)]
    rw [tagged_of_tagsOf ht]
    have hkeep := writeByte_keeps (f k) s
    rcases h : writeByte (f k) s with ⟨r, t⟩ | t | e
    · rw [h] at hkeep
      obtain ⟨h1, h2, h3⟩ := hkeep
      cases r with
      | ok =>
        simp only [andThen_done]
        have h4 : tagsOf t = pageTags s0 page k := h3.trans ht
        have h5 : { t with col := t.col + 1, cur := t.cur + 1 } = tagged (pageTags s0 page) (k + 1) t := by
          have e1 : t.pg = BitVec.ofNat 16 page := congrArg (fun x => x.1) h4
          have e2 : t.col = BitVec.ofNat 16 (k - page * s0.cfg.w) := congrArg (fun x => x.2.1) h4
          have e3 : t.cur = BitVec.ofNat 16 k := congrArg (fun x => x.2.2.1) h4
          have e4 : t.tix = s0.tix := congrArg (fun x => x.2.2.2) h4
          unfold tagged pageTags
          rw [e2, e3, ← e1, ← e4, show k + 1 - page * s0.cfg.w = (k - page * s0.cfg.w) + 1 by omega]
          simp [BitVec.ofNat_add]
        rw [h5, ih (k + 1) _ (by omega) (by omega) (by exact h1.trans hc) (by exact h2.trans hf) rfl]
        cases (List.range' (k + 1) n).map f with
        | nil => simp [stream]
        | cons b bs => simp [stream]
      | failed o kd => rfl
      | skipped => rfl
    · rfl
    · rfl

/-- From the page's counters to the frame's: they agree inside the page, and at its end after the next page is entered. -/
theorem pageTags_frameTags (s0 : State) {page k : Nat} (h1 : page * s0.cfg.w ≤ k) (h2 : k < (page + 1) * s0.cfg.w) :
    pageTags s0 page k = frameTags s0 k := by
  have hd : k / s0.cfg.w = page := Nat.div_eq_of_lt_le h1 h2
  have hm : k % s0.cfg.w = k - page * s0.cfg.w := by
    have := Nat.mod_add_div k s0.cfg.w
    rw [hd, Nat.mul_comm] at this
    omega
  unfold pageTags frameTags
  rw [hd, hm]

theorem stream_page {β : Type} (s0 : State) (page : Nat) (bs : List Byte) (k : Nat) (s : State) (f f' : StreamResult → State → Ran β)
    (h1 : page * s0.cfg.w ≤ k) (h2 : k + bs.length = (page + 1) * s0.cfg.w)
    (hok : ∀ t, f .ok (tagged (pageTags s0 page) ((page + 1) * s0.cfg.w) t) =
      f' .ok (tagged (frameTags s0) ((page + 1) * s0.cfg.w) t))
    (hno : ∀ r t, r ≠ .ok → f r t = f' r t) :
    (stream (pageTags s0 page) k bs s).andThen f = (stream (frameTags s0) k bs s).andThen f' := by
  induction bs generalizing k s with
  | nil =>
    simp only [List.length_nil, Nat.add_zero] at h2
    simp only [stream, andThen_done, h2]
    exact hok s
  | cons b bs ih =>
    have hlt : k < (page + 1) * s0.cfg.w := by simp at h2; omega
    have ht : tagged (pageTags s0 page) k s = tagged (frameTags s0) k s := by
      unfold tagged; rw [pageTags_frameTags s0 h1 hlt]
    simp only [stream, ht]
    rcases h : writeByte b (tagged (frameTags s0) k s) with ⟨r, t⟩ | t | e
    · cases r with
      | ok => exact ih (k + 1) t (by omega) (by simp at h2; omega)
      | failed o kd => exact hno _ _ (by simp)
      | skipped => exact hno _ _ (by simp)
    · rfl
    · rfl

theorem stream_keeps (g : Tags) (k : Nat) (bs : List Byte) (s : State) :
    (stream g k bs s).Ends (fun r t => t.cfg = s.cfg ∧ t.frame = s.frame ∧ (r = .ok → tagsOf t = g (k + bs.length)))
      (fun _ => True) True := by
  induction bs generalizing k s with
  | nil => exact ⟨rfl, rfl, fun _ => rfl⟩
  | cons b bs ih =>
    unfold stream
    refine ends_andThen (writeByte_keeps b (tagged g k s)) (fun _ h => h) fun r t h => ?_
    split
    · refine ends_mono (ih (k + 1) t) (fun r u h' => ?_) (fun _ h => h)
      refine ⟨h'.1.trans h.1, h'.2.1.trans h.2.1, fun hr => ?_⟩
      rw [h'.2.2 hr, List.length_cons, show k + 1 + bs.length = k + (bs.length + 1) by omega]
    · next hne => exact ⟨h.1, h.2.1, fun hr => absurd hr (by simpa using hne)⟩

theorem emitPages_stream {src : State → Nat → Option Byte} {f : Nat → Byte} {s0 : State} (hs : Sources src f s0)
    (hlen : s0.cfg.fbLen ≤ 65535) (hw : 0 < s0.cfg.w) (n page : Nat) (s : State)
    (hend : page + n = s0.cfg.pages) (hc : s.cfg = s0.cfg) (hf : s.frame = s0.frame)
    (ht : tagsOf s = frameTags s0 (page * s0.cfg.w)) :
    emitPages src n s =
      stream (frameTags s0) (page * s0.cfg.w) ((List.range' (page * s0.cfg.w) (n * s0.cfg.w)).map f) s := by
  induction n generalizing page s with
  | zero => simp only [emitPages, Nat.zero_mul, List.range'_zero, List.map_nil, stream]; rw [tagged_of_tagsOf ht]
  | succ n ih =>
    have hle : page * s0.cfg.w + s0.cfg.w ≤ s0.cfg.fbLen := by
      unfold Params.fbLen
      calc page * s0.cfg.w + s0.cfg.w = (page + 1) * s0.cfg.w := by ring
        _ ≤ s0.cfg.pages * s0.cfg.w := Nat.mul_le_mul_right _ (by omega)
        _ = s0.cfg.w * s0.cfg.pages := Nat.mul_comm _ _
    have hpt : tagsOf s = pageTags s0 page (page * s0.cfg.w) := by
      rw [ht, pageTags_frameTags s0 (Nat.le_refl _) (by rw [Nat.add_mul]; omega)]
    have hsplit : List.range' (page * s0.cfg.w) ((n + 1) * s0.cfg.w) =
        List.range' (page * s0.cfg.w) s0.cfg.w ++ List.range' ((page + 1) * s0.cfg.w) (n * s0.cfg.w) := by
      rw [show (n + 1) * s0.cfg.w = s0.cfg.w + n * s0.cfg.w by ring, ← List.range'_append]
      simp [Nat.add_mul]
    unfold emitPages
    rw [hc, emitColumns_stream hs hlen page s0.cfg.w (page * s0.cfg.w) s (Nat.le_refl _) hle hc hf hpt, hsplit, List.map_append,
      stream_append]
    have hkeep := stream_keeps (frameTags s0) (page * s0.cfg.w) ((List.range' (page * s0.cfg.w) s0.cfg.w).map f) s
    have key : ∀ t : State, t.cfg = s0.cfg → t.frame = s0.frame → tagsOf t = frameTags s0 ((page + 1) * s0.cfg.w) →
        emitPages src n t = stream (frameTags s0) ((page + 1) * s0.cfg.w)
          ((List.range' ((page + 1) * s0.cfg.w) (n * s0.cfg.w)).map f) t := fun t h1 h2 h3 => ih (page + 1) t (by omega) h1 h2 h3
    rw [stream_page s0 page _ _ s _
      (fun r t => match r with
        | .ok => emitPages src n t
        | r => .done r t) (Nat.le_refl _) (by simp; ring)]
    · rcases h : stream (frameTags s0) (page * s0.cfg.w) ((List.range' (page * s0.cfg.w) s0.cfg.w).map f) s with ⟨r, t⟩ | t | e
      · rw [h] at hkeep
        obtain ⟨h1, h2, h3⟩ := hkeep
        cases r with
        | ok =>
          simp only [andThen_done]
          have h4 : page * s0.cfg.w + ((List.range' (page * s0.cfg.w) s0.cfg.w).map f).length = (page + 1) * s0.cfg.w := by
            simp; ring
          have h3 := h3 rfl
          rw [h4] at h3 ⊢
          exact key t (h1.trans hc) (h2.trans hf) h3
        | failed o kd => rfl
        | skipped => rfl
      · rfl
      · rfl
    · intro t
      simp only
      congr 1
      have hd : (page + 1) * s0.cfg.w / s0.cfg.w = page + 1 := Nat.mul_div_cancel _ hw
      have hm : (page + 1) * s0.cfg.w % s0.cfg.w = 0 := Nat.mul_mod_left _ _
      simp [tagged, pageTags, frameTags, hd, hm, BitVec.ofNat_add]
    · intro r t hr
      cases r with
      | ok => exact absurd rfl hr
      | failed o kd => rfl
      | skipped => rfl

/-- The whole frame loop is the stream of the source's bytes (R171, R177). -/
theorem frame_stream {src : State → Nat → Option Byte} {f : Nat → Byte} {s : State} (hs : Sources src f s)
    (hlen : s.cfg.fbLen ≤ 65535) (hw : 0 < s.cfg.w) (h0 : s.pg = 0 ∧ s.col = 0 ∧ s.cur = 0) :
    emitPages src s.cfg.pages s = stream (frameTags s) 0 ((List.range s.cfg.fbLen).map f) s := by
  have h := emitPages_stream hs hlen hw s.cfg.pages 0 s (by omega) rfl rfl (by
    simp [tagsOf, frameTags, h0.1, h0.2.1, h0.2.2])
  rw [h, Nat.zero_mul, ← List.range_eq_range', Nat.mul_comm]
  rfl

/-! ### The open -/

/-- What of a state an open leaves alone: `rest`, with what the open itself writes blotted out too. -/
def restOpen (s : State) : State := { rest s with strm := .none, initd := false, txn := .idle }

theorem restOpen_cfg {s t : State} (h : restOpen t = restOpen s) : t.cfg = s.cfg := by
  have := congrArg State.cfg h
  exact this

/-- Everything a Start can do (R134). -/
theorem sendStart_cases (s : State) :
    (∃ bus, Bus.ask s.cfg s.trace .start 0 s.bus = (.never, bus) ∧
      sendStart s = .hung { issue .start 0 s with bus := bus }) ∨
    (∃ st bus, Bus.ask s.cfg s.trace .start 0 s.bus = (.done st, bus) ∧
      sendStart s = .done (classify s.cfg .start 0#1 st)
        { complete .start 0 st { issue .start 0 s with bus := bus } with
          txn := if classify s.cfg .start 0#1 st = .ack then .started else s.txn }) := by
  unfold sendStart
  rcases busPhase_cases .start 0 s with ⟨bus, h, he⟩ | ⟨st, bus, h, he⟩
  · exact .inl ⟨bus, h, by rw [he]; rfl⟩
  · refine .inr ⟨st, bus, h, ?_⟩
    rw [he]
    simp only [andThen_done, complete_cfg, issue_cfg]
    cases classify s.cfg .start 0#1 st <;> rfl

/-- Everything an Address phase can do (R135). -/
theorem sendAddress_cases (a : BitVec 7) (d : BitVec 1) (s : State) :
    (∃ bus, Bus.ask s.cfg s.trace .address (addrByte a d) s.bus = (.never, bus) ∧
      sendAddress a d s = .hung { issue .address (addrByte a d) s with bus := bus }) ∨
    (∃ st bus, Bus.ask s.cfg s.trace .address (addrByte a d) s.bus = (.done st, bus) ∧
      sendAddress a d s = .done (classify s.cfg .address d st)
        { complete .address (addrByte a d) st { issue .address (addrByte a d) s with bus := bus } with
          txn := txnAfterAddress d }) := by
  unfold sendAddress
  rcases busPhase_cases .address (addrByte a d) s with ⟨bus, h, he⟩ | ⟨st, bus, h, he⟩
  · exact .inl ⟨bus, h, by rw [he]; rfl⟩
  · exact .inr ⟨st, bus, h, by rw [he]; rfl⟩

/-- Everything a Data phase can do (R136). -/
theorem sendByte_cases (b : Byte) (s : State) :
    (∃ bus, Bus.ask s.cfg s.trace .data b s.bus = (.never, bus) ∧
      sendByte b s = .hung { issue .data b s with bus := bus }) ∨
    (∃ st bus, Bus.ask s.cfg s.trace .data b s.bus = (.done st, bus) ∧
      sendByte b s = .done (classify s.cfg .data 0#1 st) (complete .data b st { issue .data b s with bus := bus })) := by
  unfold sendByte
  rcases busPhase_cases .data b s with ⟨bus, h, he⟩ | ⟨st, bus, h, he⟩
  · exact .inl ⟨bus, h, by rw [he]; rfl⟩
  · exact .inr ⟨st, bus, h, by rw [he]; rfl⟩

theorem ask_kind_of {p : Params} {tr : List Event} {k : PhaseKind} {b : Byte} {bus bus' : Bus} {a : Answer}
    (h : Bus.ask p tr k b bus = (a, bus')) : bus'.kind = bus.kind := by
  have := ask_kind p tr k b bus
  rw [h] at this
  exact this

@[simp] theorem unlessFailed_ack (kind : PhaseKind) (s : State) (next : State → Ran StreamResult) :
    unlessFailed .ack kind s next = next s := rfl

/-- Of a failed phase, ABRT is set and nothing else happens. -/
theorem unlessFailed_failed {o : PhaseOutcome} (kind : PhaseKind) (s : State) (next : State → Ran StreamResult)
    (h : o ≠ .ack) : unlessFailed o kind s next = .done (.failed o kind) { s with abrt := true } := by
  cases o with
  | ack => exact absurd rfl h
  | nack => rfl
  | unexpected => rfl

theorem dirBit_addrByte (a : BitVec 7) (d : BitVec 1) : dirBit (addrByte a d) = d := by
  unfold dirBit addrByte
  exact BitVec.extractLsb'_append_eq_right

/-- What an open can end in, and what it can hang in. -/
theorem begin_spec (cb : Byte) (mode : Strm) (s : State) :
    (beginStream cb mode s).Ends
      (fun r t => ∃ es, t.trace = s.trace ++ es ∧ follows s.cfg (wirePlan s.cfg cb []) es = true ∧
        resOfStream r = firstFailure s.cfg es ∧ r ≠ .skipped ∧ (r = .ok ↔ firstFailure s.cfg es = 0) ∧
        (t.abrt = true ↔ r ≠ .ok) ∧ t.strm = mode ∧ t.initd = false ∧ tagsOf t = tagsOf s ∧ restOpen t = restOpen s ∧
        t.pend = none ∧ (r = .ok → t.ctrl = 0x84 ∧ t.txn = .addrW) ∧ (t.ctrl = 0x84 ∨ t.ctrl = 0xA4) ∧
        (t.txn = .addrW ∨ t.txn = s.txn) ∧ (s.txn = .idle → replay s.cfg .idle es = some t.txn))
      (fun t => ∃ es, t.trace = s.trace ++ es ∧ ackedSoFar s.cfg (wirePlan s.cfg cb []) es = true ∧
        t.abrt = false ∧ t.strm = mode ∧ t.initd = false ∧ tagsOf t = tagsOf s ∧ restOpen t = restOpen s ∧
        (∃ k, t.pend = some k ∧ t.ctrl = issueCtrl k) ∧ (s.txn = .idle → replay s.cfg .idle es = some t.txn))
      False := by
  unfold beginStream
  rcases sendStart_cases (openStream mode s) with ⟨b1, h1, e1⟩ | ⟨st1, b1, h1, e1⟩ <;> rw [e1] <;>
    (have k1 := ask_kind_of h1; simp only [openStream_bus] at k1)
  · exact ⟨[], by simp, rfl, rfl, rfl, rfl, rfl, by simp [restOpen, rest, issue, openStream, k1],
      ⟨.start, by simp, by simp⟩, fun h => by simp [replay, h]⟩
  obtain ⟨s1, hs1⟩ : ∃ x : State, x = { complete .start 0 st1 { issue .start 0 (openStream mode s) with bus := b1 } with
      txn := if classify (openStream mode s).cfg .start 0#1 st1 = .ack then .started else (openStream mode s).txn } := ⟨_, rfl⟩
  have q1 : s1.trace = s.trace ++ [.s st1] ∧ s1.cfg = s.cfg ∧ s1.abrt = false ∧ s1.strm = mode ∧ s1.initd = false ∧
      tagsOf s1 = tagsOf s ∧ restOpen s1 = restOpen s ∧ s1.txn = (if classify s.cfg .start 0#1 st1 = .ack then .started else s.txn) ∧
      s1.pend = none ∧ s1.ctrl = 0xA4 := by
    subst hs1
    exact ⟨by simp [eventOf], rfl, rfl, rfl, rfl, rfl, by simp [restOpen, rest, complete, issue, openStream, k1], rfl, rfl,
      issueCtrl_start_complete⟩
  rw [← hs1]
  clear hs1 e1 h1 k1 b1
  simp only [andThen_done, openStream_cfg]
  obtain ⟨t1, f1, a1, m1, i1, g1, w1, x1, p1, r1⟩ := q1
  by_cases c1 : classify s.cfg .start 0#1 st1 = .ack
  swap
  · have o1 : eventOutcome s.cfg (.s st1) ≠ .ack := c1
    have n1 : eventRes s.cfg (.s st1) ≠ 0 := eventRes_ne_zero o1
    rw [unlessFailed_failed _ _ _ c1]
    refine ⟨[.s st1], t1, by simp [follows, wirePlan, plannedOf, o1], by simp [firstFailure, o1, resOfStream, eventRes],
      by simp, ⟨fun h => by simp at h, fun h => ?_⟩, by simp, m1, i1, g1, ?_, p1, fun h => by simp at h, .inr r1, .inr ?_,
      fun h => ?_⟩
    · simp only [firstFailure, o1, if_false] at h; exact absurd h n1
    · rw [← w1]; rfl
    · simp [x1, c1]
    · simp [replay, traceStep, c1, h, x1]
  have o1 : eventOutcome s.cfg (.s st1) = .ack := c1
  rw [c1]
  rw [if_pos c1] at x1
  simp only [unlessFailed_ack]
  rw [f1]
  rcases sendAddress_cases s.cfg.dispAddr 0#1 s1 with ⟨b2, h2, e2⟩ | ⟨st2, b2, h2, e2⟩ <;> rw [e2] <;> have k2 := ask_kind_of h2
  · refine ⟨[.s st1], by simp [t1], by simp [ackedSoFar, wirePlan, plannedOf, o1], a1, m1, i1, g1, ?_,
      ⟨.address, rfl, rfl⟩, fun h => by simp [replay, traceStep, c1, x1]⟩
    rw [← w1]; simp [restOpen, rest, issue, k2]
  simp only [andThen_done, f1]
  have hd : dirBit (addrByte s.cfg.dispAddr 0#1) = 0#1 := dirBit_addrByte _ _
  by_cases c2 : classify s.cfg .address 0#1 st2 = .ack
  swap
  · have o2 : eventOutcome s.cfg (.a (addrByte s.cfg.dispAddr 0#1) st2) ≠ .ack := by rw [eventOutcome, hd]; exact c2
    have r2 : eventRes s.cfg (.a (addrByte s.cfg.dispAddr 0#1) st2) ≠ 0 := eventRes_ne_zero o2
    rw [unlessFailed_failed _ _ _ c2]
    refine ⟨[.s st1, .a (addrByte s.cfg.dispAddr 0#1) st2], by simp [t1, eventOf], by simp [follows, wirePlan, plannedOf, o1, o2],
      ?_, by simp, ⟨fun h => by simp at h, fun h => ?_⟩, by simp, m1, i1, g1, ?_, rfl, fun h => by simp at h, .inl ?_, .inl ?_,
      fun h => ?_⟩
    · simp only [firstFailure, o1, o2, if_true, if_false, resOfStream, eventRes, hd]
    · simp only [firstFailure, o1, o2, if_true, if_false] at h; exact absurd h r2
    · rw [← w1]; simp [restOpen, rest, complete, issue, k2]
    · exact issueCtrl_address_complete
    · simp [txnAfterAddress]
    · simp [replay, traceStep, c1, hd]
  have o2 : eventOutcome s.cfg (.a (addrByte s.cfg.dispAddr 0#1) st2) = .ack := by rw [eventOutcome, hd]; exact c2
  obtain ⟨s2, hs2⟩ : ∃ x : State, x = { complete .address (addrByte s.cfg.dispAddr 0#1) st2
      { issue .address (addrByte s.cfg.dispAddr 0#1) s1 with bus := b2 } with txn := txnAfterAddress 0#1 } := ⟨_, rfl⟩
  have q2 : s2.trace = s.trace ++ [.s st1, .a (addrByte s.cfg.dispAddr 0#1) st2] ∧ s2.cfg = s.cfg ∧ s2.abrt = false ∧
      s2.strm = mode ∧ s2.initd = false ∧ tagsOf s2 = tagsOf s ∧ restOpen s2 = restOpen s ∧ s2.txn = .addrW := by
    subst hs2
    refine ⟨by simp [t1, eventOf], f1, a1, m1, i1, g1, ?_, rfl⟩
    rw [← w1]; simp [restOpen, rest, complete, issue, k2]
  rw [← hs2, c2]
  simp only [unlessFailed_ack]
  clear hs2 e2 h2 k2 b2 t1 f1 a1 m1 i1 g1 w1 x1
  obtain ⟨t2, f2, a2, m2, i2, g2, w2, x2⟩ := q2
  rcases sendByte_cases cb s2 with ⟨b3, h3, e3⟩ | ⟨st3, b3, h3, e3⟩ <;> rw [e3] <;> have k3 := ask_kind_of h3
  · refine ⟨[.s st1, .a (addrByte s.cfg.dispAddr 0#1) st2], by simp [t2], by simp [ackedSoFar, wirePlan, plannedOf, o1, o2], a2,
      m2, i2, g2, ?_, ⟨.data, rfl, rfl⟩, fun h => by simp [replay, traceStep, c1, hd, x2, txnAfterAddress]⟩
    rw [← w2]; simp [restOpen, rest, issue, k3]
  simp only [andThen_done, f2]
  by_cases c3 : classify s.cfg .data 0#1 st3 = .ack
  · have o3 : eventOutcome s.cfg (.d cb st3) = .ack := c3
    rw [c3]
    simp only [unlessFailed_ack]
    refine ⟨[.s st1, .a (addrByte s.cfg.dispAddr 0#1) st2, .d cb st3], by simp [t2, eventOf],
      by simp [follows, wirePlan, plannedOf, o1, o2, o3], by simp [firstFailure, o1, o2, o3, resOfStream], by simp,
      by simp [firstFailure, o1, o2, o3], by simp [a2], m2, i2, g2, ?_, rfl, fun _ => ⟨issueCtrl_data_complete, x2⟩,
      .inl issueCtrl_data_complete, .inl x2, fun h => by simp [replay, traceStep, c1, hd, x2, txnAfterAddress]⟩
    rw [← w2]; simp [restOpen, rest, complete, issue, k3]
  · have o3 : eventOutcome s.cfg (.d cb st3) ≠ .ack := c3
    have r3 : eventRes s.cfg (.d cb st3) ≠ 0 := eventRes_ne_zero o3
    rw [unlessFailed_failed _ _ _ c3]
    refine ⟨[.s st1, .a (addrByte s.cfg.dispAddr 0#1) st2, .d cb st3], by simp [t2, eventOf],
      by simp [follows, wirePlan, plannedOf, o1, o2, o3], by simp [firstFailure, o1, o2, o3, resOfStream, eventRes], by simp,
      ⟨fun h => by simp at h, fun h => ?_⟩, by simp, m2, i2, g2, ?_, rfl, fun h => by simp at h,
      .inl issueCtrl_data_complete, .inl x2, fun h => by simp [replay, traceStep, c1, hd, x2, txnAfterAddress]⟩
    · simp only [firstFailure, o1, o2, o3, if_true, if_false] at h; exact absurd h r3
    · rw [← w2]; simp [restOpen, rest, complete, issue, k3]

end Sys2Proof.Machine
end

