-- ==== Sys2Proof/Laws/Transact.lean ====
section
/-! SUPPORT. Laws/Transact.lean: a whole session transaction, open, stream, Stop, is one shape; one lemma says everything it
can do, and INIT's and the frame commands' bodies are two uses of it. -/

namespace Sys2Proof.Machine

/-! ### Replay -/

theorem replay_append {p : Params} {t u : Txn} {es : List Event} (es' : List Event) (h : replay p t es = some u) :
    replay p t (es ++ es') = replay p u es' := by
  induction es generalizing t with
  | nil => cases h; rfl
  | cons e es ih =>
    simp only [List.cons_append, replay] at h ⊢
    cases hs : traceStep p t e with
    | none => simp [hs] at h
    | some v => simp only [hs] at h ⊢; exact ih h

/-- A Stop is allowed wherever the tracker is, and leaves it Idle (R26, R142). -/
theorem replay_stop (p : Params) (t : Txn) : replay p t [.p] = some .idle := by cases t <;> rfl

/-- The Data phases of a stream leave the tracker in AddrW (R26). -/
theorem replay_follows {p : Params} {bs : List Byte} {es : List Event} (h : follows p (bs.map fun b => (.data, b)) es = true) :
    replay p .addrW es = some .addrW := by
  induction bs generalizing es with
  | nil =>
    cases es with
    | nil => rfl
    | cons e es => simp [follows] at h
  | cons b bs ih =>
    cases es with
    | nil => simp [follows] at h
    | cons e es =>
      simp only [List.map_cons, follows, Bool.and_eq_true, decide_eq_true_eq] at h
      cases e with
      | d c st =>
        by_cases ho : eventOutcome p (.d c st) = .ack
        · simp only [ho, if_true] at h; exact (ih h.2 :)
        · simp only [ho, if_false, decide_eq_true_eq] at h; rw [h.2]; rfl
      | s st => simp [plannedOf] at h
      | a c st => simp [plannedOf] at h
      | p => simp [plannedOf] at h

/-- The same of a stream that hangs. -/
theorem replay_acked {p : Params} {bs : List Byte} {es : List Event} (h : ackedSoFar p (bs.map fun b => (.data, b)) es = true) :
    replay p .addrW es = some .addrW := by
  induction bs generalizing es with
  | nil => simp [ackedSoFar] at h
  | cons b bs ih =>
    cases es with
    | nil => rfl
    | cons e es =>
      simp only [List.map_cons, ackedSoFar, Bool.and_eq_true, decide_eq_true_eq] at h
      cases e with
      | d c st => exact (ih h.2 :)
      | s st => simp [plannedOf] at h
      | a c st => simp [plannedOf] at h
      | p => simp [plannedOf] at h

/-- A plan cut short by a failure has fewer Acknowledged phases than it plans. -/
theorem ackCount_of_failed {p : Params} {plan : List Planned} {es : List Event} (h : follows p plan es = true)
    (h0 : firstFailure p es ≠ 0) : ackCount p es < plan.length := by
  induction plan generalizing es with
  | nil =>
    cases es with
    | nil => exact absurd rfl h0
    | cons e es => simp [follows] at h
  | cons x plan ih =>
    cases es with
    | nil => simp [follows] at h
    | cons e es =>
      by_cases ho : eventOutcome p e = .ack
      · simp only [follows, ho, if_true, Bool.and_eq_true, firstFailure] at h h0
        have := ih h.2 h0
        simp only [ackCount, ho, if_true, List.length_cons]
        omega
      · simp only [follows, ho, if_false, Bool.and_eq_true, decide_eq_true_eq] at h
        simp [h.2, ackCount, ho]

/-- A plan that hangs has a phase left. -/
theorem acked_length {p : Params} {plan : List Planned} {es : List Event} (h : ackedSoFar p plan es = true) :
    es.length < plan.length := by
  induction plan generalizing es with
  | nil => simp [ackedSoFar] at h
  | cons x plan ih =>
    cases es with
    | nil => simp
    | cons e es =>
      simp only [ackedSoFar, Bool.and_eq_true] at h
      simpa using ih h.2

/-! ### The fields of `rest` -/

theorem rest_sess {s t : State} (h : rest t = rest s) : t.sess = s.sess := by
  have := congrArg State.sess h
  exact this

theorem rest_txn {s t : State} (h : rest t = rest s) : t.txn = s.txn := by
  have := congrArg State.txn h
  exact this

theorem rest_strm {s t : State} (h : rest t = rest s) : t.strm = s.strm := by
  have := congrArg State.strm h
  exact this

theorem rest_initd {s t : State} (h : rest t = rest s) : t.initd = s.initd := by
  have := congrArg State.initd h
  exact this

theorem restOpen_sess {s t : State} (h : restOpen t = restOpen s) : t.sess = s.sess := by
  have := congrArg State.sess h
  exact this

theorem restOpen_frame {s t : State} (h : restOpen t = restOpen s) : t.frame = s.frame := by
  have := congrArg State.frame h
  exact this

/-! ### The transaction -/

/-- PG, COL and CUR of a state. -/
def countersOf (s : State) : Word × Word × Word := (s.pg, s.col, s.cur)

theorem wirePlan_append (p : Params) (cb : Byte) (bs : List Byte) :
    wirePlan p cb bs = wirePlan p cb [] ++ bs.map fun b => (.data, b) := rfl

/-- Open; if that succeeded, `write`; then always the end (R158, R171). -/
def transact (cb : Byte) (mode : Strm) (write : State → Ran StreamResult) (s : State) : Ran Byte :=
  (beginStream cb mode s).andThen fun r t =>
    match r with
    | .ok => (write t).andThen fun r2 u => .done (resOfStream r2) (endStream u)
    | r => .done (resOfStream r) (endStream t)

theorem initSequence_transact (s : State) : initSequence s = transact Config.cbCmd .cmd writeTable (sessForCommands s) := rfl

theorem emitFrame_transact (src : State → Nat → Option Byte) (s : State) :
    emitFrame src s = transact Config.cbData .data (fun t => emitPages src t.cfg.pages t) (beginFrame s) := rfl

/-- What a write leaves of the hidden index and of INITD after its stream (R156). -/
def afterStream (idx : Word → Word) (full : Bool) (r : StreamResult) (t : State) : Ran StreamResult :=
  .done r { t with tix := idx t.tix, initd := decide (r = .ok) && full }

/-- Everything a transaction can do: what it puts on the wire, what it reports, and what it leaves. -/
theorem transact_spec (cb : Byte) (mode : Strm) (write : State → Ran StreamResult) (g : State → Tags) (bs : List Byte)
    (idx : Word → Word) (full : Bool) (T T' : Word → Prop) (s : State)
    (hw : ∀ t, t.cfg = s.cfg → t.frame = s.frame → tagsOf t = tagsOf s → t.abrt = false → t.initd = false →
      write t = (stream (g s) 0 bs t).andThen (afterStream idx full))
    (hg : ∀ k, T' (g s k).2.2.2 ∧ T (idx (g s k).2.2.2)) (hT : T s.tix ∧ T' s.tix)
    (h0 : ((g s 0).1, (g s 0).2.1, (g s 0).2.2.1) = countersOf s) :
    (transact cb mode write s).Ends
      (fun r u => ∃ es, u.trace = s.trace ++ es ++ [.p] ∧ follows s.cfg (wirePlan s.cfg cb bs) es = true ∧
        r = firstFailure s.cfg es ∧ u.sess = sessAfterEnd s.sess (decide (firstFailure s.cfg es = 0) && full) ∧
        u.strm = .none ∧ u.abrt = false ∧ u.initd = false ∧ u.txn = .idle ∧ u.ctrl = 0x14 ∧ u.pend = none ∧
        (countersOf u = ((g s (ackCount s.cfg es - 3)).1, (g s (ackCount s.cfg es - 3)).2.1,
          (g s (ackCount s.cfg es - 3)).2.2.1)) ∧ T u.tix ∧
        restOpen { u with sess := s.sess } = restOpen s ∧
        (s.txn = .idle → replay s.cfg .idle (es ++ [.p]) = some .idle))
      (fun t => ∃ es, t.trace = s.trace ++ es ∧ ackedSoFar s.cfg (wirePlan s.cfg cb bs) es = true ∧
        t.abrt = false ∧ t.strm = mode ∧ t.initd = false ∧ T' t.tix ∧ restOpen t = restOpen s ∧
        (countersOf t = ((g s (es.length - 3)).1, (g s (es.length - 3)).2.1, (g s (es.length - 3)).2.2.1)) ∧
        (∃ k, t.pend = some k ∧ t.ctrl = issueCtrl k) ∧ (s.txn = .idle → replay s.cfg .idle es = some t.txn))
      False := by
  unfold transact
  have hb := begin_spec cb mode s
  rcases hbe : beginStream cb mode s with ⟨r, t⟩ | t | e <;> rw [hbe] at hb
  · obtain ⟨es, ht, hf, hr, hsk, hok, hab, hm, hi, htg, hro, hp, hokc, hc, hx, hrp⟩ := hb
    have hcfg : t.cfg = s.cfg := restOpen_cfg hro
    by_cases hrok : r = .ok
    · subst hrok
      have hff : firstFailure s.cfg es = 0 := hok.1 rfl
      have hta : t.abrt = false := by simpa using hab
      have hlen := ackCount_of_follows hf hff
      have hl3 : ackCount s.cfg es = 3 ∧ es.length = 3 := hlen
      have hfr : t.frame = s.frame := restOpen_frame hro
      simp only [andThen_done]
      rw [hw t hcfg hfr htg hta hi]
      have hs := stream_spec (g s) 0 bs t hta
      rcases hse : stream (g s) 0 bs t with ⟨r2, u⟩ | u | e <;> rw [hse] at hs
      · obtain ⟨es2, ht2, hf2, hr2, hsk2, hok2, hab2, htg2, hre2, hp2, hc2⟩ := hs
        rw [hcfg] at hf2 hr2 hok2 htg2
        have hut : u.txn = .addrW := (rest_txn hre2).trans (hokc rfl).2
        have hus : u.sess = s.sess := (rest_sess hre2).trans (restOpen_sess hro)
        refine ⟨es ++ es2, ?_, ?_, ?_, ?_, rfl, rfl, rfl, rfl, rfl, hp2 hp, ?_, ?_, ?_, fun h => ?_⟩
        · simp [endStream, ht2, ht]
        · rw [wirePlan_append]; exact follows_append hf hff hf2
        · rw [firstFailure_append hff]; exact hr2
        · rw [firstFailure_append hff]
          simp only [endStream, hus]
          congr 2
          exact decide_eq_decide.2 hok2
        · rw [ackCount_append, hl3.1, Nat.add_sub_cancel_left]
          rw [Nat.zero_add] at htg2
          rw [← htg2]; rfl
        · have h3 : u.tix = (g s (0 + ackCount s.cfg es2)).2.2.2 := congrArg (fun x => x.2.2.2) htg2
          simp only [endStream, sendStop, h3]
          exact (hg _).2
        · have hro2 : restOpen u = restOpen s := by
            unfold restOpen; rw [hre2]; exact hro
          rw [← hro2]
          simp [restOpen, rest, endStream, hus, Bus.stop]
        · have h1 := hrp h
          rw [(hokc rfl).2] at h1
          rw [List.append_assoc, replay_append _ h1, replay_append _ (replay_follows hf2)]
          exact replay_stop _ _
      · obtain ⟨es2, ht2, ha2, hab2, htg2, hre2, hp2, hc2⟩ := hs
        rw [hcfg] at ha2
        have hut : u.txn = .addrW := (rest_txn hre2).trans (hokc rfl).2
        have hro2 : restOpen u = restOpen s := by unfold restOpen; rw [hre2]; exact hro
        refine ⟨es ++ es2, by rw [ht2, ht, List.append_assoc], ?_, hab2, (rest_strm hre2).trans hm,
          (rest_initd hre2).trans hi, ?_, hro2, ?_, ⟨.data, hp2, hc2⟩, fun h => ?_⟩
        · rw [wirePlan_append]; exact acked_append hf hff ha2
        · have h3 : u.tix = (g s (0 + es2.length)).2.2.2 := congrArg (fun x => x.2.2.2) htg2
          rw [h3]; exact (hg _).1
        · rw [List.length_append, hl3.2, Nat.add_sub_cancel_left]
          rw [Nat.zero_add] at htg2
          rw [← htg2]; rfl
        · have h1 := hrp h
          rw [(hokc rfl).2] at h1
          rw [replay_append _ h1, replay_acked ha2, hut]
      · exact hs
    · have hff : firstFailure s.cfg es ≠ 0 := fun h => hrok (hok.2 h)
      have hack : ackCount s.cfg es ≤ 3 := Nat.le_of_lt (ackCount_of_failed hf hff)
      simp only [andThen_done]
      refine ⟨es, ?_, ?_, hr, ?_, rfl, rfl, rfl, rfl, rfl, hp, ?_, ?_, ?_, fun h => ?_⟩
      · simp [endStream, ht]
      · rw [wirePlan_append]; exact follows_failed _ hf hff
      · simp only [hff, decide_false, Bool.false_and, endStream, hi]
        rw [show t.sess = s.sess from restOpen_sess hro]
      · rw [Nat.sub_eq_zero_of_le hack, h0]
        exact congrArg (fun x => (x.1, x.2.1, x.2.2.1)) htg
      · have h3 : t.tix = s.tix := congrArg (fun x => x.2.2.2) htg
        simp only [endStream, sendStop, h3]
        exact hT.1
      · rw [← hro]
        simp [restOpen, rest, endStream, restOpen_sess hro, Bus.stop]
      · rw [replay_append _ (hrp h)]
        exact replay_stop _ _
  · obtain ⟨es, ht, ha, hab, hm, hi, htg, hro, hk, hrp⟩ := hb
    refine ⟨es, ht, ?_, hab, hm, hi, ?_, hro, ?_, hk, hrp⟩
    · rw [wirePlan_append]; exact acked_longer _ ha
    · have h3 : t.tix = s.tix := congrArg (fun x => x.2.2.2) htg
      rw [h3]; exact hT.2
    · have : es.length ≤ 3 := Nat.le_of_lt (acked_length ha)
      rw [Nat.sub_eq_zero_of_le this, h0]
      exact congrArg (fun x => (x.1, x.2.1, x.2.2.1)) htg
  · exact hb

/-- A stream that starts with INITD = 0 ends with it. -/
theorem stream_initd (g : Tags) (k : Nat) (bs : List Byte) (s : State) (ha : s.abrt = false) (hi : s.initd = false)
    (f f' : StreamResult → State → Ran StreamResult) (h : ∀ r t, t.initd = false → f r t = f' r t) :
    (stream g k bs s).andThen f = (stream g k bs s).andThen f' := by
  have hs := stream_spec g k bs s ha
  rcases hse : stream g k bs s with ⟨r, u⟩ | u | e <;> rw [hse] at hs
  · obtain ⟨es, -, -, -, -, -, -, -, hre, -⟩ := hs
    exact h r u ((rest_initd hre).trans hi)
  · rfl
  · rfl

/-- WSTRT's write inside INIT, in the shape of `transact_spec`. -/
theorem writeTable_shape (s t : State) (hc : t.cfg = s.cfg) (ht : tagsOf t = tagsOf s) (ha : t.abrt = false)
    (hi : t.initd = false) :
    writeTable t = (stream (tableTags s) 0 s.cfg.initTable t).andThen (afterStream (fun _ => 0) true) := by
  have hg : tableTags t = tableTags s := by
    have h1 : t.pg = s.pg := congrArg (fun x => x.1) ht
    have h2 : t.col = s.col := congrArg (fun x => x.2.1) ht
    have h3 : t.cur = s.cur := congrArg (fun x => x.2.2.1) ht
    unfold tableTags; rw [h1, h2, h3]
  rw [writeTable_stream t ha, hg, hc]
  refine stream_initd _ _ _ _ ha hi _ _ fun r u hu => ?_
  cases r <;> simp [tableEnd, afterStream, hu]

/-- Everything INIT's body can do (R158). -/
theorem init_spec (s : State) :
    (initSequence s).Ends
      (fun r u => ∃ es, u.trace = s.trace ++ es ++ [.p] ∧
        follows s.cfg (wirePlan s.cfg Config.cbCmd s.cfg.initTable) es = true ∧
        r = firstFailure s.cfg es ∧
        u.sess = sessAfterEnd (sessForCommands s).sess (decide (firstFailure s.cfg es = 0)) ∧
        u.strm = .none ∧ u.abrt = false ∧ u.initd = false ∧ u.txn = .idle ∧ u.ctrl = 0x14 ∧ u.pend = none ∧
        countersOf u = countersOf s ∧ (s.tix = 0 → u.tix = 0) ∧
        restOpen { u with sess := s.sess } = restOpen s ∧
        (s.txn = .idle → replay s.cfg .idle (es ++ [.p]) = some .idle))
      (fun t => ∃ es, t.trace = s.trace ++ es ∧
        ackedSoFar s.cfg (wirePlan s.cfg Config.cbCmd s.cfg.initTable) es = true ∧
        t.abrt = false ∧ t.strm = .cmd ∧ t.initd = false ∧ restOpen t = restOpen (sessForCommands s) ∧
        countersOf t = countersOf s ∧
        (∃ k, t.pend = some k ∧ t.ctrl = issueCtrl k) ∧ (s.txn = .idle → replay s.cfg .idle es = some t.txn))
      False := by
  rw [initSequence_transact]
  have h := transact_spec Config.cbCmd .cmd writeTable tableTags s.cfg.initTable (fun _ => 0) true
    (fun x => s.tix = 0 → x = 0) (fun _ => True) (sessForCommands s)
    (fun t hc _ ht ha hi => writeTable_shape (sessForCommands s) t hc ht ha hi) (fun _ => ⟨trivial, fun _ => rfl⟩)
    ⟨id, trivial⟩ rfl
  refine ends_mono h ?_ ?_
  · rintro r u ⟨es, h1, h2, h3, h4, h5, h6, h7, h8, h9, h10, h11, h12, h13, h14⟩
    refine ⟨es, h1, h2, h3, ?_, h5, h6, h7, h8, h9, h10, h11, ?_, ?_, h14⟩
    · rw [Bool.and_true] at h4; exact h4
    · exact h12
    · rw [show restOpen s = restOpen { sessForCommands s with sess := s.sess } from rfl]
      exact congrArg (fun x : State => { x with sess := s.sess }) h13
  · rintro t ⟨es, h1, h2, h3, h4, h5, -, h7, h8, h9, h10⟩
    exact ⟨es, h1, h2, h3, h4, h5, h7, h8, h9, h10⟩

/-- The frame loop inside a frame command, in the shape of `transact_spec`. -/
theorem emitPages_shape {src : State → Nat → Option Byte} {f : Nat → Byte} (s t : State) (hs : Sources src f s)
    (hlen : s.cfg.fbLen ≤ 65535) (hw : 0 < s.cfg.w) (h0 : s.pg = 0 ∧ s.col = 0 ∧ s.cur = 0)
    (hc : t.cfg = s.cfg) (hf : t.frame = s.frame) (ht : tagsOf t = tagsOf s) (ha : t.abrt = false) (hi : t.initd = false) :
    emitPages src t.cfg.pages t =
      (stream (frameTags s) 0 ((List.range s.cfg.fbLen).map f) t).andThen (afterStream id false) := by
  have h1 : t.pg = s.pg := congrArg (fun x => x.1) ht
  have h2 : t.col = s.col := congrArg (fun x => x.2.1) ht
  have h3 : t.cur = s.cur := congrArg (fun x => x.2.2.1) ht
  have h4 : t.tix = s.tix := congrArg (fun x => x.2.2.2) ht
  have hg : frameTags t = frameTags s := by unfold frameTags; rw [hc, h4]
  have hst : Sources src f t := fun u hu1 hu2 k hk => hs u (hu1.trans hc) (hu2.trans hf) k (by rwa [← hc])
  rw [frame_stream hst (by rw [hc]; exact hlen) (by rw [hc]; exact hw) (by rw [h1, h2, h3]; exact h0), hg, hc]
  have key := stream_initd (frameTags s) 0 ((List.range s.cfg.fbLen).map f) t ha hi (fun r u => .done r u)
    (afterStream id false) fun r u hu => by
      simp only [afterStream, id, Bool.and_false]
      rw [← hu]
  rw [← key]
  cases stream (frameTags s) 0 ((List.range s.cfg.fbLen).map f) t <;> rfl

/-- Everything a frame command's body can do (R171). -/
theorem frame_spec {src : State → Nat → Option Byte} {f : Nat → Byte} (s : State) (hs : Sources src f s)
    (hlen : s.cfg.fbLen ≤ 65535) (hw : 0 < s.cfg.w) :
    (emitFrame src s).Ends
      (fun r u => ∃ es, u.trace = s.trace ++ es ++ [.p] ∧
        follows s.cfg (wirePlan s.cfg Config.cbData ((List.range s.cfg.fbLen).map f)) es = true ∧
        r = firstFailure s.cfg es ∧ u.sess = .onCommand ∧
        u.strm = .none ∧ u.abrt = false ∧ u.initd = false ∧ u.txn = .idle ∧ u.ctrl = 0x14 ∧ u.pend = none ∧
        countersOf u = (BitVec.ofNat 16 ((ackCount s.cfg es - 3) / s.cfg.w), BitVec.ofNat 16 ((ackCount s.cfg es - 3) % s.cfg.w),
          BitVec.ofNat 16 (ackCount s.cfg es - 3)) ∧ u.tix = s.tix ∧
        restOpen { u with sess := s.sess } = restOpen s ∧
        (s.txn = .idle → replay s.cfg .idle (es ++ [.p]) = some .idle))
      (fun t => ∃ es, t.trace = s.trace ++ es ∧
        ackedSoFar s.cfg (wirePlan s.cfg Config.cbData ((List.range s.cfg.fbLen).map f)) es = true ∧
        t.abrt = false ∧ t.strm = .data ∧ t.initd = false ∧ t.tix = s.tix ∧ t.sess = .onData ∧
        restOpen { t with sess := s.sess } = restOpen s ∧
        countersOf t = (BitVec.ofNat 16 ((es.length - 3) / s.cfg.w), BitVec.ofNat 16 ((es.length - 3) % s.cfg.w),
          BitVec.ofNat 16 (es.length - 3)) ∧
        (∃ k, t.pend = some k ∧ t.ctrl = issueCtrl k) ∧ (s.txn = .idle → replay s.cfg .idle es = some t.txn))
      False := by
  rw [emitFrame_transact]
  have h := transact_spec Config.cbData .data (fun t => emitPages src t.cfg.pages t) frameTags ((List.range s.cfg.fbLen).map f)
    id false (fun x => x = s.tix) (fun x => x = s.tix) (beginFrame s)
    (fun t hc hf ht ha hi => emitPages_shape (beginFrame s) t hs hlen hw ⟨rfl, rfl, rfl⟩ hc hf ht ha hi)
    (fun _ => ⟨rfl, rfl⟩) ⟨rfl, rfl⟩ (by simp [frameTags, countersOf, beginFrame])
  refine ends_mono h ?_ ?_
  · rintro r u ⟨es, h1, h2, h3, h4, h5, h6, h7, h8, h9, h10, h11, h12, h13, h14⟩
    refine ⟨es, h1, h2, h3, ?_, h5, h6, h7, h8, h9, h10, h11, h12, ?_, h14⟩
    · simpa [beginFrame, sessAfterEnd] using h4
    · exact congrArg (fun x : State => { x with sess := s.sess }) h13
  · rintro t ⟨es, h1, h2, h3, h4, h5, h6, h7, h8, h9, h10⟩
    refine ⟨es, h1, h2, h3, h4, h5, h6, restOpen_sess h7, ?_, h8, h9, h10⟩
    exact congrArg (fun x : State => { x with sess := s.sess }) h7

end Sys2Proof.Machine
end

