-- ==== Sys2Proof/Laws/Checks.lean ====
section
/-! SUPPORT. Laws/Checks.lean: small facts the statements rest on: what a passed check says, what a legal configuration gives,
the codec's parts, the display simulator's ranges, and the values CTRL and RES take. -/

namespace Sys2Proof

/-! ### The codec (R100) -/

theorem opOf_append (op arg : Byte) : opOf (op ++ arg) = op := BitVec.extractLsb'_append_eq_left

theorem argOf_append (op arg : Byte) : argOf (op ++ arg) = arg := BitVec.extractLsb'_append_eq_right

@[simp] theorem opOf_encode (i : Instr) : opOf (encode i) = i.opcode := opOf_append _ _

@[simp] theorem argOf_encode (i : Instr) : argOf (encode i) = i.argument := argOf_append _ _

/-- A word is its opcode byte and its argument byte. -/
theorem opOf_append_argOf (w : Word) : (opOf w ++ argOf w : Word) = w :=
  (BitVec.extractLsb'_append_extractLsb'_eq_extractLsb' (by omega)).trans (by simp)

theorem addr7Of_eq (w : Word) : addr7Of w = (argOf w).extractLsb' 1 7 := by
  unfold addr7Of argOf; ext i hi; simp

theorem dirOf_eq (w : Word) : dirOf w = (argOf w).extractLsb' 0 1 := by
  unfold dirOf argOf; ext i hi; simp

/-! ### Legal configurations (R7, R9, R10) -/

theorem wf_geometry {p : Params} (h : p.wf = true) : 1 ≤ p.w ∧ 8 ≤ p.h ∧ p.h % 8 = 0 ∧ p.fbLen ≤ 65535 := by
  simp only [Params.wf, Params.geometryOk, Bool.and_eq_true, decide_eq_true_eq] at h
  exact ⟨h.1.1.1.1.1, h.1.1.1.1.2, h.1.1.1.2, h.1.1.2⟩

theorem wf_pages {p : Params} (h : p.wf = true) : 1 ≤ p.pages := by
  have := wf_geometry h
  unfold Params.pages
  omega

theorem wf_table {p : Params} (h : p.wf = true) : 1 ≤ p.initLen ∧ p.initLen ≤ 65535 := by
  simp only [Params.wf, Params.tableOk, Bool.and_eq_true, decide_eq_true_eq] at h
  exact h.2

/-- Each code is itself under the mask (R9). -/
theorem wf_masked {p : Params} (h : p.wf = true) {c : Byte} (hc : c ∈ p.codes) : c &&& p.stMask = c := by
  simp only [Params.wf, Params.codesOk, Bool.and_eq_true, List.all_eq_true, decide_eq_true_eq] at h
  exact h.1.2.2 c hc

namespace Machine

/-! ### Passed checks (R197) -/

theorem passed_enabled {s : State} {l : List (Option Misuse)} (h : firstOf (needEnabled s :: l) = none) :
    ctrlEn s.ctrl = true ∧ firstOf l = none := by
  unfold needEnabled at h
  cases hc : ctrlEn s.ctrl <;> simp_all

theorem passed_noStream {s : State} {l : List (Option Misuse)} (h : firstOf (needNoStream s :: l) = none) :
    s.strm = .none ∧ firstOf l = none := by
  unfold needNoStream at h
  by_cases hc : s.strm = .none <;> simp_all

theorem passed_stream {s : State} {l : List (Option Misuse)} (h : firstOf (needStream s :: l) = none) :
    s.strm ≠ .none ∧ firstOf l = none := by
  unfold needStream at h
  by_cases hc : s.strm = .none <;> simp_all

theorem passed_cmdStream {s : State} {l : List (Option Misuse)} (h : firstOf (needCmdStream s :: l) = none) :
    s.strm = .cmd ∧ firstOf l = none := by
  unfold needCmdStream at h
  by_cases hc : s.strm = .cmd <;> simp_all

theorem passed_txn {s : State} {x : Txn} {l : List (Option Misuse)} (h : firstOf (needTxn x s :: l) = none) :
    s.txn = x ∧ firstOf l = none := by
  unfold needTxn at h
  by_cases hc : s.txn = x <;> simp_all

theorem passed_onCommand {s : State} {l : List (Option Misuse)} (h : firstOf (needOnCommand s :: l) = none) :
    s.sess = .onCommand ∧ firstOf l = none := by
  unfold needOnCommand at h
  by_cases hc : s.sess = .onCommand <;> simp_all

/-! ### CTRL and RES -/

theorem issueCtrl_en (k : PhaseKind) : ctrlEn (issueCtrl k) = true := by cases k <;> decide

theorem issueCtrl_rdy (k : PhaseKind) : ctrlRdy (issueCtrl k) = false := by cases k <;> decide

theorem issueCtrl_legal (k : PhaseKind) : issueCtrl k ∈ legalCtrl := by cases k <;> decide

/-- The RES byte of a stream is a legal one (R34). -/
theorem firstFailure_legal (p : Params) (es : List Event) : firstFailure p es ∈ legalRes := by
  induction es with
  | nil => show (0 : Byte) ∈ _; decide
  | cons e es ih =>
    unfold firstFailure
    split
    · exact ih
    · next h =>
      cases e with
      | s st =>
        simp only [eventOutcome, classify] at h
        simp only [eventRes, classify]
        split_ifs at h ⊢ <;> decide
      | a b st => simp only [eventRes]; cases classify p .address (dirBit b) st <;> decide
      | d b st => simp only [eventRes]; cases classify p .data 0#1 st <;> decide
      | p => show (0 : Byte) ∈ _; decide

/-! ### EnvAck (R67) -/

/-- Under a legal configuration EnvAck acknowledges every phase. -/
theorem envAck_acknowledges {p : Params} (h : p.wf = true) (k : PhaseKind) (b : Byte) :
    classify p k (dirBit b) (envAck p k b) = .ack := by
  cases k with
  | start =>
    have := wf_masked h (show p.stStart ∈ p.codes by simp [Params.codes])
    simp [classify, envAck, this]
  | address =>
    have h1 := wf_masked h (show p.stSlawAck ∈ p.codes by simp [Params.codes])
    have h2 := wf_masked h (show p.stSlarAck ∈ p.codes by simp [Params.codes])
    unfold classify envAck
    by_cases hd : dirBit b = 0#1
    · simp [hd, h1]
    · simp [hd, h2]
  | data =>
    have := wf_masked h (show p.stDataAck ∈ p.codes by simp [Params.codes])
    simp [classify, envAck, this]

/-! ### The frame (R171) -/

theorem sources_xfer (s : State) : Sources frameSource (fun k => transform s.cfg (Memory.read s.frame k)) s := by
  intro t hc hf k hk
  simp [frameSource, memRead, hc, hf, hk]

theorem sources_clear (s : State) : Sources clearSource (fun _ => Config.clrByte) s := fun _ _ _ _ _ => rfl

theorem sources_fill (s : State) : Sources fillSource (fun _ => Config.fillByte) s := fun _ _ _ _ _ => rfl

/-- The counters after n frame bytes fit their words and are the page and column of byte n (R32). -/
theorem counters_fit {p : Params} (hw : p.wf = true) {n : Nat} (hn : n ≤ p.fbLen) {a b c : Word}
    (h : (a, b, c) = (BitVec.ofNat 16 (n / p.w), BitVec.ofNat 16 (n % p.w), BitVec.ofNat 16 n)) :
    a.toNat = n / p.w ∧ b.toNat = n % p.w ∧ c.toNat = n ∧ n = (n / p.w) * p.w + n % p.w ∧ n / p.w ≤ p.pages ∧ n % p.w < p.w := by
  have hg := wf_geometry hw
  cases h
  have h1 : n / p.w ≤ n := Nat.div_le_self _ _
  have h2 : n % p.w ≤ n := Nat.mod_le _ _
  refine ⟨?_, ?_, ?_, ?_, Nat.div_le_of_le_mul hn, Nat.mod_lt _ (by omega)⟩
  · rw [BitVec.toNat_ofNat]; exact Nat.mod_eq_of_lt (by omega)
  · rw [BitVec.toNat_ofNat]; exact Nat.mod_eq_of_lt (by omega)
  · rw [BitVec.toNat_ofNat]; exact Nat.mod_eq_of_lt (by omega)
  · have := Nat.mod_add_div n p.w
    rw [Nat.mul_comm] at this
    omega

/-! ### The display simulator (R68 to R70) -/

/-- The ranges of R68. -/
abbrev DcsOk (p : Params) (d : Dcs) : Prop :=
  Memory.sortedFrom 0 d.ram = true ∧ Memory.below p.fbLen d.ram = true ∧ d.cp < p.pages ∧ d.cc < p.w

@[simp] theorem advance_ram (p : Params) (d : Dcs) : (Dcs.advance p d).ram = d.ram := by
  unfold Dcs.advance; split <;> (try split) <;> rfl

@[simp] theorem advance_pwr (p : Params) (d : Dcs) : (Dcs.advance p d).pwr = d.pwr := by
  unfold Dcs.advance; split <;> (try split) <;> rfl

@[simp] theorem advance_seed (p : Params) (d : Dcs) : (Dcs.advance p d).seed = d.seed := by
  unfold Dcs.advance; split <;> (try split) <;> rfl

theorem advance_ok {p : Params} {d : Dcs} (h : p.wf = true) (hd : DcsOk p d) : DcsOk p (Dcs.advance p d) := by
  have h1 := wf_geometry h
  have h2 := wf_pages h
  obtain ⟨a, b, c, e⟩ := hd
  unfold Dcs.advance
  split
  · split
    · exact ⟨a, b, by show 0 < _; omega, by show 0 < _; omega⟩
    · exact ⟨a, b, by show d.cp + 1 < _; omega, by show 0 < _; omega⟩
  · exact ⟨a, b, c, by show d.cc + 1 < _; omega⟩

theorem ramAddr_lt {p : Params} {page column : Nat} (hp : page < p.pages) (hc : column < p.w) :
    ramAddr p page column < p.fbLen := by
  unfold ramAddr Params.fbLen
  calc page * p.w + column < page * p.w + p.w := by omega
    _ = (page + 1) * p.w := by ring
    _ ≤ p.pages * p.w := Nat.mul_le_mul_right _ (by omega)
    _ = p.w * p.pages := Nat.mul_comm _ _

theorem phase_ok {p : Params} {d : Dcs} (k : PhaseKind) (b : Byte) (h : p.wf = true) (hd : DcsOk p d) :
    DcsOk p (Dcs.phase p d k b).2 := by
  have h1 := wf_geometry h
  have h2 := wf_pages h
  unfold Dcs.phase
  split
  · exact hd
  · split
    · exact hd
    · split <;> exact hd
  · split
    · exact hd
    · exact hd
    · exact hd
    · unfold Dcs.command
      split
      · exact ⟨hd.1, hd.2.1, by show 0 < _; omega, by show 0 < _; omega⟩
      · exact hd
    · exact advance_ok h ⟨sortedFrom_put _ hd.1 (Nat.zero_le _), below_put _ hd.2.1 (ramAddr_lt hd.2.2.1 hd.2.2.2), hd.2.2.1,
        hd.2.2.2⟩
    · exact hd

/-- A phase not acknowledged leaves the display within its ranges, whatever became of it (93 U12). -/
theorem unacknowledged_ok {p : Params} {d : Dcs} (k : PhaseKind) (b : Byte) (f : Fate) (h : p.wf = true) (hd : DcsOk p d) :
    DcsOk p (Dcs.unacknowledged p d k b f) := by
  have htook : DcsOk p (Dcs.took p d k b f.taken) := by
    unfold Dcs.took
    split
    · exact phase_ok k b h hd
    · exact hd
  unfold Dcs.unacknowledged Dcs.leave
  split
  · split
    · exact htook
    · exact ⟨sortedFrom_put _ htook.1 (Nat.zero_le _), below_put _ htook.2.1 (ramAddr_lt hd.2.2.1 hd.2.2.2), htook.2.2⟩
  · exact htook

/-- The environment keeps the display within its ranges, whatever it answers. -/
theorem ask_ok {p : Params} {bus : Bus} (tr : List Event) (k : PhaseKind) (b : Byte) (h : p.wf = true)
    (hd : DcsOk p bus.dcs) : DcsOk p (Bus.ask p tr k b bus).2.dcs := by
  rcases ask_dcs p tr k b bus with e | e | ⟨f, e⟩ <;> rw [e]
  · exact hd
  · exact phase_ok k b h hd
  · exact unacknowledged_ok k b f h hd

/-- The flat cursor after `Advance()` is the next address, wrapping at FB_LEN (R70). -/
theorem cursorFlat_advance {p : Params} {d : Dcs} (hp : d.cp < p.pages) (hc : d.cc < p.w) :
    cursorFlat p (Dcs.advance p d) = (cursorFlat p d + 1) % p.fbLen := by
  have hlt : cursorFlat p d < p.fbLen := ramAddr_lt hp hc
  unfold Dcs.advance
  split
  · next hw =>
    have hrow : cursorFlat p d + 1 = (d.cp + 1) * p.w := by
      unfold cursorFlat; rw [Nat.add_mul, Nat.one_mul]; omega
    split
    · next hg =>
      rw [hrow, hg, Params.fbLen, Nat.mul_comm p.w p.pages, Nat.mod_self]
      simp [cursorFlat]
    · next hg =>
      have hnext : (d.cp + 1) * p.w < p.fbLen := by
        have := ramAddr_lt (p := p) (page := d.cp + 1) (column := 0) (by omega) (by omega)
        simpa [ramAddr] using this
      rw [hrow, Nat.mod_eq_of_lt hnext]
      simp [cursorFlat]
  · next hw =>
    have hnext : cursorFlat p d + 1 < p.fbLen := by
      have := ramAddr_lt (p := p) (page := d.cp) (column := d.cc + 1) hp (by omega)
      simpa [ramAddr, cursorFlat, Nat.add_assoc] using this
    rw [Nat.mod_eq_of_lt hnext]
    simp [cursorFlat, Nat.add_assoc]

/-- What 93 U12 allows of a byte of a data stream that was not acknowledged: the cursor stays or advances by one, and no RAM
byte but the one under it changes. -/
theorem unacknowledged_data {p : Params} {d : Dcs} (b : Byte) (f : Fate) (hm : d.mode = .data) (hp : d.cp < p.pages)
    (hc : d.cc < p.w) :
    (cursorFlat p (Dcs.unacknowledged p d .data b f) = cursorFlat p d ∨
      cursorFlat p (Dcs.unacknowledged p d .data b f) = (cursorFlat p d + 1) % p.fbLen) ∧
    (Dcs.unacknowledged p d .data b f).pwr = d.pwr ∧ (Dcs.unacknowledged p d .data b f).seed = d.seed ∧
    ∀ a, a ≠ cursorFlat p d → Memory.lookup (Dcs.unacknowledged p d .data b f).ram a = Memory.lookup d.ram a := by
  have hput : ∀ (m : List Host.Cell) (v : Byte) a, a ≠ cursorFlat p d →
      Memory.lookup (Memory.put m (ramAddr p d.cp d.cc) v) a = Memory.lookup m a := fun m v a h => lookup_put_other m v h
  have hphase : (Dcs.phase p d .data b).2 = Dcs.advance p { d with ram := Memory.put d.ram (ramAddr p d.cp d.cc) b } := by
    simp [Dcs.phase, hm, Dcs.store]
  have hadv := cursorFlat_advance (p := p) (d := { d with ram := Memory.put d.ram (ramAddr p d.cp d.cc) b }) hp hc
  unfold Dcs.unacknowledged
  rw [if_pos ⟨rfl, hm⟩]
  rcases f with ⟨taken, cell⟩
  cases taken <;> cases cell
  · exact ⟨.inl rfl, rfl, rfl, fun _ _ => rfl⟩
  · exact ⟨.inl rfl, rfl, rfl, fun a ha => hput _ _ a ha⟩
  · simp only [Dcs.leave, Dcs.took, if_true, hphase, advance_ram, advance_pwr, advance_seed]
    exact ⟨.inr hadv, trivial, trivial, fun a ha => hput _ _ a ha⟩
  · simp only [Dcs.leave, Dcs.took, if_true, hphase, advance_ram, advance_pwr, advance_seed]
    exact ⟨.inr hadv, trivial, trivial, fun a ha => (hput _ _ a ha).trans (hput _ _ a ha)⟩

/-! ### The wire plan (R111) -/

/-- No session transaction that hangs leaves the tracker in AddrR. -/
theorem acked_wire_txn {p : Params} {cb : Byte} {bs : List Byte} {es : List Event}
    (h : ackedSoFar p (wirePlan p cb bs) es = true) : replay p .idle es ≠ some .addrR := by
  rcases es with _ | ⟨a1, _ | ⟨a2, es⟩⟩
  · simp [replay]
  · simp [ackedSoFar, wirePlan] at h
    cases a1 <;> simp [plannedOf] at h
    simp only [eventOutcome] at h
    simp [replay, traceStep, h]
  · simp only [ackedSoFar, wirePlan, Bool.and_eq_true, decide_eq_true_eq] at h
    obtain ⟨⟨pa, pb⟩, ⟨pc, pd⟩, pe⟩ := h
    cases a1 <;> simp [plannedOf] at pa
    cases a2 <;> simp [plannedOf] at pc
    subst pc
    simp only [eventOutcome] at pb
    have : ackedSoFar p ((cb :: bs).map fun b => (.data, b)) es = true := pe
    simp only [replay, traceStep, pb, if_true, txnAfterAddress, dirBit_addrByte, replay_acked this]
    simp

end Machine

end Sys2Proof
end

