-- ==== Sys2Proof/Laws/PerInstr.lean ====
section
/-! SUPPORT. Laws/PerInstr.lean: statements made per command, one lemma a constructor. The family TableRow: a command's word
matches its own row of spec/opcode_table.json. -/

namespace Sys2Proof.Laws.TableRow

/-- The row's mask, as spec/opcode_table.json gives it. -/
def mask : Instr → Word
  | .addr _ _ => 0xFF00
  | .byte _ => 0xFF00
  | .wstri _ => 0xFF00
  | .binit | .start | .stop | .beginc | .begind | .wstrt | .endCmd | .init | .xfer | .clear | .fill => 0xFFFF

/-- The row's match value, as spec/opcode_table.json gives it. -/
def matchValue : Instr → Word
  | .binit => 0x0100
  | .start => 0x1000
  | .addr _ _ => 0x1100
  | .byte _ => 0x1200
  | .stop => 0x1300
  | .beginc => 0x2000
  | .begind => 0x2100
  | .wstri _ => 0x2200
  | .wstrt => 0x2300
  | .endCmd => 0x2400
  | .init => 0x2500
  | .xfer => 0x3000
  | .clear => 0x3100
  | .fill => 0x3200

/-- The command's word matches its row. -/
def Statement (i : Instr) : Prop := encode i &&& mask i = matchValue i

/-- Masking a word by 0xFF00 leaves its opcode byte. -/
theorem opcode_and_mask (op arg : Byte) : (op ++ arg : Word) &&& 0xFF00 = op ++ (0x00 : Byte) := by
  have hm : (0xFF00 : Word) = (BitVec.allOnes 8 : Byte) ++ (0x00 : Byte) := by decide
  have h := @BitVec.and_append 8 8 op (BitVec.allOnes 8) arg 0x00
  simp only [BitVec.and_allOnes, BitVec.ofNat_eq_ofNat, BitVec.and_zero] at h
  rw [hm]
  exact h

theorem binit : Statement .binit := by unfold Statement; decide
theorem start : Statement .start := by unfold Statement; decide
theorem addr (addr7 : BitVec 7) (dir : BitVec 1) : Statement (.addr addr7 dir) := opcode_and_mask 0x11 (addr7 ++ dir)
theorem byte (imm8 : Byte) : Statement (.byte imm8) := opcode_and_mask 0x12 imm8
theorem stop : Statement .stop := by unfold Statement; decide
theorem beginc : Statement .beginc := by unfold Statement; decide
theorem begind : Statement .begind := by unfold Statement; decide
theorem wstri (imm8 : Byte) : Statement (.wstri imm8) := opcode_and_mask 0x22 imm8
theorem wstrt : Statement .wstrt := by unfold Statement; decide
theorem endCmd : Statement .endCmd := by unfold Statement; decide
theorem init : Statement .init := by unfold Statement; decide
theorem xfer : Statement .xfer := by unfold Statement; decide
theorem clear : Statement .clear := by unfold Statement; decide
theorem fill : Statement .fill := by unfold Statement; decide

end Sys2Proof.Laws.TableRow
end

