-- ==== Sys2Proof/Tests/Slice0.lean ====
section
/-! SUPPORT. Tests/Slice0.lean: tests of the model, their expected results taken from spec/95_test_vectors.md (the vector is
named above each), the ill-formed terms WellFormed refuses, and, for each statement that has hypotheses, a state and operands
that meet them. -/

namespace Sys2Proof.Tests

open Sys2Proof Sys2Proof.Machine

/-! ### Ill-formed configurations (R7, R9, R10; table of T-P1) -/

/-- The parameters of 95_test_vectors.md: the defaults with the fixture table. -/
def vectors : Params := { Params.default with initTable := [0xAE, 0x81, 0x7F, 0xAF] }

/-- The same at W = 4, H = 16 (programs P2, P7). -/
def small : Params := { vectors with w := 4, h := 16 }

theorem test_wf_accepts : vectors.wf = true ∧ small.wf = true ∧ small.fbLen = 8 ∧ vectors.fbLen = 1024 := by decide
theorem test_wf_accepts_smallest : ({ vectors with w := 1, h := 8 } : Params).wf = true := by decide
theorem test_wf_accepts_largest : ({ vectors with w := 8191, h := 64 } : Params).wf = true := by decide
theorem test_wf_refuses_no_width : ({ vectors with w := 0 } : Params).wf = false := by decide
theorem test_wf_refuses_low_height : ({ vectors with h := 0 } : Params).wf = false := by decide
theorem test_wf_refuses_split_page : ({ vectors with h := 12 } : Params).wf = false := by decide
theorem test_wf_refuses_long_frame : ({ vectors with w := 8192 } : Params).wf = false := by decide
theorem test_wf_refuses_equal_codes : ({ vectors with stDataNack := 0x20 } : Params).wf = false := by decide
theorem test_wf_refuses_unmasked_code : ({ vectors with stDataNack := 0x31 } : Params).wf = false := by decide
theorem test_wf_refuses_empty_table : ({ vectors with initTable := [] } : Params).wf = false := by decide

/-! ### Decoding (2.1) -/

theorem test_decode_engine : decode 0x0100 = .ok .binit ∧ decode 0x1000 = .ok .start ∧ decode 0x1178 = .ok (.addr 0x3C 0) ∧
    decode 0x1179 = .ok (.addr 0x3C 1) ∧ decode 0x1100 = .ok (.addr 0x00 0) ∧ decode 0x11FF = .ok (.addr 0x7F 1) ∧
    decode 0x117A = .ok (.addr 0x3D 0) ∧ decode 0x1200 = .ok (.byte 0x00) ∧ decode 0x1240 = .ok (.byte 0x40) ∧
    decode 0x12FF = .ok (.byte 0xFF) ∧ decode 0x1300 = .ok .stop := by decide

theorem test_decode_session : decode 0x2000 = .ok .beginc ∧ decode 0x2100 = .ok .begind ∧ decode 0x2200 = .ok (.wstri 0x00) ∧
    decode 0x22AF = .ok (.wstri 0xAF) ∧ decode 0x2300 = .ok .wstrt ∧ decode 0x2400 = .ok .endCmd ∧
    decode 0x2500 = .ok .init := by decide

theorem test_decode_frame : decode 0x3000 = .ok .xfer ∧ decode 0x3100 = .ok .clear ∧ decode 0x3200 = .ok .fill := by decide

/-- A word is refused. -/
def illegal (w : Word) : Bool :=
  match decode w with
  | .ok _ => false
  | .error _ => true

theorem test_decode_refuses : ([0x0000, 0xFFFF, 0x0001, 0x0101, 0x1001, 0x1301, 0x2001, 0x2301, 0x24FF, 0x30FF, 0x0200, 0x0F00,
    0x1400, 0x1F00, 0x2600, 0x3300, 0x4000, 0x7800] : List Word).all illegal = true := by decide

theorem test_encode_words : encode (.addr 0x3C 1) = 0x1179 ∧ encode (.byte 0xAA) = 0x12AA ∧ encode .xfer = 0x3000 := by decide

theorem test_decodeTableWord : decodeTableWord 16 0x22AF = some (.wstri 0xAF) ∧ decodeTableWord 16 0x0101 = none := by decide

theorem test_addrByte : addrByte 0x3D 0 = 0x7A ∧ addrByte 0x7F 1 = 0xFF ∧ addrByte 0x27 0 = 0x4E := by decide

/-- R113's own kind of line: blanks, hex, the direction letter, a comment. -/
theorem test_assemble : assembleLine "ADDR 0x3C, W  ; write".toList = .command (.addr 0x3C 0) ∧
    assembleLine "  BYTE 0x40".toList = .command (.byte 0x40) ∧ assembleLine "; note".toList = .blank ∧
    assembleLine "ADDR 0x80, W".toList = .malformed := by decide

/-! ### States to test from -/

/-- The next state, if there is one. -/
def nextOf (o : Host.Outcome State Fault Refusal) : Option State :=
  match o with
  | .next t => some t
  | .fault _ => none
  | .refused _ => none

/-- `f` of the next state of a command. -/
def after {α : Type} (i : Instr) (s : State) (f : State → α) : Option α := (nextOf (exec i s)).map f

/-- After BINIT, under EnvAck, W = 4, H = 16. -/
def ready : State :=
  { State.reset with cfg := small, ctrl := 0x04, bus := { kind := .envAck, epoch := 0, script := [], unacked := .anyValue, dcs := Dcs.reset 0 } }

/-- `s` with answers listed at the test seam (R65). -/
def answering (s : State) (l : List (Option Answer)) : State := { s with bus := { s.bus with script := l } }

/-- `s` with a transaction open as TXN says. -/
def inTxn (s : State) (t : Txn) : State := { s with txn := t }

/-- Initialised, between transactions. -/
def onC : State := { ready with sess := .onCommand }

/-- Inside a command stream, nothing failed. -/
def inCmd : State := { ready with sess := .initializing, strm := .cmd, txn := .addrW, ctrl := 0x84 }

/-- Inside a data stream, nothing failed. -/
def inData : State := { ready with sess := .onData, strm := .data, txn := .addrW, ctrl := 0x84 }

/-- Program P2's frame, with the simulator DCS as the environment. -/
def display : State :=
  { onC with
    frame := Memory.ofBytes 0 [0x00, 0xFF, 0xA5, 0x01, 0x80, 0x3C, 0x0F, 0xF0]
    bus := { kind := .dcs, epoch := 0, script := [], unacked := .anyValue, dcs := { Dcs.reset 0 with pwr := true } } }

/-! ### Classification (2.2) -/

theorem test_classify_masks : classify vectors .start 0 0x0B = .ack ∧ classify vectors .data 0 0x2F = .ack := by decide
theorem test_classify_directions : classify vectors .address 0 0x40 = .unexpected ∧ classify vectors .address 0 0x48 = .unexpected ∧
    classify vectors .address 1 0x48 = .nack ∧ classify vectors .address 1 0x18 = .unexpected := by decide
theorem test_classify_own_nack : classify vectors .start 0 0x20 = .unexpected ∧ classify vectors .data 0 0x20 = .unexpected ∧
    classify vectors .data 0 0x30 = .nack ∧ classify vectors .address 0 0x20 = .nack := by decide

/-! ### Bus Master Engine (2.3) -/

/-- V-E1. -/
theorem test_binit : after .binit State.reset (fun t => (t.ctrl, t.br, t.port, t.res, t.trace)) =
    some (0x04, 72, 0x01, 0x03, []) := by decide
/-- V-E21. -/
theorem test_binit_refused : after .binit (inTxn ready .started) (fun t => (t.flt, t.res, t.br)) = some (0x04, 0x13, 0x00) := by decide
/-- V-E3. -/
theorem test_start : after .start ready (fun t => (t.trace, t.txn, t.ctrl, t.stat, t.res)) =
    some ([.s 0x08], .started, 0xA4, 0x08, 0x00) := by decide
/-- V-E4. -/
theorem test_start_unexpected : after .start (answering ready [some (.done 0x00)]) (fun t => (t.trace, t.txn, t.stat, t.res)) =
    some ([.s 0x00], .idle, 0x00, 0x06) := by decide
/-- V-E22. -/
theorem test_start_hangs : after .start (answering ready [some .never]) (fun t => (t.busy, t.pend, t.ctrl, t.res, t.trace)) =
    some (true, some .start, 0x24, 0x03, []) := by decide
/-- V-E7. -/
theorem test_addr_nack : after (.addr 0x3C 0) (answering (inTxn ready .started) [some (.done 0x20)])
    (fun t => (t.data, t.trace, t.txn, t.ctrl, t.res)) = some (0x78, [.a 0x78 0x20], .addrW, 0x84, 0x09) := by decide
/-- V-E8. -/
theorem test_addr_read : after (.addr 0x3C 1) (inTxn ready .started) (fun t => (t.data, t.trace, t.txn, t.res)) =
    some (0x79, [.a 0x79 0x40], .addrR, 0x00) := by decide
/-- V-E12. -/
theorem test_byte_nack : after (.byte 0xAA) (answering (inTxn ready .addrW) [some (.done 0x30)])
    (fun t => (t.data, t.trace, t.stat, t.res, t.txn)) = some (0xAA, [.d 0xAA 0x30], 0x30, 0x0D, .addrW) := by decide
/-- V-E10. -/
theorem test_byte_after_read : after (.byte 0x00) (inTxn ready .addrR) (fun t => (t.flt, t.res, t.trace)) =
    some (0x04, 0x13, []) := by decide
/-- V-E14. -/
theorem test_stop : after .stop (inTxn ready .addrW) (fun t => (t.trace, t.txn, t.ctrl, t.res)) =
    some ([.p], .idle, 0x14, 0x03) := by decide
/-- V-E15. -/
theorem test_stop_idle : after .stop ready (fun t => (t.trace, t.txn, t.res)) = some ([.p], .idle, 0x03) := by decide

/-! ### Display Session Controller (2.4) -/

/-- V-S1. -/
theorem test_beginc : after .beginc ready (fun t => (t.trace, t.sess, t.strm, t.txn, t.res)) =
    some ([.s 0x08, .a 0x78 0x18, .d 0x00 0x28], .initializing, .cmd, .addrW, 0x00) := by decide
/-- V-S3. -/
theorem test_beginc_fails : after .beginc (answering ready [some (.done 0x00)])
    (fun t => (t.trace, (t.sess, t.strm, t.abrt), t.txn, t.res)) = some ([.s 0x00], (.initializing, .cmd, true), .idle, 0x06) := by decide
/-- V-S4. -/
theorem test_begind_nack : after .begind (answering onC [none, some (.done 0x20)])
    (fun t => (t.trace, (t.sess, t.strm, t.abrt), t.txn, t.res)) =
      some ([.s 0x08, .a 0x78 0x20], (.onData, .data, true), .addrW, 0x09) := by decide
/-- V-S8. -/
theorem test_begind_refused : after .begind ready (fun t => (t.flt, t.res, t.trace)) = some (0x08, 0x13, []) := by decide
/-- V-S10. -/
theorem test_wstri_unexpected : after (.wstri 0x5A) (answering inData [some (.done 0x38)]) (fun t => (t.trace, t.abrt, t.res)) =
    some ([.d 0x5A 0x38], true, 0x0E) := by decide
/-- V-S4: after the failed BEGIND. -/
theorem test_wstri_suppressed : after (.wstri 0xFF) { inData with abrt := true } (fun t => (t.trace, t.flt, t.res)) =
    some ([], 0x00, 0x23) := by decide
/-- V-S2. -/
theorem test_wstrt : after .wstrt inCmd (fun t => (t.trace, t.initd, t.res)) =
    some ([.d 0xAE 0x28, .d 0x81 0x28, .d 0x7F 0x28, .d 0xAF 0x28], true, 0x00) := by decide
/-- V-S9. -/
theorem test_wstrt_refused : after .wstrt inData (fun t => (t.flt, t.res, t.trace)) = some (0x08, 0x13, []) := by decide
/-- V-S2. -/
theorem test_end : after .endCmd { inCmd with initd := true } (fun t => (t.trace, (t.sess, t.strm, t.initd), t.txn, t.res)) =
    some ([.p], (.onCommand, .none, false), .idle, 0x03) := by decide
/-- V-S13: bytes sent one by one with WSTRI do not set INITD. -/
theorem test_end_not_delivered : after .endCmd inCmd (fun t => (t.sess, t.strm)) = some (.off, .none) := by decide
/-- V-S7. -/
theorem test_init : after .init ready (fun t => (t.trace, t.sess, t.res, t.data, t.ctrl)) =
    some ([.s 0x08, .a 0x78 0x18, .d 0x00 0x28, .d 0xAE 0x28, .d 0x81 0x28, .d 0x7F 0x28, .d 0xAF 0x28, .p], .onCommand, 0x00,
      0xAF, 0x14) := by decide
/-- V-S5. -/
theorem test_init_fails : after .init (answering ready [none, none, none, none, none, some (.done 0x30)])
    (fun t => (t.trace, t.sess, t.strm, t.abrt, t.res, t.data)) =
      some ([.s 0x08, .a 0x78 0x18, .d 0x00 0x28, .d 0xAE 0x28, .d 0x81 0x28, .d 0x7F 0x30, .p], .off, .none, false, 0x0D,
        0x7F) := by decide

/-! ### Frame Transfer Driver (2.5, T-S2, P2, P7) -/

/-- P2: the events and the end state of XFER, and what DCS then holds. -/
theorem test_xfer : after .xfer display (fun t => (t.trace, (t.pg, t.col, t.cur), t.res, t.data)) =
    some ([.s 0x08, .a 0x78 0x18, .d 0x40 0x28, .d 0xFF 0x28, .d 0x00 0x28, .d 0x5A 0x28, .d 0xFE 0x28, .d 0x7F 0x28,
      .d 0xC3 0x28, .d 0xF0 0x28, .d 0x0F 0x28, .p], (2, 0, 8), 0x00, 0x0F) := by decide
/-- P2: pixel (3, 0) is dark and (0, 0) is lit. -/
theorem test_xfer_pixels : after .xfer display (fun t => (Dcs.pixelLit small t.bus.dcs 3 0, Dcs.pixelLit small t.bus.dcs 0 0,
    t.bus.dcs.cp, t.bus.dcs.cc)) = some (false, true, 0, 0) := by decide
/-- T-S2a. -/
theorem test_clear_address_nack : after .clear (answering onC [none, some (.done 0x20)])
    (fun t => (t.trace, t.res, t.cur, t.sess, t.txn)) =
      some ([.s 0x08, .a 0x78 0x20, .p], 0x09, 0, .onCommand, .idle) := by decide
/-- `s` with the display dropping what it does not acknowledge (R229's worked environment). -/
def dropping (s : State) : State := { s with bus := { s.bus with unacked := .dropped } }

/-- P7: frame byte 5 is not acknowledged and not stored. -/
theorem test_clear_part_way :
    after .clear (dropping (answering display [none, none, none, none, none, none, none, none, some (.done 0x30)]))
      (fun t => (t.res, (t.pg, t.col, t.cur), t.bus.dcs.cp, t.bus.dcs.cc)) = some (0x0D, (1, 1, 5), 1, 1) := by decide
/-- R229, 93 U12: the byte not acknowledged may have been stored (cursor k + 1), or the RAM byte may hold any value (k). -/
theorem test_unacknowledged_byte :
    let d : Dcs := { Dcs.reset 0 with mode := .data, cp := 1, cc := 3 }
    let stored := Dcs.unacknowledged small d .data 0x5A { taken := true, cell := none }
    let stray := Dcs.unacknowledged small d .data 0x5A { taken := false, cell := some 0x77 }
    (stored.cp, stored.cc, Dcs.readRam small stored 1 3) = (0, 0, 0x5A) ∧
    (stray.cp, stray.cc, Dcs.readRam small stray 1 3) = (1, 3, 0x77) := by decide
/-- V-F4: at W = 4, H = 16. -/
theorem test_fill : after .fill display (fun t => (t.trace.length, t.data, Dcs.pixelLit small t.bus.dcs 3 15)) =
    some (12, 0xFF, true) := by decide
/-- V-F7. -/
theorem test_fill_refused : after .fill { ready with pg := 2, cur := 8 } (fun t => (t.flt, t.res, t.pg, t.cur)) =
    some (0x08, 0x13, 2, 8) := by decide

/-! ### The step -/

/-- V-E1 through the command port. -/
theorem test_step_binit : (nextOf (step (State.reset.withFetchWord 16 0x0100))).map (fun t => (t.ctrl, t.cmd, t.inputs)) =
    some (0x04, 0x0100, []) := by decide
/-- 2.6: EN = 0, word 0x0000 is ILL, and START NOINIT (V-E20). -/
theorem test_step_refuses : (nextOf (step (State.reset.withFetchWord 16 0x0000))).map (fun t => (t.flt, t.res)) = some (0x01, 0x13) ∧
    (nextOf (step (State.reset.withFetchWord 16 0x1000))).map (fun t => (t.flt, t.res)) = some (0x02, 0x13) := by decide
/-- P1's end state: SESSR reads 0x02 (R39). -/
theorem test_read_sessr : (nextOf (step { onC with inputs := [.read 6] })).map (fun t => t.rdata) = some 0x02 := by decide
/-- P6's state, from which only reset leads (R221). -/
theorem test_hang_then_reset :
    (nextOf (step { ready with busy := true, pend := some .address, inputs := [.write 13 0x0100, .powerOn] })).map
      (fun t => (t.busy, t.pend, t.ctrl, t.res, t.inputs.length)) = some (false, none, 0x00, 0x03, 1) := by decide

/-! ### The hypotheses of the statements can be met -/

theorem next_such {o : Host.Outcome State Fault Refusal} {P : State → Prop} [DecidablePred P]
    (h : (nextOf o).any (fun t => decide (P t)) = true) : ∃ t, o = .next t ∧ P t := by
  cases o with
  | next t => exact ⟨t, rfl, by simpa [nextOf] using h⟩
  | fault r => simp [nextOf] at h
  | refused r => simp [nextOf] at h

theorem witness_EveryLegalWordIsItsCommandsWord : decode 0x11FF = .ok (.addr 0x7F 1) := by decide

theorem witness_StepRunsTheDecodedCommand :
    ({ ready with inputs := [.write 13 0x1000] } : State).inputs = .write 13 0x1000 :: [] ∧ ready.busy = false ∧
    decode 0x1000 = .ok .start := by decide

theorem witness_IllegalWordIsRefused :
    ({ ready with inputs := [.write 13 0x24FF] } : State).inputs = .write 13 0x24FF :: [] ∧ ready.busy = false ∧
    decode 0x24FF = .error (.nonZeroArgument 0x24 0xFF) := by decide

/-- A hang with a write waiting and no reset on its way. -/
def waiting : State := { ready with busy := true, pend := some .start, ctrl := 0x24, inputs := [.write 13 0x1300, .read 9] }

theorem witness_CommandWriteWaitsWhileBusy : waiting.inputs = .write 13 0x1300 :: [.read 9] ∧ waiting.busy = true ∧
    HostInput.powerOn ∉ [HostInput.read 9] ∧ HostInput.blockReset ∉ [HostInput.read 9] := by decide

theorem witness_ResetPassesAWaitingWrite :
    ({ waiting with inputs := [.write 13 0x1300, .read 9, .powerOn, .read 7] } : State).inputs =
      .write 13 0x1300 :: ([.read 9] ++ .powerOn :: [.read 7]) ∧ waiting.busy = true ∧
    HostInput.powerOn ∉ [HostInput.read 9] ∧ HostInput.blockReset ∉ [HostInput.read 9] := by decide

theorem witness_ResetTakesEffectInAnyState :
    ({ waiting with inputs := [.powerOn] } : State).inputs = .powerOn :: [] ∧
    ({ waiting with inputs := [.blockReset] } : State).inputs = .blockReset :: [] := by decide

theorem witness_HostReadReturnsTheRegister :
    ({ ready with inputs := [.read 0] } : State).inputs = .read 0 :: [] ∧ ctrlSto ready.ctrl = false ∧
    ctrlSto ({ ready with ctrl := 0x14 } : State).ctrl = true ∧ ctrlRdy inCmd.ctrl = true ∧
    ({ inCmd with dataWritten := true } : State).dataWritten = true ∧ ({ ready with brWritten := true } : State).brWritten = true ∧
    ({ ready with inputs := [.read 12] } : State).inputs = .read 12 :: [] := by decide

theorem witness_HostWritesOnlyCmd : ({ ready with inputs := [.write 12 0x0100] } : State).inputs = .write 12 0x0100 :: [] ∧
    12 ≠ 13 ∧ ({ ready with inputs := [.write 14 0x0100] } : State).inputs = .write 14 0x0100 :: [] ∧ 14 ≠ 13 := by decide

theorem witness_FrameBindsExactlyTheBuffer :
    ({ ready with inputs := [.bindFrame [1, 2, 3, 4, 5, 6, 7, 8]] } : State).inputs = .bindFrame [1, 2, 3, 4, 5, 6, 7, 8] :: [] ∧
    ready.busy = false ∧ ([1, 2, 3, 4, 5, 6, 7, 8] : List Byte).length = ready.cfg.fbLen ∧
    ([1, 2, 3, 4, 5, 6, 7] : List Byte).length ≠ ready.cfg.fbLen ∧ waiting.busy = true := by decide

theorem witness_FrameByteChangesAlone :
    ({ display with inputs := [.pokeFrame 7 0x00] } : State).inputs = .pokeFrame 7 0x00 :: [] ∧ Memory.wf display.frame = true ∧
    display.busy = false ∧ 7 < display.cfg.fbLen ∧ display.cfg.fbLen ≤ 8 ∧ Memory.wf waiting.frame = true ∧ waiting.busy = true := by decide

theorem witness_ClassifyFollowsTheTable : vectors.wf = true := by decide

theorem witness_ResultByteIsLegal : ∃ t, exec .init ready = .next t ∧ t.busy = false := next_such (by decide)

theorem witness_BinitInitialisesThePeripheral : inCmd.strm ≠ .none ∧ (ready.strm = .none ∧ (inTxn ready .started).txn ≠ .idle) ∧
    (State.reset.strm = .none ∧ State.reset.txn = .idle) := by decide

theorem witness_BinitInitialisesThePeripheral_again : ∃ t, exec .binit ready = .next t ∧ t.strm = .none := next_such (by decide)

theorem witness_StartIssuesOneStartPhase : ctrlEn State.reset.ctrl = false ∧ (ctrlEn inCmd.ctrl = true ∧ inCmd.strm ≠ .none) ∧
    (ctrlEn ready.ctrl = true ∧ ready.strm = .none ∧ (inTxn ready .addrR).txn ≠ .idle) ∧ ready.txn = .idle ∧
    Bus.ask ready.cfg ready.trace .start 0x00 ready.bus = (.done 0x08, ready.bus) ∧
    Bus.ask ready.cfg ready.trace .start 0x00 (answering ready [some .never]).bus = (.never, ready.bus) := by decide

theorem witness_AddrIssuesOneAddressPhase : ctrlEn State.reset.ctrl = false ∧ (ctrlEn inCmd.ctrl = true ∧ inCmd.strm ≠ .none) ∧
    (ctrlEn ready.ctrl = true ∧ ready.strm = .none ∧ ready.txn ≠ .started) ∧ (inTxn ready .started).txn = .started ∧
    ((inTxn ready .addrR).txn = .addrR ∧ Instr.byte 0x00 ≠ .stop) ∧
    Bus.ask ready.cfg ready.trace .address ((0x7F : BitVec 7) ++ (1 : BitVec 1)) ready.bus = (.done 0x40, ready.bus) ∧
    Bus.ask ready.cfg ready.trace .address ((0x00 : BitVec 7) ++ (0 : BitVec 1)) (answering ready [some .never]).bus =
      (.never, ready.bus) := by decide

theorem witness_ByteIssuesOneDataPhase : ctrlEn State.reset.ctrl = false ∧ (ctrlEn inCmd.ctrl = true ∧ inCmd.strm ≠ .none) ∧
    (ctrlEn ready.ctrl = true ∧ ready.strm = .none ∧ ready.txn ≠ .addrW) ∧ (inTxn ready .addrW).txn = .addrW ∧
    Bus.ask ready.cfg ready.trace .data 0xFF ready.bus = (.done 0x28, ready.bus) ∧
    Bus.ask ready.cfg ready.trace .data 0xFF (answering ready [some .never]).bus = (.never, ready.bus) := by decide

theorem witness_StopDrivesOneStop : ctrlEn State.reset.ctrl = false ∧ (ctrlEn inCmd.ctrl = true ∧ inCmd.strm ≠ .none) ∧
    (ctrlEn ready.ctrl = true ∧ ready.strm = .none) := by decide

theorem witness_OpenUnderEnvAck : onC.cfg.wf = true ∧ Acks onC ∧ Ready onC ∧ onC.sess = .onCommand := by decide

theorem witness_OpenStopsAtTheFirstFailure_command : Ready ready ∧ ∃ t, exec .beginc ready = .next t ∧ t.busy = false :=
  ⟨by decide, next_such (by decide)⟩

theorem witness_OpenStopsAtTheFirstFailure_data :
    Ready onC ∧ onC.sess = .onCommand ∧ ∃ t, exec .begind onC = .next t ∧ t.busy = false :=
  ⟨by decide, by decide, next_such (by decide)⟩

theorem witness_WstriStreamsOneByte : ctrlEn State.reset.ctrl = false ∧ (ctrlEn ready.ctrl = true ∧ ready.strm = .none) ∧
    (ctrlEn inData.ctrl = true ∧ inData.strm ≠ .none ∧ ({ inData with abrt := true } : State).abrt = true) ∧
    inData.abrt = false ∧ Bus.ask inData.cfg inData.trace .data 0x00 inData.bus = (.done 0x28, inData.bus) ∧
    Bus.ask inData.cfg inData.trace .data 0x00 (answering inData [some .never]).bus = (.never, inData.bus) := by decide

theorem witness_WstrtUnderEnvAck : inCmd.cfg.wf = true ∧ ctrlEn inCmd.ctrl = true ∧ inCmd.strm = .cmd ∧ inCmd.abrt = false ∧
    Acks inCmd ∧ ({ inCmd with abrt := true } : State).abrt = true := by decide

theorem witness_WstrtStreamsTheTableInOrder : (ctrlEn inCmd.ctrl = true ∧ inCmd.strm = .cmd ∧ inCmd.abrt = false) ∧
    ∃ t, exec .wstrt inCmd = .next t ∧ t.busy = false := ⟨by decide, next_such (by decide)⟩

theorem witness_EndClosesTheStream : ctrlEn State.reset.ctrl = false ∧ (ctrlEn ready.ctrl = true ∧ ready.strm = .none) ∧
    (ctrlEn inData.ctrl = true ∧ inData.strm ≠ .none) := by decide

theorem witness_InitUnderEnvAck : ready.cfg.wf = true ∧ Acks ready ∧ Ready ready := by decide

theorem witness_InitIsOneTransaction : (Ready ready ∧ (ready.sess = .off ∨ ready.sess = .onCommand)) ∧
    ∃ t, exec .init ready = .next t ∧ t.busy = false := ⟨by decide, next_such (by decide)⟩

theorem witness_InitEqualsItsExpansion : Ready onC ∧ ∃ t, exec .init onC = .next t ∧ t.busy = false :=
  ⟨by decide, next_such (by decide)⟩

/-- The invariant holds of a state other than the one after reset. -/
theorem ready_inv : Machine.Inv ready :=
  ⟨by decide, by decide, by decide, by decide, by decide, by decide, by decide, by decide, by decide⟩

theorem witness_SessionFollowsTheTransitionTable :
    (Machine.Inv ready ∧ ready.busy = false ∧ matrix .init (classOf ready) = none) ∧
    ∃ t, exec .init ready = .next t ∧ t.busy = false := ⟨⟨ready_inv, by decide⟩, next_such (by decide)⟩

theorem witness_TransformIsComplement : vectors.invert = true ∧ ({ vectors with invert := false } : Params).invert = false := by decide

theorem witness_FrameUnderEnvAck : Instr.xfer ∈ [Instr.xfer, .clear, .fill] ∧ onC.cfg.wf = true ∧ Acks onC ∧ FrameReady onC := by
  decide

theorem witness_FrameIsOneTransaction : (Instr.fill ∈ [Instr.xfer, .clear, .fill] ∧ onC.cfg.wf = true ∧ FrameReady onC) ∧
    ∃ t, exec .fill onC = .next t ∧ t.busy = false := ⟨by decide, next_such (by decide)⟩

theorem witness_FrameEqualsItsExpansion : (Instr.xfer ∈ [Instr.xfer, .clear, .fill] ∧ display.cfg.wf = true ∧ FrameReady display) ∧
    ∃ t, exec .xfer display = .next t ∧ t.busy = false := ⟨by decide, next_such (by decide)⟩

theorem witness_FrameTwiceSendsTheSameBytes : (Instr.clear ∈ [Instr.xfer, .clear, .fill] ∧ onC.cfg.wf = true ∧ Acks onC ∧
    FrameReady onC) ∧ ∃ t, exec .clear onC = .next t ∧ t.busy = false := ⟨by decide, next_such (by decide)⟩

theorem witness_StepKeepsTheInvariant : Machine.Inv (placeWord 0x2500 ready) ∧
    ∃ t, step (placeWord 0x2500 ready) = .next t ∧ t.sess = .onCommand := ⟨ready_inv, next_such (by decide)⟩

theorem witness_LegalityMatrixHolds : Machine.Inv ready ∧ ready.busy = false ∧ matrix .begind (classOf ready) = some .seq ∧
    matrix .init (classOf ready) = none := ⟨ready_inv, by decide⟩

theorem witness_NoStepChangesTheConfiguration : ∃ t, step (placeWord 0x2500 ready) = .next t ∧ t.res = 0x00 := next_such (by decide)

theorem witness_FltIsSticky : ∃ t, exec .begind ready = .next t ∧ t.flt = 0x08 := next_such (by decide)

theorem witness_ExecNeverFaultsOrRefuses : ready.cfg.wf = true := by decide

theorem witness_EngineCommandsFrame : ∃ t, exec .start ready = .next t ∧ t.res = 0x00 := next_such (by decide)

theorem witness_SessionCommandsFrame : ∃ t, exec .wstrt inCmd = .next t ∧ t.res = 0x00 := next_such (by decide)

theorem witness_FrameCommandsFrame : Instr.xfer ∈ [Instr.xfer, .clear, .fill] ∧ ∃ t, exec .xfer display = .next t ∧ t.res = 0x00 :=
  ⟨by decide, next_such (by decide)⟩

theorem witness_HangLeavesThePendingPhase : ∃ t, exec .init (answering ready [none, some .never]) = .next t ∧ t.busy = true :=
  next_such (by decide)

theorem witness_CommandsThatCannotHang : ∃ t, exec (.wstri 0x00) { inData with abrt := true } = .next t ∧ t.res = 0x23 :=
  next_such (by decide)

theorem witness_NoHangWithAnAnsweringBus : (Acks onC ∧ ∃ t, exec .xfer onC = .next t ∧ t.res = 0x00) ∧
    (Displays display ∧ ∃ t, exec .xfer display = .next t ∧ t.res = 0x00) :=
  ⟨⟨by decide, next_such (by decide)⟩, ⟨by decide, next_such (by decide)⟩⟩

theorem witness_OnlyBinitEnables : ∃ t, exec .binit State.reset = .next t ∧ ctrlEn t.ctrl = true := next_such (by decide)

theorem witness_HistoryOnlyGrows : ∃ t, exec .stop ready = .next t ∧ t.trace = [.p] := next_such (by decide)

theorem witness_FrameReadsBackFromTheCursor : Instr.xfer ∈ [Instr.xfer, .clear, .fill] ∧ display.cfg.wf = true ∧ Displays display ∧
    FrameReady display ∧ display.bus.dcs.cp < display.cfg.pages ∧ display.bus.dcs.cc < display.cfg.w := by decide

/-- The display with its cursor at the last byte of its RAM. -/
def displaced : State := { display with bus := { display.bus with dcs := { display.bus.dcs with cp := 1, cc := 3 } } }

theorem witness_FrameReadsBackFromTheCursor_last : Instr.fill ∈ [Instr.xfer, .clear, .fill] ∧ displaced.cfg.wf = true ∧
    Displays displaced ∧ FrameReady displaced ∧ displaced.bus.dcs.cp < displaced.cfg.pages ∧
    displaced.bus.dcs.cc < displaced.cfg.w ∧ cursorFlat displaced.cfg displaced.bus.dcs + 1 = displaced.cfg.fbLen := by decide

/-- P7's first XFER. -/
def partWay : State := dropping (answering display (List.replicate (3 + 5) none ++ [some (.done 0x30)]))

theorem witness_AbortedFrameDisplacesTheCursor : Instr.xfer ∈ [Instr.xfer, .clear, .fill] ∧ partWay.cfg.wf = true ∧
    FrameReady partWay ∧ partWay.bus.kind = .dcs ∧ partWay.bus.unacked = .dropped ∧
    partWay.bus.script = List.replicate (3 + 5) none ++ [some (.done partWay.cfg.stDataNack)] ∧ partWay.bus.dcs.cp = 0 ∧
    partWay.bus.dcs.cc = 0 ∧ 5 < partWay.cfg.fbLen := by decide

theorem witness_InitFillClearShowOnTheDisplay : display.cfg.wf = true ∧ Displays display ∧ Ready display := by decide

theorem witness_AbortedFrameAdvancesByTheAcknowledgedBytes :
    let s := answering displaced (List.replicate (3 + 7) none ++ [some (.done 0x38)])
    Instr.xfer ∈ [Instr.xfer, .clear, .fill] ∧ s.cfg.wf = true ∧ FrameReady s ∧ s.bus.kind = .dcs ∧
    s.bus.script = List.replicate (3 + 7) none ++ [some (.done 0x38)] ∧ s.bus.unacked = .anyValue ∧
    (0x38 &&& s.cfg.stMask) ≠ s.cfg.stDataAck ∧ s.bus.dcs.cp < s.cfg.pages ∧ s.bus.dcs.cc < s.cfg.w ∧ 7 < s.cfg.fbLen ∧
    7 + 1 = s.cfg.fbLen := by decide

theorem witness_AbortedFrameAdvancesByTheAcknowledgedBytes_first :
    let s := answering displaced (List.replicate (3 + 0) none ++ [some (.done 0x30)])
    s.cfg.wf = true ∧ FrameReady s ∧ s.bus.kind = .dcs ∧
    s.bus.script = List.replicate (3 + 0) none ++ [some (.done 0x30)] ∧ (0x30 &&& s.cfg.stMask) ≠ s.cfg.stDataAck ∧
    (0x30 &&& s.cfg.stMask) = s.cfg.stDataNack ∧ 0 < s.cfg.fbLen := by decide

end Sys2Proof.Tests
end

section
/-! SUPPORT. The other side of Laws/Checks.lean's passed checks (R197): what each answers where its condition is known; and the
Bus Master Engine's STOP, settled from them. -/

namespace Sys2Proof.Machine

/-! ### What a check answers (R197) -/

theorem needEnabled_of_enabled {s : State} (h : ctrlEn s.ctrl = true) : needEnabled s = none := by
  simp [needEnabled, h]

theorem needEnabled_of_disabled {s : State} (h : ctrlEn s.ctrl = false) : needEnabled s = some .noinit := by
  simp [needEnabled, h]

theorem needNoStream_of_closed {s : State} (h : s.strm = .none) : needNoStream s = none := by
  simp [needNoStream, h]

theorem needNoStream_of_open {s : State} (h : s.strm ≠ .none) : needNoStream s = some .seq := by
  simp [needNoStream, h]

/-! ### STOP (R142) -/

/-- STOP is the command cycle around SendStop (R137), which asks the environment nothing and so cannot hang. -/
theorem exec_stop (s : State) : exec .stop s =
    command (firstOf [needEnabled s, needNoStream s]) (fun t => .done resNoOutcome (sendStop t)) s := rfl

theorem exec_stop_of_refused {s : State} {m : Misuse} (h : firstOf [needEnabled s, needNoStream s] = some m) :
    exec .stop s = .next { refuse m s with busy := false } := by
  rw [exec_stop, h, command_refused]

theorem exec_stop_of_accepted {s : State} (h : firstOf [needEnabled s, needNoStream s] = none) :
    exec .stop s = .next { sendStop s with res := resNoOutcome, busy := false } := by
  rw [exec_stop, h]
  exact command_done (t := sendStop { s with busy := true }) rfl

/-- Settles O23: each clause fixes what STOP's two checks answer; neither reads TXN. -/
theorem stopDrivesOneStop : Obligations.StopDrivesOneStop := by
  refine ⟨by decide, fun s => ⟨fun hen => ?notEnabled, fun hen hstrm => ?streamOpen, fun hen hstrm => ?accepted⟩⟩
  case notEnabled =>
    exact exec_stop_of_refused (by rw [needEnabled_of_disabled hen, firstOf_some])
  case streamOpen =>
    exact exec_stop_of_refused (by rw [needEnabled_of_enabled hen, needNoStream_of_open hstrm, firstOf_none, firstOf_some])
  case accepted =>
    exact exec_stop_of_accepted (by
      rw [needEnabled_of_enabled hen, needNoStream_of_closed hstrm, firstOf_none, firstOf_none, firstOf_nil])

end Sys2Proof.Machine
end

section
/-! SUPPORT. The Display Session Controller's END, settled from what its two checks answer and from what a session becomes when
its stream is ended. -/

namespace Sys2Proof.Machine

/-! ### What the stream check answers (R157) -/

theorem needStream_of_open {s : State} (h : s.strm ≠ .none) : needStream s = none := by
  simp [needStream, h]

theorem needStream_of_closed {s : State} (h : s.strm = .none) : needStream s = some .seq := by
  simp [needStream, h]

/-! ### The session after END (R152) -/

/-- R152's session update as a chain of conditions: a command stream keeps an earlier OnCommand, whatever INITD is. -/
theorem sessAfterEnd_eq (sess : Sess) (initd : Bool) : sessAfterEnd sess initd =
    if sess = .initializing then (if initd = true then .onCommand else .off)
    else if sess = .onData then .onCommand else sess := by
  cases sess <;> rfl

/-! ### END (R157) -/

/-- END is the command cycle around EndStream (R152), which asks the environment nothing and so cannot hang. -/
theorem exec_endCmd (s : State) : exec .endCmd s =
    command (firstOf [needEnabled s, needStream s]) (fun t => .done resNoOutcome (endStream t)) s := rfl

theorem exec_endCmd_of_refused {s : State} {m : Misuse} (h : firstOf [needEnabled s, needStream s] = some m) :
    exec .endCmd s = .next { refuse m s with busy := false } := by
  rw [exec_endCmd, h, command_refused]

theorem exec_endCmd_of_accepted {s : State} (h : firstOf [needEnabled s, needStream s] = none) :
    exec .endCmd s = .next { endStream s with res := resNoOutcome, busy := false } := by
  rw [exec_endCmd, h]
  exact command_done (t := endStream { s with busy := true }) rfl

/-- Settles O29: each clause fixes what END's two checks answer; neither reads ABRT, and EndStream has no branch before its Stop. -/
theorem endClosesTheStream : Obligations.EndClosesTheStream := by
  refine fun s => ⟨fun hen => ?notEnabled, fun hen hstrm => ?noStream, fun hen hstrm => ?accepted⟩
  case notEnabled =>
    exact exec_endCmd_of_refused (by rw [needEnabled_of_disabled hen, firstOf_some])
  case noStream =>
    exact exec_endCmd_of_refused (by rw [needEnabled_of_enabled hen, needStream_of_closed hstrm, firstOf_none, firstOf_some])
  case accepted =>
    rw [← sessAfterEnd_eq]
    exact exec_endCmd_of_accepted (by
      rw [needEnabled_of_enabled hen, needStream_of_open hstrm, firstOf_none, firstOf_none, firstOf_nil])

end Sys2Proof.Machine
end

section
/-! SUPPORT. The codec (30_encoding.md R100 to R108), settled from one inversion lemma of the decoder: a word that decodes to a
command carries that command's opcode byte and argument byte. -/

namespace Sys2Proof

/-! ### Operands (R102, R103) -/

theorem addr7Of_encode_addr (a : BitVec 7) (d : BitVec 1) : addr7Of (encode (.addr a d)) = a := by
  rw [addr7Of_eq, argOf_encode]
  exact BitVec.extractLsb'_append_eq_left

theorem dirOf_encode_addr (a : BitVec 7) (d : BitVec 1) : dirOf (encode (.addr a d)) = d := by
  rw [dirOf_eq, argOf_encode]
  exact BitVec.extractLsb'_append_eq_right

/-- An argument byte is its address field and its direction bit (R103). -/
theorem addr7Of_append_dirOf (w : Word) : (addr7Of w ++ dirOf w : Byte) = argOf w := by
  rw [addr7Of_eq, dirOf_eq]
  exact (BitVec.extractLsb'_append_extractLsb'_eq_extractLsb' (by omega)).trans (by simp)

theorem formatN_eq_ok {i j : Instr} {w : Word} (h : formatN i w = .ok j) : argOf w = 0x00 ∧ i = j := by
  unfold formatN at h
  split at h
  · next harg => exact ⟨harg, Except.ok.inj h⟩
  · cases h

/-! ### The decoder (R105) -/

/-- A word that decodes to a command carries the command's opcode and argument. -/
theorem opOf_argOf_of_decode {w : Word} {i : Instr} (h : decode w = .ok i) : opOf w = i.opcode ∧ argOf w = i.argument := by
  have hplain : ∀ {j : Instr}, formatN j w = .ok i → opOf w = j.opcode → j.argument = 0x00 →
      opOf w = i.opcode ∧ argOf w = i.argument := by
    intro j hj hop harg
    obtain ⟨hzero, rfl⟩ := formatN_eq_ok hj
    exact ⟨hop, hzero.trans harg.symm⟩
  dsimp only [decode] at h
  rcases ite_eq_iff.mp h with ⟨hop, h⟩ | ⟨-, h⟩
  · exact hplain h hop rfl
  rcases ite_eq_iff.mp h with ⟨hop, h⟩ | ⟨-, h⟩
  · exact hplain h hop rfl
  rcases ite_eq_iff.mp h with ⟨hop, h⟩ | ⟨-, h⟩
  · cases h; exact ⟨hop, (addr7Of_append_dirOf w).symm⟩
  rcases ite_eq_iff.mp h with ⟨hop, h⟩ | ⟨-, h⟩
  · cases h; exact ⟨hop, rfl⟩
  rcases ite_eq_iff.mp h with ⟨hop, h⟩ | ⟨-, h⟩
  · exact hplain h hop rfl
  rcases ite_eq_iff.mp h with ⟨hop, h⟩ | ⟨-, h⟩
  · exact hplain h hop rfl
  rcases ite_eq_iff.mp h with ⟨hop, h⟩ | ⟨-, h⟩
  · exact hplain h hop rfl
  rcases ite_eq_iff.mp h with ⟨hop, h⟩ | ⟨-, h⟩
  · cases h; exact ⟨hop, rfl⟩
  rcases ite_eq_iff.mp h with ⟨hop, h⟩ | ⟨-, h⟩
  · exact hplain h hop rfl
  rcases ite_eq_iff.mp h with ⟨hop, h⟩ | ⟨-, h⟩
  · exact hplain h hop rfl
  rcases ite_eq_iff.mp h with ⟨hop, h⟩ | ⟨-, h⟩
  · exact hplain h hop rfl
  rcases ite_eq_iff.mp h with ⟨hop, h⟩ | ⟨-, h⟩
  · exact hplain h hop rfl
  rcases ite_eq_iff.mp h with ⟨hop, h⟩ | ⟨-, h⟩
  · exact hplain h hop rfl
  rcases ite_eq_iff.mp h with ⟨hop, h⟩ | ⟨-, h⟩
  · exact hplain h hop rfl
  cases h

/-- Settles O1: the decoder's opcode and argument of an encoded command are the encoder's own, so each branch of R104 is taken for
its command; the operands come back by R102 and R103. -/
theorem everyCommandDecodesFromItsWord : Obligations.EveryCommandDecodesFromItsWord := by
  intro i
  cases i with
  | addr a d =>
    have h : decode (encode (.addr a d)) = .ok (.addr (addr7Of (encode (.addr a d))) (dirOf (encode (.addr a d)))) := by
      simp [decode, Instr.opcode]
    rw [h, addr7Of_encode_addr, dirOf_encode_addr]
  | byte b => simp [decode, Instr.opcode, Instr.argument]
  | wstri b => simp [decode, Instr.opcode, Instr.argument]
  | binit | start | stop | beginc | begind | wstrt | endCmd | init | xfer | clear | fill => rfl

/-- Settles O2: a word is its opcode byte and its argument byte, and those are the command's. -/
theorem everyLegalWordIsItsCommandsWord : Obligations.EveryLegalWordIsItsCommandsWord := by
  intro w i h
  obtain ⟨hop, harg⟩ := opOf_argOf_of_decode h
  rw [encode, ← hop, ← harg, opOf_append_argOf]

/-- A word with a command's opcode and argument is a legal word. -/
theorem decodes_of_opOf_argOf {w : Word} {i : Instr} (hop : opOf w = i.opcode) (harg : argOf w = i.argument) :
    ∃ j, decode w = .ok j :=
  ⟨i, by rw [← opOf_append_argOf w, hop, harg]; exact everyCommandDecodesFromItsWord i⟩

/-- Settles O3: a legal word has one of the fourteen opcodes, and each of these words is some command's word. -/
theorem legalWordsAreTheOpcodeMap : Obligations.LegalWordsAreTheOpcodeMap := by
  intro w
  show (∃ i, decode w = .ok i) ↔ opOf w ∈ _ ∨ (opOf w ∈ _ ∧ argOf w = _)
  constructor
  · rintro ⟨i, h⟩
    obtain ⟨hop, harg⟩ := opOf_argOf_of_decode h
    rw [hop, harg]
    cases i with
    | addr a d => exact .inl (by simp [Instr.opcode])
    | byte b => exact .inl (by simp [Instr.opcode])
    | wstri b => exact .inl (by simp [Instr.opcode])
    | binit | start | stop | beginc | begind | wstrt | endCmd | init | xfer | clear | fill =>
      exact .inr ⟨by decide, rfl⟩
  · rintro (hop | ⟨hop, harg⟩)
    · simp only [List.mem_cons, List.not_mem_nil, or_false] at hop
      rcases hop with hop | hop | hop
      · exact decodes_of_opOf_argOf (i := .addr (addr7Of w) (dirOf w)) hop (addr7Of_append_dirOf w).symm
      · exact decodes_of_opOf_argOf (i := .byte (argOf w)) hop rfl
      · exact decodes_of_opOf_argOf (i := .wstri (argOf w)) hop rfl
    · simp only [List.mem_cons, List.not_mem_nil, or_false] at hop
      rcases hop with hop | hop | hop | hop | hop | hop | hop | hop | hop | hop | hop
      · exact decodes_of_opOf_argOf (i := .binit) hop harg
      · exact decodes_of_opOf_argOf (i := .start) hop harg
      · exact decodes_of_opOf_argOf (i := .stop) hop harg
      · exact decodes_of_opOf_argOf (i := .beginc) hop harg
      · exact decodes_of_opOf_argOf (i := .begind) hop harg
      · exact decodes_of_opOf_argOf (i := .wstrt) hop harg
      · exact decodes_of_opOf_argOf (i := .endCmd) hop harg
      · exact decodes_of_opOf_argOf (i := .init) hop harg
      · exact decodes_of_opOf_argOf (i := .xfer) hop harg
      · exact decodes_of_opOf_argOf (i := .clear) hop harg
      · exact decodes_of_opOf_argOf (i := .fill) hop harg

/-- Settles O4: the decoder runs on the thirteen words of 95 section 2.1. -/
theorem specWordsDecode : Obligations.SpecWordsDecode := by
  unfold Obligations.SpecWordsDecode
  decide

/-- Putting a bit after a 7-bit value is shifting the value left and setting bit 0 (R108). -/
theorem append_bit_eq_shift_or (a : BitVec 7) (d : BitVec 1) :
    (a ++ d : Byte) = (a.setWidth 8 <<< 1) ||| d.setWidth 8 := by
  rw [← BitVec.setWidth_append_eq_shiftLeft_setWidth_or, BitVec.setWidth_eq]

/-- Settles O5: both are the address field followed by the direction bit. -/
theorem addressByteIsAddressThenDirection : Obligations.AddressByteIsAddressThenDirection :=
  fun a d => ⟨append_bit_eq_shift_or a d, argOf_encode (.addr a d), by decide, by decide⟩

end Sys2Proof
end

section
/-! SUPPORT. The assembler (30_encoding.md R113): how a line falls into tokens, that hex text is read back as its value, and that
every command's text is read back as the command. -/

namespace Sys2Proof.Machine

/-! ### Tokens -/

/-- A character that neither ends nor parts a token. -/
def plainChar (c : Char) : Bool := decide (c ≠ ';') && decide (c ≠ ' ') && decide (c ≠ ',')

/-- Plain characters are added to the token being read. -/
theorem tokens_append_plain {word : List Char} (h : word.all plainChar = true) (token rest : List Char) :
    tokens token (word ++ rest) = tokens (token ++ word) rest := by
  induction word generalizing token with
  | nil => simp
  | cons c cs ih =>
    simp only [List.all_cons, Bool.and_eq_true, plainChar, decide_eq_true_eq] at h
    obtain ⟨⟨⟨hsemi, hblank⟩, hcomma⟩, hcs⟩ := h
    rw [List.cons_append, tokens, if_neg hsemi, if_neg hblank, if_neg hcomma, ih hcs, List.append_assoc, List.singleton_append]

theorem tokens_nil_of_plain {word : List Char} (h : word.all plainChar = true) (hne : word ≠ []) : tokens [] word = [word] := by
  rw [← List.append_nil word, tokens_append_plain h, List.nil_append, tokens, addToken, if_neg hne, List.append_nil]

theorem tokens_blank_of_plain {word : List Char} (h : word.all plainChar = true) (hne : word ≠ []) (rest : List Char) :
    tokens [] (word ++ ' ' :: rest) = word :: tokens [] rest := by
  rw [tokens_append_plain h, List.nil_append, tokens, if_neg (by decide), if_pos rfl, addToken, if_neg hne]

theorem tokens_comma_of_plain {word : List Char} (h : word.all plainChar = true) (hne : word ≠ []) (rest : List Char) :
    tokens [] (word ++ ',' :: rest) = word :: [','] :: tokens [] rest := by
  rw [tokens_append_plain h, List.nil_append, tokens, if_neg (by decide), if_neg (by decide), if_pos rfl, addToken, if_neg hne]

/-- A blank before a token is skipped. -/
theorem tokens_skip_blank (rest : List Char) : tokens [] (' ' :: rest) = tokens [] rest := by
  rw [tokens.eq_def]
  simp [addToken]

theorem mnemonic_plain (i : Instr) : (mnemonic i).all plainChar = true := by cases i <;> rfl

theorem mnemonic_ne_nil (i : Instr) : mnemonic i ≠ [] := by cases i <;> exact List.cons_ne_nil _ _

/-! ### Hex text -/

theorem hexDigit_digitChar : ∀ n < 16, hexDigit (digitChar n) = some n := by decide

theorem plainChar_digitChar : ∀ n < 16, plainChar (digitChar n) = true := by decide

theorem hexText_plain {n : Nat} (h : n < 256) : (hexText n).all plainChar = true := by
  have hhi := plainChar_digitChar (n / 16) (by omega)
  have hlo := plainChar_digitChar (n % 16) (by omega)
  simp [hexText, hhi, hlo]
  decide

theorem hexText_ne_nil (n : Nat) : hexText n ≠ [] := List.cons_ne_nil _ _

/-- Two hex digits are read back as the value they were written for. -/
theorem hexNumber_hexText {n : Nat} (h : n < 256) : hexNumber (hexText n) = some n := by
  have hhi := hexDigit_digitChar (n / 16) (by omega)
  have hlo := hexDigit_digitChar (n % 16) (by omega)
  simp only [hexText, hexNumber, hhi, hlo, Option.bind_some, Option.map_some, Option.some.injEq]
  omega

theorem byteOperand_hexText (b : Byte) : byteOperand (hexText b.toNat) = some b := by
  rw [byteOperand, hexNumber_hexText b.isLt, Option.map_some, BitVec.ofNat_toNat, BitVec.setWidth_eq]

theorem addressOperand_hexText (a : BitVec 7) : addressOperand (hexText a.toNat) = some a := by
  have hlt : a.toNat < 128 := a.isLt
  rw [addressOperand, hexNumber_hexText (by omega), Option.bind_some, if_pos hlt, BitVec.ofNat_toNat, BitVec.setWidth_eq]

/-- The direction letter as it is written is read back (R140). -/
theorem direction_letter : ∀ d : BitVec 1, direction [if d = 0 then 'W' else 'R'] = some d := by decide

theorem direction_letter_plain : ∀ d : BitVec 1, [if d = 0 then 'W' else 'R'].all plainChar = true := by decide

/-! ### Lines -/

theorem tokens_byteLine {word : List Char} (h : word.all plainChar = true) (hne : word ≠ []) (b : Byte) :
    tokens [] (word ++ [' '] ++ hexText b.toNat) = [word, hexText b.toNat] := by
  rw [List.append_assoc, List.singleton_append, tokens_blank_of_plain h hne, tokens_nil_of_plain (hexText_plain b.isLt)
    (hexText_ne_nil _)]

theorem tokens_addrLine (a : BitVec 7) (d : BitVec 1) :
    tokens [] (asmText (.addr a d)) = [mnemonic (.addr 0 0), hexText a.toNat, [','], [if d = 0 then 'W' else 'R']] := by
  have hlt : a.toNat < 256 := by have := a.isLt; omega
  rw [asmText, List.append_assoc, List.append_assoc, List.singleton_append, tokens_blank_of_plain (mnemonic_plain _) (mnemonic_ne_nil _),
    tokens_comma_of_plain (hexText_plain hlt) (hexText_ne_nil _), tokens_skip_blank,
    tokens_nil_of_plain (direction_letter_plain d) (List.cons_ne_nil _ _)]
  rfl

/-- Settles O6: the text of a command falls into the tokens it was written from, and each operand's text is read back. -/
theorem assemblerReadsEveryCommandsText : Obligations.AssemblerReadsEveryCommandsText := by
  intro i
  cases i with
  | addr a d =>
    rw [assembleLine, tokens_addrLine]
    have hd : direction [if d = 0#1 then 'W' else 'R'] = some d := direction_letter d
    simp [addressOperand_hexText, hd, asmResult]
  | byte b =>
    rw [asmText, assembleLine, tokens_byteLine (mnemonic_plain _) (mnemonic_ne_nil _)]
    simp [byteOperand_hexText, asmResult, mnemonic]
  | wstri b =>
    rw [asmText, assembleLine, tokens_byteLine (mnemonic_plain _) (mnemonic_ne_nil _)]
    simp [byteOperand_hexText, asmResult, mnemonic]
  | binit | start | stop | beginc | begind | wstrt | endCmd | init | xfer | clear | fill => decide

end Sys2Proof.Machine
end

section
/-! SUPPORT. Every command is the one command cycle (40 R130) around its own checks and its own body. One inversion lemma says
how a command that answers a next state can have ended, and one principle what every body keeps in every configuration. -/

namespace Sys2Proof.Machine

/-! ### Checks and bodies -/

/-- The checks of a command, in the order of R197. -/
def checksOf (i : Instr) (s : State) : Option Misuse :=
  match i with
  | .binit => firstOf [needNoStream s, needTxn .idle s]
  | .start => firstOf [needEnabled s, needNoStream s, needTxn .idle s]
  | .addr _ _ => firstOf [needEnabled s, needNoStream s, needTxn .started s]
  | .byte _ => firstOf [needEnabled s, needNoStream s, needTxn .addrW s]
  | .stop => firstOf [needEnabled s, needNoStream s]
  | .beginc => firstOf [needEnabled s, needNoStream s, needTxn .idle s]
  | .begind => firstOf [needEnabled s, needNoStream s, needTxn .idle s, needOnCommand s]
  | .wstri _ => firstOf [needEnabled s, needStream s]
  | .wstrt => firstOf [needEnabled s, needCmdStream s]
  | .endCmd => firstOf [needEnabled s, needStream s]
  | .init => firstOf [needEnabled s, needNoStream s, needTxn .idle s]
  | .xfer => frameChecks s
  | .clear => frameChecks s
  | .fill => frameChecks s

/-- What a command does once it is accepted. -/
def bodyOf : Instr → State → Ran Byte
  | .binit => fun t => .done resNoOutcome (initPeripheral t)
  | .start => fun t => (sendStart t).andThen fun o u => .done (resOf o .start) u
  | .addr a d => fun t => (sendAddress a d t).andThen fun o u => .done (resOf o .address) u
  | .byte b => fun t => (sendByte b t).andThen fun o u => .done (resOf o .data) u
  | .stop => fun t => .done resNoOutcome (sendStop t)
  | .beginc => fun t => (beginStream Config.cbCmd .cmd (sessForCommands t)).andThen fun r u => .done (resOfStream r) u
  | .begind => fun t =>
    (beginStream Config.cbData .data { t with sess := .onData }).andThen fun r u => .done (resOfStream r) u
  | .wstri b => fun t => (writeByte b t).andThen fun r u => .done (resOfStream r) u
  | .wstrt => fun t => (writeTable t).andThen fun r u => .done (resOfStream r) u
  | .endCmd => fun t => .done resNoOutcome (endStream t)
  | .init => initSequence
  | .xfer => emitFrame frameSource
  | .clear => emitFrame clearSource
  | .fill => emitFrame fillSource

/-- Every command is the command cycle around its checks and its body. -/
theorem exec_eq_command (i : Instr) (s : State) : exec i s = command (checksOf i s) (bodyOf i) s := by cases i <;> rfl

theorem exec_of_refused {i : Instr} {s : State} {m : Misuse} (h : checksOf i s = some m) :
    exec i s = .next { refuse m s with busy := false } := by
  rw [exec_eq_command, h, command_refused]

theorem exec_of_done {i : Instr} {s u : State} {r : Byte} (h : checksOf i s = none)
    (hb : bodyOf i { s with busy := true } = .done r u) : exec i s = .next { u with res := r, busy := false } := by
  rw [exec_eq_command, h, command_done hb]

theorem exec_of_hung {i : Instr} {s t : State} (h : checksOf i s = none)
    (hb : bodyOf i { s with busy := true } = .hung t) : exec i s = .next t := by
  rw [exec_eq_command, h, command_hung hb]

/-- Every way a command that answers a next state can have gone: refused, ended, or hung. -/
theorem exec_next_cases {i : Instr} {s t : State} (h : exec i s = .next t) :
    (∃ m, checksOf i s = some m ∧ t = { refuse m s with busy := false }) ∨
    (checksOf i s = none ∧
      ((∃ r u, bodyOf i { s with busy := true } = .done r u ∧ t = { u with res := r, busy := false }) ∨
       bodyOf i { s with busy := true } = .hung t)) := by
  rw [exec_eq_command] at h
  rcases command_cases (checksOf i s) (bodyOf i) s with ⟨m, hm, he⟩ | ⟨hc, ⟨r, u, hb, he⟩ | ⟨u, hb, he⟩ | ⟨e, hb, he⟩⟩ <;>
    rw [he] at h <;> cases h
  · exact .inl ⟨m, hm, rfl⟩
  · exact .inr ⟨hc, .inl ⟨r, u, hb, rfl⟩⟩
  · exact .inr ⟨hc, .inr hb⟩

/-- The same, where it is known what the body can end in and hang in. -/
theorem exec_next_ends {i : Instr} {s t : State} {D : Byte → State → Prop} {H : State → Prop} {F : Prop}
    (h : exec i s = .next t) (hb : checksOf i s = none → (bodyOf i { s with busy := true }).Ends D H F) :
    (∃ m, checksOf i s = some m ∧ t = { refuse m s with busy := false }) ∨
    (checksOf i s = none ∧ ((∃ r u, D r u ∧ t = { u with res := r, busy := false }) ∨ H t)) := by
  rcases exec_next_cases h with hm | ⟨hc, ⟨r, u, he, rfl⟩ | he⟩
  · exact .inl hm
  · exact .inr ⟨hc, .inl ⟨r, u, by simpa [he] using hb hc, rfl⟩⟩
  · exact .inr ⟨hc, .inr (by simpa [he] using hb hc)⟩

/-- BUSY is no check's business (R130). -/
theorem checksOf_busy (i : Instr) (s : State) : checksOf i { s with busy := true } = checksOf i s := by cases i <;> rfl

/-- Two facts about how a piece of a command ends hold together. -/
theorem ends_and {α : Type} {r : Ran α} {D D' : α → State → Prop} {H H' : State → Prop} {F F' : Prop} (h : r.Ends D H F)
    (h' : r.Ends D' H' F') : r.Ends (fun a t => D a t ∧ D' a t) (fun t => H t ∧ H' t) (F ∧ F') := by
  cases r <;> exact ⟨h, h'⟩

/-- What a piece that does not fault ends in and hangs in, where it is not asked whether it faults. -/
theorem ends_of_noFault {α : Type} {r : Ran α} {D D' : α → State → Prop} {H H' : State → Prop} {F : Prop} (h : r.Ends D H False)
    (hD : ∀ a t, D a t → D' a t) (hH : ∀ t, H t → H' t) : r.Ends D' H' F := by
  cases r with
  | done a t => exact hD a t h
  | hung t => exact hH t h
  | fault e => exact h.elim

/-! ### What the other checks answer (R197) -/

theorem needTxn_of_eq {s : State} {x : Txn} (h : s.txn = x) : needTxn x s = none := by
  simp [needTxn, h]

theorem needTxn_of_ne {s : State} {x : Txn} (h : s.txn ≠ x) : needTxn x s = some .proto := by
  simp [needTxn, h]

theorem needOnCommand_of_eq {s : State} (h : s.sess = .onCommand) : needOnCommand s = none := by
  simp [needOnCommand, h]

theorem needCmdStream_of_eq {s : State} (h : s.strm = .cmd) : needCmdStream s = none := by
  simp [needCmdStream, h]

/-- Every command but BINIT is accepted only with EN = 1. -/
theorem enabled_of_accepted {i : Instr} {s : State} (hi : i ≠ .binit) (h : checksOf i s = none) : ctrlEn s.ctrl = true := by
  cases i with
  | binit => exact absurd rfl hi
  | start | addr | byte | stop | beginc | begind | wstri | wstrt | endCmd | init | xfer | clear | fill =>
    exact (passed_enabled h).1

/-- BINIT is accepted with no stream open and no transaction on the bus, whatever EN is. -/
theorem checksOf_binit {s : State} : checksOf .binit s = none ↔ s.strm = .none ∧ s.txn = .idle := by
  refine ⟨fun h => ?_, fun ⟨hstrm, htxn⟩ => ?_⟩
  · obtain ⟨hstrm, h⟩ := passed_noStream h
    exact ⟨hstrm, (passed_txn h).1⟩
  · rw [checksOf, needNoStream_of_closed hstrm, needTxn_of_eq htxn]; rfl

/-- `Ready` is what a command that opens a transaction checks. -/
theorem checks_of_ready {s : State} (h : Ready s) : firstOf [needEnabled s, needNoStream s, needTxn .idle s] = none := by
  obtain ⟨hen, hstrm, htxn⟩ := h
  rw [needEnabled_of_enabled hen, needNoStream_of_closed hstrm, needTxn_of_eq htxn]; rfl

theorem ready_of_checks {s : State} (h : firstOf [needEnabled s, needNoStream s, needTxn .idle s] = none) : Ready s := by
  obtain ⟨hen, h⟩ := passed_enabled h
  obtain ⟨hstrm, h⟩ := passed_noStream h
  exact ⟨hen, hstrm, (passed_txn h).1⟩

/-- `FrameReady` is what BEGIND and the frame commands check. -/
theorem checks_of_frameReady {s : State} (h : FrameReady s) : frameChecks s = none := by
  obtain ⟨⟨hen, hstrm, htxn⟩, hsess⟩ := h
  rw [frameChecks, needEnabled_of_enabled hen, needNoStream_of_closed hstrm, needTxn_of_eq htxn, needOnCommand_of_eq hsess]; rfl

theorem frameReady_of_checks {s : State} (h : frameChecks s = none) : FrameReady s := by
  obtain ⟨hen, h⟩ := passed_enabled h
  obtain ⟨hstrm, h⟩ := passed_noStream h
  obtain ⟨htxn, h⟩ := passed_txn h
  exact ⟨⟨hen, hstrm, htxn⟩, (passed_onCommand h).1⟩

/-! ### What every body keeps -/

/-- The values of RES a command that was accepted ends with: R34's, but for the refusal's. -/
def endedRes : List Byte := [0x00, 0x03, 0x23, 0x06, 0x09, 0x0A, 0x0D, 0x0E]

theorem legalRes_of_endedRes : ∀ r ∈ endedRes, r ∈ legalRes ∧ r ≠ 0x13 := by decide

/-- RES of a phase is one of them: a Start, whose table has no NACK code (R133), never gives 0x05. -/
theorem resOf_ended {o : PhaseOutcome} {k : PhaseKind} (h : k = .start → o ≠ .nack) : resOf o k ∈ endedRes := by
  cases k with
  | start =>
    cases o with
    | ack | unexpected => decide
    | nack => exact absurd rfl (h rfl)
  | address | data => cases o <;> decide

theorem classify_start_ne_nack (p : Params) (d : BitVec 1) (st : Byte) : classify p .start d st ≠ .nack := by
  unfold classify
  dsimp only
  split <;> simp

/-- A property G of states that every primitive update of an accepted command keeps, and a property H of the states a phase
hangs in that is issued where G holds. -/
structure Keeps (G H : State → Prop) : Prop where
  hang : ∀ k b s bus, G s → Bus.ask s.cfg s.trace k (shown k b) s.bus = (.never, bus) → H { issue k b s with bus := bus }
  phase : ∀ k b st s bus, G s → Bus.ask s.cfg s.trace k (shown k b) s.bus = (.done st, bus) →
    G (complete k b st { issue k b s with bus := bus })
  txn : ∀ x s, G s → G { s with txn := x }
  opened : ∀ mode s, G s → G (openStream mode s)
  abort : ∀ s, G s → G { s with abrt := true }
  ended : ∀ s, G s → G (endStream s)
  sess : ∀ x s, G s → G { s with sess := x }

section keeps

variable {G H : State → Prop} {F : Prop} (hK : Keeps G H)
include hK

theorem keeps_busPhase (k : PhaseKind) (b : Byte) {s : State} (hs : G s) : (busPhase k b s).Ends (fun _ t => G t) H F := by
  rcases busPhase_cases k b s with ⟨bus, ha, he⟩ | ⟨st, bus, ha, he⟩ <;> rw [he]
  · exact hK.hang k b s bus hs ha
  · exact hK.phase k b st s bus hs ha

theorem keeps_sendStart {s : State} (hs : G s) :
    (sendStart s).Ends (fun o t => G t ∧ resOf o .start ∈ endedRes) H F := by
  refine ends_andThen (keeps_busPhase hK .start 0 hs) (fun _ h => h) fun st t ht => ?_
  split
  · exact ⟨hK.txn _ _ ht, by decide⟩
  · exact ⟨ht, resOf_ended fun _ => classify_start_ne_nack _ _ _⟩

theorem keeps_sendAddress (a : BitVec 7) (d : BitVec 1) {s : State} (hs : G s) :
    (sendAddress a d s).Ends (fun o t => G t ∧ resOf o .address ∈ endedRes) H F :=
  ends_andThen (keeps_busPhase hK .address _ hs) (fun _ h => h) fun _ _ ht => ⟨hK.txn _ _ ht, resOf_ended nofun⟩

theorem keeps_sendByte (b : Byte) {s : State} (hs : G s) :
    (sendByte b s).Ends (fun o t => G t ∧ resOf o .data ∈ endedRes) H F :=
  ends_andThen (keeps_busPhase hK .data b hs) (fun _ h => h) fun _ _ ht => ⟨ht, resOf_ended nofun⟩

theorem keeps_unlessFailed {o : PhaseOutcome} {k : PhaseKind} {s : State} {next : State → Ran StreamResult}
    (h : G s ∧ resOf o k ∈ endedRes) (hn : G s → (next s).Ends (fun r t => G t ∧ resOfStream r ∈ endedRes) H F) :
    (unlessFailed o k s next).Ends (fun r t => G t ∧ resOfStream r ∈ endedRes) H F := by
  cases o with
  | ack => exact hn h.1
  | nack => exact ⟨hK.abort _ h.1, h.2⟩
  | unexpected => exact ⟨hK.abort _ h.1, h.2⟩

theorem keeps_beginStream (cb : Byte) (mode : Strm) {s : State} (hs : G s) :
    (beginStream cb mode s).Ends (fun r t => G t ∧ resOfStream r ∈ endedRes) H F := by
  refine ends_andThen (keeps_sendStart hK (hK.opened mode s hs)) (fun _ h => h) fun o1 s1 h1 => ?_
  refine keeps_unlessFailed hK h1 fun h1 => ?_
  refine ends_andThen (keeps_sendAddress hK _ _ h1) (fun _ h => h) fun o2 s2 h2 => ?_
  refine keeps_unlessFailed hK h2 fun h2 => ?_
  refine ends_andThen (keeps_sendByte hK _ h2) (fun _ h => h) fun o3 s3 h3 => ?_
  exact keeps_unlessFailed hK h3 fun h3 => ⟨h3, by decide⟩

theorem keeps_writeByte (b : Byte) {s : State} (hs : G s) :
    (writeByte b s).Ends (fun r t => G t ∧ resOfStream r ∈ endedRes) H F := by
  unfold writeByte
  split
  · exact ⟨hs, by decide⟩
  · exact ends_andThen (keeps_sendByte hK b hs) (fun _ h => h) fun o t h => keeps_unlessFailed hK h fun h => ⟨h, by decide⟩

theorem keeps_tableLoop (hT : ∀ i x s, G s → G { s with tix := i, initd := x }) (n i : Nat) {s : State} (hs : G s) :
    (tableLoop n i s).Ends (fun r t => G t ∧ resOfStream r ∈ endedRes) H True := by
  induction n generalizing i s with
  | zero => exact ⟨hs, by decide⟩
  | succ n ih =>
    unfold tableLoop
    split
    · trivial
    · refine ends_andThen (keeps_writeByte hK _ (hT (BitVec.ofNat 16 i) s.initd s hs)) (fun _ h => h) fun r t h => ?_
      split
      · exact ih _ h.1
      · exact h

theorem keeps_writeTable (hT : ∀ i x s, G s → G { s with tix := i, initd := x }) {s : State} (hs : G s) :
    (writeTable s).Ends (fun r t => G t ∧ resOfStream r ∈ endedRes) H True := by
  unfold writeTable
  split
  · exact ⟨hs, by decide⟩
  · refine ends_andThen (keeps_tableLoop hK hT _ _ hs) (fun _ h => h) fun r t h => ?_
    split
    · exact ⟨hT 0 true t h.1, by decide⟩
    · exact ⟨hT 0 t.initd t h.1, h.2⟩

theorem keeps_initSequence (hT : ∀ i x s, G s → G { s with tix := i, initd := x }) {s : State} (hs : G s) :
    (initSequence s).Ends (fun r t => G t ∧ r ∈ endedRes) H True := by
  refine ends_andThen (keeps_beginStream hK _ _ (hK.sess _ s hs)) (fun _ h => h) fun r t h => ?_
  split
  · exact ends_andThen (keeps_writeTable hK hT h.1) (fun _ h => h) fun r2 u h2 => ⟨hK.ended u h2.1, h2.2⟩
  · exact ⟨hK.ended t h.1, h.2⟩

theorem keeps_emitColumns (hC : ∀ p c k s, G s → G { s with pg := p, col := c, cur := k }) (src : State → Nat → Option Byte)
    (n : Nat) {s : State} (hs : G s) : (emitColumns src n s).Ends (fun r t => G t ∧ resOfStream r ∈ endedRes) H True := by
  induction n generalizing s with
  | zero => exact ⟨hs, by decide⟩
  | succ n ih =>
    unfold emitColumns
    split
    · trivial
    · refine ends_andThen (keeps_writeByte hK _ hs) (fun _ h => h) fun r t h => ?_
      split
      · exact ih (hC t.pg (t.col + 1) (t.cur + 1) t h.1)
      · exact h

theorem keeps_emitPages (hC : ∀ p c k s, G s → G { s with pg := p, col := c, cur := k }) (src : State → Nat → Option Byte)
    (n : Nat) {s : State} (hs : G s) : (emitPages src n s).Ends (fun r t => G t ∧ resOfStream r ∈ endedRes) H True := by
  induction n generalizing s with
  | zero => exact ⟨hs, by decide⟩
  | succ n ih =>
    unfold emitPages
    refine ends_andThen (keeps_emitColumns hK hC src _ hs) (fun _ h => h) fun r t h => ?_
    split
    · exact ih (hC (t.pg + 1) 0 t.cur t h.1)
    · exact h

theorem keeps_emitFrame (hC : ∀ p c k s, G s → G { s with pg := p, col := c, cur := k }) (src : State → Nat → Option Byte)
    {s : State} (hs : G s) : (emitFrame src s).Ends (fun r t => G t ∧ r ∈ endedRes) H True := by
  have h0 : G (beginFrame s) := hK.sess .onData _ (hC 0 0 0 s hs)
  refine ends_andThen (keeps_beginStream hK _ _ h0) (fun _ h => h) fun r t h => ?_
  split
  · exact ends_andThen (keeps_emitPages hK hC src _ h.1) (fun _ h => h) fun r2 u h2 => ⟨hK.ended u h2.1, h2.2⟩
  · exact ⟨hK.ended t h.1, h.2⟩

end keeps

/-- `Keeps`, and the updates only some of the commands make: BINIT's, STOP's, those of a table stream and of a frame. -/
structure KeepsAll (G H : State → Prop) : Prop extends Keeps G H where
  init : ∀ s, G s → G (initPeripheral s)
  stop : ∀ s, G s → G (sendStop s)
  table : ∀ i x s, G s → G { s with tix := i, initd := x }
  counters : ∀ p c k s, G s → G { s with pg := p, col := c, cur := k }

/-- What every body keeps, what it can hang in, and the RES values it ends with. -/
theorem bodyOf_keeps {G H : State → Prop} (hK : KeepsAll G H) (i : Instr) {s : State} (hs : G s) :
    (bodyOf i s).Ends (fun r t => G t ∧ r ∈ endedRes) H True := by
  have hB := hK.toKeeps
  cases i with
  | binit => exact ⟨hK.init s hs, by decide⟩
  | start => exact ends_andThen (keeps_sendStart hB hs) (fun _ h => h) fun _ _ h => h
  | addr a d => exact ends_andThen (keeps_sendAddress hB a d hs) (fun _ h => h) fun _ _ h => h
  | byte b => exact ends_andThen (keeps_sendByte hB b hs) (fun _ h => h) fun _ _ h => h
  | stop => exact ⟨hK.stop s hs, by decide⟩
  | beginc => exact ends_andThen (keeps_beginStream hB _ _ (hB.sess _ s hs)) (fun _ h => h) fun _ _ h => h
  | begind => exact ends_andThen (keeps_beginStream hB _ _ (hB.sess .onData s hs)) (fun _ h => h) fun _ _ h => h
  | wstri b => exact ends_andThen (keeps_writeByte hB b hs) (fun _ h => h) fun _ _ h => h
  | wstrt => exact ends_andThen (keeps_writeTable hB hK.table hs) (fun _ h => h) fun _ _ h => h
  | endCmd => exact ⟨hB.ended s hs, by decide⟩
  | init => exact keeps_initSequence hB hK.table hs
  | xfer => exact keeps_emitFrame hB hK.counters _ hs
  | clear => exact keeps_emitFrame hB hK.counters _ hs
  | fill => exact keeps_emitFrame hB hK.counters _ hs

end Sys2Proof.Machine
end

section
/-! SUPPORT. What holds of every command in every state and configuration: what it ends with and hangs in, what it never
changes, and when it cannot hang or fault. -/

namespace Sys2Proof.Machine

/-! ### Ended and hung (R130, R144) -/

/-- While an accepted command of s runs: BUSY = 1, and neither RES nor FLT is written. -/
abbrev Running (s t : State) : Prop := t.busy = true ∧ t.res = s.res ∧ t.flt = s.flt

/-- Where an accepted command of s hangs: running, with a phase issued and not completed (R144). -/
abbrev HungIn (s t : State) : Prop := Running s t ∧ ∃ k, t.pend = some k ∧ t.ctrl = issueCtrl k

theorem running_keeps (s : State) : KeepsAll (Running s) (HungIn s) where
  hang k b t bus ht _ := ⟨by simpa using ht, k, issue_pend k b t, issue_ctrl k b t⟩
  phase k b st t bus ht _ := by cases k <;> exact ht
  txn _ _ ht := ht
  opened _ _ ht := ht
  abort _ ht := ht
  ended _ ht := ht
  sess _ _ ht := ht
  init _ ht := ht
  stop _ ht := ht
  table _ _ _ ht := ht
  counters _ _ _ _ ht := ht

/-- Every command that answers a next state was refused, or ended with a legal RES that is not the refusal's and FLT as before,
or hangs. -/
theorem exec_outcome {i : Instr} {s t : State} (h : exec i s = .next t) :
    (∃ m, checksOf i s = some m ∧ t = { refuse m s with busy := false }) ∨
    (checksOf i s = none ∧ ((t.busy = false ∧ t.res ∈ endedRes ∧ t.flt = s.flt) ∨ HungIn s t)) := by
  rcases exec_next_ends h fun _ => bodyOf_keeps (running_keeps s) i (s := { s with busy := true }) ⟨rfl, rfl, rfl⟩ with
    hm | ⟨hc, ⟨r, u, ⟨⟨-, -, hflt⟩, hr⟩, rfl⟩ | ht⟩
  · exact .inl hm
  · exact .inr ⟨hc, .inl ⟨rfl, hr, hflt⟩⟩
  · exact .inr ⟨hc, .inr ht⟩

/-- A command that ended was refused, or its body ended: it did not hang. -/
theorem exec_ended {i : Instr} {s t : State} {D : Byte → State → Prop} {H : State → Prop} {F : Prop} (h : exec i s = .next t)
    (ht : t.busy = false) (hc : checksOf i s = none) (hb : (bodyOf i { s with busy := true }).Ends D H F) :
    ∃ r u, D r u ∧ t = { u with res := r, busy := false } := by
  have hrun := bodyOf_keeps (running_keeps s) i (s := { s with busy := true }) ⟨rfl, rfl, rfl⟩
  rcases exec_next_ends h fun _ => ends_and hb hrun with ⟨m, hm, -⟩ | ⟨-, ⟨r, u, ⟨hD, -⟩, he⟩ | ⟨-, ⟨htrue, -⟩, -⟩⟩
  · rw [hc] at hm; cases hm
  · exact ⟨r, u, hD, he⟩
  · rw [ht] at htrue; cases htrue

/-- Settles O18: a refused command writes 0x13, and one that ended a value of `endedRes`. -/
theorem resultByteIsLegal : Obligations.ResultByteIsLegal := by
  intro i s t h hbusy
  rcases exec_outcome h with ⟨m, -, rfl⟩ | ⟨-, ⟨-, hr, -⟩ | ⟨⟨htrue, -⟩, -⟩⟩
  · show resRefused ∈ legalRes
    decide
  · exact (legalRes_of_endedRes _ hr).1
  · rw [htrue] at hbusy; cases hbusy

theorem issueCtrl_sta (k : PhaseKind) : ctrlSta (issueCtrl k) = true ↔ some k = some PhaseKind.start := by
  cases k <;> decide

/-- Settles O48: only the hung outcome has BUSY = 1, and CTRL is then the value that issued the pending phase. -/
theorem hangLeavesThePendingPhase : Obligations.HangLeavesThePendingPhase := by
  intro i s t h hbusy
  rcases exec_outcome h with ⟨m, -, rfl⟩ | ⟨-, ⟨hfalse, -⟩ | ⟨⟨-, hres, hflt⟩, k, hpend, hctrl⟩⟩
  · cases hbusy
  · rw [hfalse] at hbusy; cases hbusy
  · rw [hpend, hctrl]
    exact ⟨rfl, issueCtrl_rdy k, issueCtrl_en k, issueCtrl_sta k, hres, hflt⟩

/-! ### Commands that cannot hang (R193) -/

theorem exec_done_busy {i : Instr} {s t u : State} {r : Byte} (h : exec i s = .next t)
    (hb : bodyOf i { s with busy := true } = .done r u) : t.busy = false := by
  rcases exec_next_cases h with ⟨m, -, rfl⟩ | ⟨-, ⟨r, u, -, rfl⟩ | he⟩
  · rfl
  · rfl
  · rw [hb] at he; cases he

theorem writeByte_skipped {s : State} (b : Byte) (h : s.abrt = true) : writeByte b s = .done .skipped s := by
  rw [writeByte, if_pos h]

theorem writeTable_skipped {s : State} (h : s.abrt = true) : writeTable s = .done .skipped s := by
  rw [writeTable, if_pos h]

/-- After an abort WSTRI sends nothing (R155). -/
theorem bodyOf_wstri_skipped {s : State} (b : Byte) (h : s.abrt = true) : bodyOf (.wstri b) s = .done resSkipped s := by
  simp only [bodyOf, writeByte_skipped b h, andThen_done, resOfStream]

/-- After an abort WSTRT sends nothing (R156). -/
theorem bodyOf_wstrt_skipped {s : State} (h : s.abrt = true) : bodyOf .wstrt s = .done resSkipped s := by
  simp only [bodyOf, writeTable_skipped h, andThen_done, resOfStream]

/-- Settles O49: each of these bodies ends without issuing a phase. -/
theorem commandsThatCannotHang : Obligations.CommandsThatCannotHang := by
  intro i s t hi h
  rcases hi with rfl | rfl | rfl | ⟨habrt, rfl | ⟨b, rfl⟩⟩
  · exact exec_done_busy h rfl
  · exact exec_done_busy h rfl
  · exact exec_done_busy h rfl
  · exact exec_done_busy h (bodyOf_wstrt_skipped habrt)
  · exact exec_done_busy h (bodyOf_wstri_skipped b habrt)

/-! ### An answering bus (R67, R69) -/

/-- An environment that answers every phase: EnvAck or DCS, with no scripted answer. -/
abbrev Answering (bus : Bus) : Prop := (bus.kind = .envAck ∨ bus.kind = .dcs) ∧ bus.script = []

theorem ask_answering {p : Params} {tr : List Event} {k : PhaseKind} {b : Byte} {bus : Bus} (h : Answering bus) :
    (Bus.ask p tr k b bus).1 ≠ .never := by
  obtain ⟨hk | hk, hs⟩ := h
  · simp [ask_envAck hk hs]
  · simp [ask_display hk hs]

theorem answering_ask {p : Params} {tr : List Event} {k : PhaseKind} {b : Byte} {bus : Bus} (h : Answering bus) :
    Answering (Bus.ask p tr k b bus).2 := by
  obtain ⟨hk, hs⟩ := h
  exact ⟨by simpa using hk, by simp [hs]⟩

theorem answering_keeps : KeepsAll (fun t => Answering t.bus) (fun _ => False) where
  hang k b t bus ht ha := ask_answering ht (by rw [ha])
  phase k b st t bus ht ha := by simpa [ha] using answering_ask (p := t.cfg) (tr := t.trace) (k := k) (b := shown k b) ht
  txn _ _ ht := ht
  opened _ _ ht := ht
  abort _ ht := ht
  ended _ ht := ht
  sess _ _ ht := ht
  init _ ht := ht
  stop _ ht := ht
  table _ _ _ ht := ht
  counters _ _ _ _ ht := ht

/-- Settles O50: an answering bus stays one, and no phase issued on it is left without an answer. -/
theorem noHangWithAnAnsweringBus : Obligations.NoHangWithAnAnsweringBus := by
  intro i s t hbus h
  have hs : Answering s.bus := by
    rcases hbus with ⟨hk, hs⟩ | ⟨hk, hs⟩
    · exact ⟨.inl hk, hs⟩
    · exact ⟨.inr hk, hs⟩
  rcases exec_next_ends h fun _ => bodyOf_keeps answering_keeps i (s := { s with busy := true }) hs with
    ⟨m, -, rfl⟩ | ⟨-, ⟨r, u, -, rfl⟩ | hfalse⟩
  · rfl
  · rfl
  · exact hfalse.elim

/-! ### Relations every command respects -/

/-- A field no primitive update of a command writes. -/
theorem cfg_closed : Closed fun s t => t.cfg = s.cfg where
  refl _ := rfl
  trans _ _ _ h h' := h'.trans h
  refused _ _ := rfl
  accept _ := rfl
  finish _ _ := rfl
  init _ := rfl
  issue k b s := issue_cfg k b s
  complete _ _ _ _ := rfl
  txn _ _ := rfl
  stop _ := rfl
  opened _ _ := rfl
  abort _ := rfl
  index _ _ := rfl
  initd _ := rfl
  closed _ _ := rfl
  sess _ _ := rfl
  counters _ _ _ _ := rfl

theorem exec_cfg {i : Instr} {s t : State} (h : exec i s = .next t) : t.cfg = s.cfg := exec_closed cfg_closed h

/-- Bits once set stay set: only `refuse` writes FLT, and it sets a bit (R131). -/
theorem flt_closed : Closed fun s t => s.flt &&& t.flt = s.flt where
  refl s := BitVec.and_self
  trans s t u h h' := by
    calc s.flt &&& u.flt = s.flt &&& (t.flt &&& u.flt) := by rw [← BitVec.and_assoc, h]
      _ = s.flt := by rw [h', h]
  refused m s := by ext i hi; simpa using Or.inl
  accept s := BitVec.and_self
  finish r s := BitVec.and_self
  init s := BitVec.and_self
  issue k b s := by simp
  complete k b st s := BitVec.and_self
  txn x s := BitVec.and_self
  stop s := BitVec.and_self
  opened m s := BitVec.and_self
  abort s := BitVec.and_self
  index i s := BitVec.and_self
  initd s := BitVec.and_self
  closed x s := BitVec.and_self
  sess x s := BitVec.and_self
  counters p c k s := BitVec.and_self

/-- Settles O43: every primitive update of a command keeps the set bits of FLT. -/
theorem fltIsSticky : Obligations.FltIsSticky := fun _ _ _ h => exec_closed flt_closed h

theorem trace_closed : Closed fun s t => ∃ es, t.trace = s.trace ++ es where
  refl s := ⟨[], by simp⟩
  trans s t u := by
    rintro ⟨es, h⟩ ⟨es', h'⟩
    exact ⟨es ++ es', by rw [h', h, List.append_assoc]⟩
  refused m s := ⟨[], by simp⟩
  accept s := ⟨[], by simp⟩
  finish r s := ⟨[], by simp⟩
  init s := ⟨[], by simp⟩
  issue k b s := ⟨[], by simp⟩
  complete k b st s := ⟨[eventOf k b st], rfl⟩
  txn x s := ⟨[], by simp⟩
  stop s := ⟨[.p], rfl⟩
  opened m s := ⟨[], by simp⟩
  abort s := ⟨[], by simp⟩
  index i s := ⟨[], by simp⟩
  initd s := ⟨[], by simp⟩
  closed x s := ⟨[], by simp⟩
  sess x s := ⟨[], by simp⟩
  counters p c k s := ⟨[], by simp⟩

/-- Settles O52: a completed phase and a Stop append one event, and nothing else writes TRACE. -/
theorem historyOnlyGrows : Obligations.HistoryOnlyGrows := fun _ _ _ h => exec_closed trace_closed h

theorem enabled_closed : Closed fun s t => ctrlEn s.ctrl = true → ctrlEn t.ctrl = true where
  refl _ := id
  trans _ _ _ h h' := h' ∘ h
  refused _ _ := id
  accept _ := id
  finish _ _ := id
  init _ _ := by simp only [initPeripheral_ctrl]; decide
  issue k b s _ := by rw [issue_ctrl]; exact issueCtrl_en k
  complete k b st s h := by simpa [ctrlEn] using h
  txn _ _ := id
  stop _ _ := by simp only [sendStop_ctrl]; decide
  opened _ _ := id
  abort _ := id
  index _ _ := id
  initd _ := id
  closed _ _ := id
  sess _ _ := id
  counters _ _ _ _ := id

theorem exec_enabled {i : Instr} {s t : State} (h : exec i s = .next t) (hen : ctrlEn s.ctrl = true) : ctrlEn t.ctrl = true :=
  exec_closed enabled_closed h hen

/-- Settles O51: no primitive update clears EN, and with EN = 0 only BINIT is accepted. -/
theorem onlyBinitEnables : Obligations.OnlyBinitEnables := by
  intro i s t h
  constructor
  · intro ht
    rcases exec_next_cases h with ⟨m, -, rfl⟩ | ⟨hc, -⟩
    · exact .inl ht
    · by_cases hi : i = .binit
      · subst hi
        exact .inr ⟨rfl, checksOf_binit.1 hc⟩
      · exact .inl (enabled_of_accepted hi hc)
  · rintro (hen | ⟨rfl, hready⟩)
    · exact exec_enabled h hen
    · rw [exec_of_done (checksOf_binit.2 hready) rfl] at h
      cases h
      simp only [initPeripheral_ctrl]
      decide

/-! ### No fault (R64, R147) -/

theorem nothing_keeps : Keeps (fun _ => True) (fun _ => True) := by constructor <;> intros <;> trivial

theorem writeTable_noFault (s : State) : (writeTable s).Ends (fun _ _ => True) (fun _ => True) False := by
  cases ha : s.abrt with
  | true => rw [writeTable_skipped ha]; trivial
  | false =>
    rw [writeTable_stream s ha]
    refine ends_andThen (stream_spec _ _ _ s ha) (fun _ _ => trivial) fun r t _ => ?_
    cases r <;> trivial

theorem emitFrame_noFault {src : State → Nat → Option Byte} {f : Nat → Byte} {s : State} (hw : s.cfg.wf = true)
    (hs : Sources src f s) : (emitFrame src s).Ends (fun _ _ => True) (fun _ => True) False :=
  have hg := wf_geometry hw
  ends_mono (frame_spec s hs hg.2.2.2 hg.1) (fun _ _ _ => trivial) fun _ _ => trivial

/-- Under a legal configuration no body reads outside its space. -/
theorem bodyOf_noFault (i : Instr) {s : State} (hw : s.cfg.wf = true) :
    (bodyOf i s).Ends (fun _ _ => True) (fun _ => True) False := by
  have hK := nothing_keeps
  cases i with
  | binit | stop | endCmd => trivial
  | start => exact ends_andThen (keeps_sendStart hK trivial) (fun _ h => h) fun _ _ _ => trivial
  | addr a d => exact ends_andThen (keeps_sendAddress hK a d trivial) (fun _ h => h) fun _ _ _ => trivial
  | byte b => exact ends_andThen (keeps_sendByte hK b trivial) (fun _ h => h) fun _ _ _ => trivial
  | beginc | begind => exact ends_andThen (keeps_beginStream hK _ _ trivial) (fun _ h => h) fun _ _ _ => trivial
  | wstri b => exact ends_andThen (keeps_writeByte hK b trivial) (fun _ h => h) fun _ _ _ => trivial
  | wstrt => exact ends_andThen (writeTable_noFault s) (fun _ h => h) fun _ _ _ => trivial
  | init => exact ends_mono (init_spec s) (fun _ _ _ => trivial) fun _ _ => trivial
  | xfer => exact emitFrame_noFault hw (sources_xfer s)
  | clear => exact emitFrame_noFault hw (sources_clear s)
  | fill => exact emitFrame_noFault hw (sources_fill s)

/-- Settles O44: a body that does not fault ends or hangs, and each answers a next state. -/
theorem execNeverFaultsOrRefuses : Obligations.ExecNeverFaultsOrRefuses := by
  intro i s hw
  rw [exec_eq_command]
  rcases command_cases (checksOf i s) (bodyOf i) s with ⟨m, -, he⟩ | ⟨-, ⟨r, u, -, he⟩ | ⟨u, -, he⟩ | ⟨e, hb, -⟩⟩
  · exact ⟨_, he⟩
  · exact ⟨_, he⟩
  · exact ⟨_, he⟩
  · have hno := bodyOf_noFault i (s := { s with busy := true }) hw
    rw [hb] at hno
    exact hno.elim

end Sys2Proof.Machine
end

section
/-! SUPPORT. The step (Machine/Port.lean): one equation for each input at the head of the queue, one inversion lemma for the
whole step, and the statements about the host's side. -/

namespace Sys2Proof.Machine

/-! ### One equation an input -/

theorem step_write_cmd {s : State} {w : Word} {rest : List HostInput} (h : s.inputs = .write 13 w :: rest) (hb : s.busy = false) :
    step s = takeWord w { s with inputs := rest } := by
  simp [step, takeInput, h, hb, cmdNumber]

theorem step_write_busy {s : State} {w : Word} {rest : List HostInput} (h : s.inputs = .write 13 w :: rest) (hb : s.busy = true) :
    step s = .next (waitBusy s) := by
  simp [step, takeInput, h, hb, cmdNumber]

theorem step_write_other {s : State} {n : Nat} {w : Word} {rest : List HostInput} (h : s.inputs = .write n w :: rest)
    (hn : n ≠ 13) : step s = .next { s with inputs := rest } := by
  simp [step, takeInput, h, hn, cmdNumber]

theorem step_read {s : State} {n : Nat} {rest : List HostInput} (h : s.inputs = .read n :: rest) :
    step s = .next (hostRead n { s with inputs := rest }) := by
  simp [step, takeInput, h]

theorem step_bindFrame {s : State} {bytes : List Byte} {rest : List HostInput} (h : s.inputs = .bindFrame bytes :: rest) :
    step s = bindFrame bytes { s with inputs := rest } := by
  simp [step, takeInput, h]

theorem step_pokeFrame {s : State} {a : Nat} {b : Byte} {rest : List HostInput} (h : s.inputs = .pokeFrame a b :: rest) :
    step s = pokeFrame a b { s with inputs := rest } := by
  simp [step, takeInput, h]

theorem step_powerOn {s : State} {rest : List HostInput} (h : s.inputs = .powerOn :: rest) :
    step s = .next (powerOnReset { s with inputs := rest }) := by
  simp [step, takeInput, h]

theorem step_blockReset {s : State} {rest : List HostInput} (h : s.inputs = .blockReset :: rest) :
    step s = .next (blockOnlyReset { s with inputs := rest }) := by
  simp [step, takeInput, h]

/-! ### The word port (R33, R105) -/

theorem takeWord_ok {w : Word} {i : Instr} (s : State) (h : decode w = .ok i) : takeWord w s = exec i { s with cmd := w } := by
  simp [takeWord, h]

theorem takeWord_error {w : Word} {e : DecodeError} (s : State) (h : decode w = .error e) :
    takeWord w s = .next { refuse .ill { s with cmd := w } with busy := false } := by
  simp [takeWord, h]

/-- Settles O7: with BUSY = 0 the port takes the word, and a word that decodes runs its command. -/
theorem stepRunsTheDecodedCommand : Obligations.StepRunsTheDecodedCommand := by
  intro s w rest i hin hbusy hdec
  rw [step_write_cmd hin hbusy, takeWord_ok _ hdec]

/-- Settles O8: the port refuses an illegal word with ILL (R131); BUSY was 0 and stays so. -/
theorem illegalWordIsRefused : Obligations.IllegalWordIsRefused := by
  intro s w rest e hin hbusy hdec
  rw [step_write_cmd hin hbusy, takeWord_error _ hdec, ← hbusy]
  rfl

/-! ### A reset among the inputs (R221) -/

/-- An input that is no reset is passed over. -/
theorem takeReset_skip {i : HostInput} (rest : List HostInput) (hp : HostInput.powerOn ≠ i) (hr : HostInput.blockReset ≠ i) :
    takeReset (i :: rest) = (takeReset rest).map fun x => (x.1, i :: x.2) := by
  cases i with
  | powerOn => exact absurd rfl hp
  | blockReset => exact absurd rfl hr
  | write | read | bindFrame | pokeFrame => rfl

theorem takeReset_eq_none {l : List HostInput} (hp : HostInput.powerOn ∉ l) (hr : HostInput.blockReset ∉ l) :
    takeReset l = none := by
  induction l with
  | nil => rfl
  | cons i rest ih =>
    obtain ⟨hpi, hprest⟩ := List.ne_and_not_mem_of_not_mem_cons hp
    obtain ⟨hri, hrrest⟩ := List.ne_and_not_mem_of_not_mem_cons hr
    rw [takeReset_skip rest hpi hri, ih hprest hrrest, Option.map_none]

/-- The first reset of the inputs, a power-on, is taken from behind inputs that are none. -/
theorem takeReset_powerOn {before : List HostInput} (after : List HostInput) (hp : HostInput.powerOn ∉ before)
    (hr : HostInput.blockReset ∉ before) : takeReset (before ++ .powerOn :: after) = some (.powerOn, before ++ after) := by
  induction before with
  | nil => rfl
  | cons i rest ih =>
    obtain ⟨hpi, hprest⟩ := List.ne_and_not_mem_of_not_mem_cons hp
    obtain ⟨hri, hrrest⟩ := List.ne_and_not_mem_of_not_mem_cons hr
    rw [List.cons_append, takeReset_skip _ hpi hri, ih hprest hrrest, Option.map_some]
    rfl

/-- Settles O9: with no reset among the inputs the waiting machine stays as it is. -/
theorem commandWriteWaitsWhileBusy : Obligations.CommandWriteWaitsWhileBusy := by
  intro s w rest hin hbusy hp hr
  have hnone : takeReset s.inputs = none := by
    rw [hin, takeReset_skip (i := .write 13 w) rest nofun nofun, takeReset_eq_none hp hr, Option.map_none]
  rw [step_write_busy hin hbusy, waitBusy, hnone]

/-- Settles O10: the waiting machine takes the first reset among its inputs, and that is the power-on. -/
theorem resetPassesAWaitingWrite : Obligations.ResetPassesAWaitingWrite := by
  intro s w before after hin hbusy hp hr
  have hsome : takeReset s.inputs = some (.powerOn, .write 13 w :: (before ++ after)) := by
    rw [hin, takeReset_skip (i := .write 13 w) _ nofun nofun, takeReset_powerOn after hp hr, Option.map_some]
  refine ⟨powerOnReset { s with inputs := .write 13 w :: (before ++ after) }, ?_, rfl, rfl, rfl, rfl⟩
  rw [step_write_busy hin hbusy, waitBusy, hsome]

/-- Settles O11: each value is a field of State.reset. -/
theorem resetStateHasTheSpecsValues : Obligations.ResetStateHasTheSpecsValues :=
  ⟨rfl, rfl, rfl, rfl, rfl, rfl, rfl, rfl, rfl, rfl, rfl, rfl, rfl, rfl, rfl, rfl, rfl, rfl, rfl, rfl⟩

/-- Settles O12: both resets give every block element its field of State.reset (R220). -/
theorem resetTakesEffectInAnyState : Obligations.ResetTakesEffectInAnyState := by
  rintro s rest r hin (rfl | rfl)
  · exact ⟨powerOnReset { s with inputs := rest }, step_powerOn hin, rfl, rfl, rfl, rfl, rfl, rfl, rfl, rfl, rfl, rfl, rfl, rfl,
      rfl, rfl, rfl, rfl, rfl, rfl, fun _ => ⟨rfl, rfl, rfl, rfl, rfl⟩⟩
  · exact ⟨blockOnlyReset { s with inputs := rest }, step_blockReset hin, rfl, rfl, rfl, rfl, rfl, rfl, rfl, rfl, rfl, rfl, rfl,
      rfl, rfl, rfl, rfl, rfl, rfl, rfl, nofun⟩

/-! ### The host's reads and writes (R39) -/

theorem hostRead_inputs_eq (n : Nat) (s : State) (rest : List HostInput) :
    hostRead n { s with inputs := rest } =
      { s with inputs := rest, rdata := registerValue n (Config.freeRead s.draws) s, draws := s.draws + 1 } := rfl

/-- After a Stop every bit of CTRL but STO is the register's, whatever is drawn for STO (93 U6). -/
theorem readCtrl_mask (ctrl : Byte) (draw : Word) (h : ctrlSto ctrl = true) :
    readCtrl ctrl draw &&& 0xFFEF = (ctrl &&& 0xA4).setWidth 16 := by
  rw [readCtrl, if_pos h, readByte]
  ext i hi
  interval_cases i <;> simp

/-- SESSR holds its four fields at their places (R39). -/
theorem readByte_sessr (s : State) :
    (readByte (sessr s) 0x3F).toNat < 64 ∧ (readByte (sessr s) 0x3F).extractLsb' 0 2 = s.sess.code.setWidth 2 ∧
    (readByte (sessr s) 0x3F).extractLsb' 2 2 = s.strm.code.setWidth 2 ∧ (readByte (sessr s) 0x3F).getLsbD 4 = s.abrt ∧
    (readByte (sessr s) 0x3F).getLsbD 5 = s.initd := by
  unfold sessr
  cases s.sess <;> cases s.strm <;> cases s.abrt <;> cases s.initd <;> decide

theorem readByte_all (b : Byte) : readByte b 0xFF = b.setWidth 16 := by
  rw [readByte, show (0xFF : Byte) = BitVec.allOnes 8 from rfl, BitVec.and_allOnes]

/-- Settles O13: the step is the host's read of the register, and each clause is that register's value. -/
theorem hostReadReturnsTheRegister : Obligations.HostReadReturnsTheRegister := by
  intro s rest n hin
  refine ⟨registerValue n (Config.freeRead s.draws) s, by rw [step_read hin, hostRead_inputs_eq], ?ctrl, ?ctrlAfterStop, ?stat,
    ?data, ?br, ?port, ?txn, ?sessr, ?res, ?flt, ?busy, ?pg, ?col, ?cur⟩
  case ctrl => rintro rfl hsto; simp [registerValue, readCtrl, hsto, readByte]
  case ctrlAfterStop => rintro rfl hsto; exact readCtrl_mask s.ctrl _ hsto
  case stat => rintro rfl hrdy; simp [registerValue, hrdy, readByte]
  case data => rintro rfl hw; simp only [registerValue, hw, if_true]; exact readByte_all s.data
  case br => rintro rfl hw; simp only [registerValue, hw, if_true]; exact readByte_all s.br
  case port => rintro rfl; rfl
  case txn => rintro rfl; simp only [registerValue]; cases s.txn <;> rfl
  case sessr => rintro rfl; exact readByte_sessr s
  case res => rintro rfl; rfl
  case flt => rintro rfl; rfl
  case busy => rintro rfl; simp only [registerValue]; cases s.busy <;> rfl
  case pg => rintro rfl; rfl
  case col => rintro rfl; rfl
  case cur => rintro rfl; rfl

/-- Settles O14. -/
theorem hostWritesOnlyCmd : Obligations.HostWritesOnlyCmd := fun _ _ _ _ hin hn => step_write_other hin hn

/-! ### FRAME (R62) -/

theorem bindFrame_next {s : State} {bytes : List Byte} (hb : s.busy = false) (hl : bytes.length = s.cfg.fbLen) :
    bindFrame bytes s = .next { s with frame := Memory.ofBytes 0 bytes } := by
  simp [bindFrame, hb, hl]

theorem pokeFrame_next {s : State} {a : Nat} {b : Byte} (hb : s.busy = false) (ha : a < s.cfg.fbLen) :
    pokeFrame a b s = .next { s with frame := Memory.write s.frame a b } := by
  simp [pokeFrame, hb, ha]

/-- Settles O15: the bound memory is `Memory.ofBytes`, which is canonical and reads back its bytes. -/
theorem frameBindsExactlyTheBuffer : Obligations.FrameBindsExactlyTheBuffer := by
  intro s bytes rest hin
  rw [step_bindFrame hin]
  refine ⟨fun hbusy hlen => ?bound, fun hbusy hlen => ?wrongLength, fun hbusy => ?busy⟩
  case bound =>
    refine ⟨_, bindFrame_next hbusy hlen, wf_ofBytes 0 bytes, fun k hk => ?_⟩
    rw [read_ofBytes 0 bytes k (Nat.zero_le k), Nat.sub_zero, List.getElem?_eq_getElem (by omega), Option.getD_some]
  case wrongLength => simp [bindFrame, hbusy, hlen]
  case busy => simp [bindFrame, hbusy]

/-- Settles O16: the new memory is `Memory.write`, which changes one byte and keeps the canonical form. -/
theorem frameByteChangesAlone : Obligations.FrameByteChangesAlone := by
  intro s a b rest hin hwf
  rw [step_pokeFrame hin]
  refine ⟨fun hbusy ha => ?written, fun hbusy ha => ?outside, fun hbusy => ?busy⟩
  case written =>
    exact ⟨_, pokeFrame_next hbusy ha, wf_write hwf a b, read_write_same hwf a b, fun k hk => read_write_other s.frame b hk⟩
  case outside => simp [pokeFrame, hbusy, Nat.not_lt.2 ha]
  case busy => simp [pokeFrame, hbusy]

/-! ### Every way a step can go -/

/-- The memory a host move leaves in FRAME: a buffer of FB_LEN bytes, or what was there with one byte inside the space changed. -/
def FrameMove (s : State) (m : List Host.Cell) : Prop :=
  (∃ bytes : List Byte, bytes.length = s.cfg.fbLen ∧ m = Memory.ofBytes 0 bytes) ∨
  ∃ a b, a < s.cfg.fbLen ∧ m = Memory.write s.frame a b

/-- What a step that answers a next state can have been. -/
inductive StepTo (s : State) : State → Prop where
  /-- An ignored write, or a wait with no reset to take. -/
  | queue (rest) : StepTo s { s with inputs := rest }
  /-- A host read. -/
  | read (n rest) : StepTo s (hostRead n { s with inputs := rest })
  /-- A move of the host on FRAME. -/
  | frame (rest m) : FrameMove s m → StepTo s { s with inputs := rest, frame := m }
  | powerOn (rest) : StepTo s (powerOnReset { s with inputs := rest })
  | blockReset (rest) : StepTo s (blockOnlyReset { s with inputs := rest })
  /-- An illegal word. -/
  | illegal (rest w) : s.busy = false → StepTo s { refuse .ill { s with inputs := rest, cmd := w } with busy := false }
  /-- A command. -/
  | command (rest w i t) : s.busy = false → exec i { s with inputs := rest, cmd := w } = .next t → StepTo s t

theorem waitBusy_stepTo (s : State) : StepTo s (waitBusy s) := by
  unfold waitBusy
  split
  · exact .blockReset _
  · exact .powerOn _
  · exact .queue s.inputs

theorem takeWord_stepTo {s t : State} {w : Word} {rest : List HostInput} (hbusy : s.busy = false)
    (h : takeWord w { s with inputs := rest } = .next t) : StepTo s t := by
  cases hd : decode w with
  | ok i =>
    rw [takeWord_ok _ hd] at h
    exact .command rest w i t hbusy h
  | error e =>
    rw [takeWord_error _ hd] at h
    cases h
    exact .illegal rest w hbusy

theorem bindFrame_stepTo {s t : State} {bytes : List Byte} {rest : List HostInput}
    (h : bindFrame bytes { s with inputs := rest } = .next t) : StepTo s t := by
  unfold bindFrame at h
  split at h
  · cases h
  · split at h
    · next hlen => cases h; exact .frame rest _ (.inl ⟨bytes, hlen, rfl⟩)
    · cases h

theorem pokeFrame_stepTo {s t : State} {a : Nat} {b : Byte} {rest : List HostInput}
    (h : pokeFrame a b { s with inputs := rest } = .next t) : StepTo s t := by
  unfold pokeFrame at h
  split at h
  · cases h
  · split at h
    · next ha => cases h; exact .frame rest _ (.inr ⟨a, b, ha, rfl⟩)
    · cases h

/-- Every next state of a step is reached in one of these ways. -/
theorem step_stepTo {s t : State} (h : step s = .next t) : StepTo s t := by
  unfold step takeInput at h
  split at h
  · cases h; exact .queue s.inputs
  · split at h
    · split at h
      · cases h; exact waitBusy_stepTo s
      · next hbusy => exact takeWord_stepTo (by simpa using hbusy) h
    · cases h; exact .queue _
  · cases h; exact .read _ _
  · exact bindFrame_stepTo h
  · exact pokeFrame_stepTo h
  · cases h; exact .powerOn _
  · cases h; exact .blockReset _

/-- Settles O42: no move of the host and no reset writes the configuration, and no command does. -/
theorem noStepChangesTheConfiguration : Obligations.NoStepChangesTheConfiguration := by
  intro s t h
  cases step_stepTo h with
  | command rest w i t hbusy hexec => exact (exec_cfg hexec :)
  | queue | read | frame | powerOn | blockReset | illegal => rfl

end Sys2Proof.Machine
end

section
/-! SUPPORT. The machine's invariant (10_state.md R41, R32): its part that every primitive update keeps, its part that each body
keeps from one pause between commands to the next, and the step. -/

namespace Sys2Proof.Machine

/-! ### The part every primitive update keeps -/

/-- A legal configuration, FRAME and DCS within their ranges (R62, R68), and the reserved bits of FLT and PORT at 0. -/
abbrev StaticInv (s : State) : Prop :=
  s.cfg.wf = true ∧ MemoryInv s ∧ s.flt &&& 0xF0 = 0 ∧ s.port &&& 0xFE = 0

theorem bit_reserved (m : Misuse) : m.bit &&& 0xF0 = 0 := by cases m <;> decide

theorem or_bit_reserved {flt : Byte} (m : Misuse) (h : flt &&& 0xF0 = 0) : (flt ||| m.bit) &&& 0xF0 = 0 := by
  rw [BitVec.and_or_distrib_right, h, bit_reserved]
  decide

theorem setPue_reserved {port : Byte} (h : port &&& 0xFE = 0) : setPue port &&& 0xFE = 0 := by
  rw [setPue, BitVec.and_or_distrib_right, h]
  decide

theorem static_refuse {s : State} (m : Misuse) (h : StaticInv s) : StaticInv { refuse m s with busy := false } := by
  obtain ⟨hw, hm, hflt, hport⟩ := h
  exact ⟨hw, hm, or_bit_reserved m hflt, hport⟩

theorem static_issue (k : PhaseKind) (b : Byte) {s : State} (h : StaticInv s) :
    StaticInv { issue k b s with bus := (Bus.ask s.cfg s.trace k (shown k b) s.bus).2 } := by
  obtain ⟨hw, ⟨hfwf, hfb, hdcs⟩, hflt, hport⟩ := h
  have hd := ask_ok s.trace k (shown k b) hw hdcs
  cases k <;> exact ⟨hw, ⟨hfwf, hfb, hd⟩, hflt, hport⟩

theorem static_closed : Closed fun s t => StaticInv s → StaticInv t where
  refl _ := id
  trans _ _ _ h h' := h' ∘ h
  refused m _ := static_refuse m
  accept _ := id
  finish _ _ := id
  init _ h := ⟨h.1, h.2.1, h.2.2.1, setPue_reserved h.2.2.2⟩
  issue k b _ := static_issue k b
  complete _ _ _ _ := id
  txn _ _ := id
  stop _ := id
  opened _ _ := id
  abort _ := id
  index _ _ := id
  initd _ := id
  closed _ _ := id
  sess _ _ := id
  counters _ _ _ _ := id

/-! ### The part each body keeps -/

/-- R41 I6 and I7, wherever BUSY is not looked at. -/
abbrev OpenInv (s : State) : Prop :=
  s.strm ≠ .none → (s.abrt = false → s.txn = .addrW) ∧ (s.abrt = true → s.txn = .idle ∨ s.txn = .addrW)

/-- What a body starts from and ends in: the invariant's clauses on the session, TXN, TRACE, the counters and CTRL, with no phase
pending and the table index at 0. -/
structure Paused (s : State) : Prop where
  session : SessionInv s
  stream : OpenInv s
  pend : s.pend = none
  tix : s.tix = 0
  trace : TraceInv s
  counters : CounterInv s
  ctrl : s.ctrl ∈ legalCtrl

/-- What a body hangs in: the clauses that do not wait for its end. -/
structure Stalled (s : State) : Prop where
  session : SessionInv s
  trace : TraceInv s
  counters : CounterInv s

/-- The (SESS, STRM) pairs of a session between streams (R41 I1 to I3). -/
theorem sess_of_closed {s : State} (h : SessionInv s) (hstrm : s.strm = .none) : s.sess = .off ∨ s.sess = .onCommand := by
  obtain ⟨-, hini, hdata, -⟩ := h
  rcases hs : s.sess with _ | _ | _ | _
  · exact .inl rfl
  · rw [hini hs] at hstrm; cases hstrm
  · exact .inr rfl
  · rw [hdata.1 hs] at hstrm; cases hstrm

/-- With no stream open the session clauses say that SESS is one of the two, and ABRT = INITD = 0. -/
theorem sessionInv_closed {s : State} (hsess : s.sess = .off ∨ s.sess = .onCommand) (hstrm : s.strm = .none) (ha : s.abrt = false)
    (hi : s.initd = false) : SessionInv s := by
  rcases hsess with hs | hs <;> simp [SessionInv, hs, hstrm, ha, hi]

/-- The session that a stream of that mode belongs to (R41 I1 to I3). -/
def FitsMode (mode : Strm) (sess : Sess) : Prop :=
  (mode = .cmd ∧ (sess = .initializing ∨ sess = .onCommand)) ∨ (mode = .data ∧ sess = .onData)

theorem sessionInv_open {s : State} (h : FitsMode s.strm s.sess) (hi : s.initd = true → s.strm = .cmd) (hx : s.txn ≠ .addrR) :
    SessionInv s := by
  rcases h with ⟨hm, hs | hs⟩ | ⟨hm, hs⟩
  · simp [SessionInv, hm, hs, hx]
  · simp [SessionInv, hm, hs, hx]
  · rw [hm] at hi
    have hi : s.initd = false := by simpa using hi
    simp [SessionInv, hm, hs, hi, hx]

theorem fitsMode_of_open {s : State} (h : SessionInv s) (hstrm : s.strm ≠ .none) : FitsMode s.strm s.sess := by
  obtain ⟨hoff, hini, hdata, -⟩ := h
  rcases hm : s.strm with _ | _ | _
  · exact absurd hm hstrm
  · refine .inl ⟨rfl, ?_⟩
    rcases hs : s.sess with _ | _ | _ | _
    · exact absurd (hoff hs) hstrm
    · exact .inl rfl
    · exact .inr rfl
    · rw [hdata.1 hs] at hm; cases hm
  · exact .inr ⟨rfl, hdata.2 hm⟩

/-- A command stream is opened from either of the closed sessions (R153). -/
theorem fitsMode_sessForCommands {s : State} (h : s.sess = .off ∨ s.sess = .onCommand) :
    FitsMode .cmd (sessForCommands s).sess := by
  rcases h with h | h <;> simp [FitsMode, sessForCommands, h]

theorem openInv_closed {s : State} (h : s.strm = .none) : OpenInv s := fun hne => absurd h hne

/-- The counters' clause looks at PG, COL, CUR and the configuration alone. -/
theorem counterInv_of_eq {s t : State} (h : CounterInv s) (hc : t.cfg = s.cfg) (hk : countersOf t = countersOf s) :
    CounterInv t := by
  have h1 : t.pg = s.pg := congrArg (fun x => x.1) hk
  have h2 : t.col = s.col := congrArg (fun x => x.2.1) hk
  have h3 : t.cur = s.cur := congrArg (fun x => x.2.2) hk
  unfold CounterInv
  rw [hc, h1, h2, h3]
  exact h

theorem countersOf_of_tagsOf {s t : State} (h : tagsOf t = tagsOf s) : countersOf t = countersOf s :=
  congrArg (fun x => (x.1, x.2.1, x.2.2.1)) h

/-- The trace clause after more events. -/
theorem traceInv_append {s t : State} {es : List Event} (h : TraceInv s) (hc : t.cfg = s.cfg) (ht : t.trace = s.trace ++ es)
    (hes : replay s.cfg s.txn es = some t.txn) : TraceInv t := by
  unfold TraceInv
  rw [hc, ht, replay_append es h]
  exact hes

/-- What an engine command and a streamed byte leave alone. -/
structure SameSession (s t : State) : Prop where
  cfg : t.cfg = s.cfg
  sess : t.sess = s.sess
  strm : t.strm = s.strm
  initd : t.initd = s.initd
  tags : tagsOf t = tagsOf s

/-- A phase or a Stop within a session: the clauses hold after it if they do of TXN, ABRT and CTRL, which it may have changed. -/
theorem paused_of_sameSession {s t : State} {es : List Event} (h : Paused s) (hsame : SameSession s t)
    (ht : t.trace = s.trace ++ es) (hes : replay s.cfg s.txn es = some t.txn) (hr : t.txn = .addrR → t.strm = .none)
    (ha : t.abrt = true → t.strm ≠ .none) (ho : OpenInv t) (hp : t.pend = none) (hc : t.ctrl ∈ legalCtrl) : Paused t where
  session := by
    obtain ⟨hoff, hini, hdata, -, hinitd, -⟩ := h.session
    refine ⟨?_, ?_, ?_, ha, ?_, hr⟩
    · rw [hsame.sess, hsame.strm]; exact hoff
    · rw [hsame.sess, hsame.strm]; exact hini
    · rw [hsame.sess, hsame.strm]; exact hdata
    · rw [hsame.initd, hsame.strm]; exact hinitd
  stream := ho
  pend := hp
  tix := (congrArg (fun x => x.2.2.2) hsame.tags).trans h.tix
  trace := traceInv_append h.trace hsame.cfg ht hes
  counters := counterInv_of_eq h.counters hsame.cfg (countersOf_of_tagsOf hsame.tags)
  ctrl := hc

/-! ### The engine's bodies (R138 to R142) -/

theorem initPeripheral_paused {s : State} (h : Paused s) : Paused (initPeripheral s) where
  session := h.session
  stream := h.stream
  pend := h.pend
  tix := h.tix
  trace := h.trace
  counters := h.counters
  ctrl := by simp only [initPeripheral_ctrl]; decide

/-- A phase that hangs leaves all but the bus and its own registers. -/
theorem issue_stalled {s : State} (k : PhaseKind) (b : Byte) (bus : Bus) (h : Paused s) :
    Stalled { issue k b s with bus := bus } := by
  cases k <;> exact ⟨h.session, h.trace, h.counters⟩

/-- ABRT is 0 where no stream is open (R41 I4). -/
theorem abrt_of_closed {s : State} (h : SessionInv s) (hstrm : s.strm = .none) : s.abrt = true → s.strm ≠ .none := by
  obtain ⟨-, -, -, habrt, -⟩ := h
  exact fun ha => absurd hstrm (habrt ha)

theorem sendStart_paused {s : State} (h : Paused s) (hstrm : s.strm = .none) (htxn : s.txn = .idle) :
    (sendStart s).Ends (fun _ t => Paused t) Stalled True := by
  rcases sendStart_cases s with ⟨bus, -, he⟩ | ⟨st, bus, -, he⟩ <;> rw [he]
  · exact issue_stalled _ _ bus h
  · refine paused_of_sameSession (es := [.s st]) h ⟨rfl, rfl, rfl, rfl, rfl⟩ rfl ?_ (fun _ => hstrm)
      (abrt_of_closed h.session hstrm :) (openInv_closed hstrm) rfl ?_
    · by_cases hc : classify s.cfg .start 0#1 st = .ack <;> simp [replay, traceStep, htxn, hc]
    · show issueCtrl .start ||| 0x80 ∈ legalCtrl
      decide

theorem sendAddress_paused (a : BitVec 7) (d : BitVec 1) {s : State} (h : Paused s) (hstrm : s.strm = .none)
    (htxn : s.txn = .started) : (sendAddress a d s).Ends (fun _ t => Paused t) Stalled True := by
  rcases sendAddress_cases a d s with ⟨bus, -, he⟩ | ⟨st, bus, -, he⟩ <;> rw [he]
  · exact issue_stalled _ _ bus h
  · refine paused_of_sameSession (es := [.a (addrByte a d) st]) h ⟨rfl, rfl, rfl, rfl, rfl⟩ rfl ?_ (fun _ => hstrm)
      (abrt_of_closed h.session hstrm :) (openInv_closed hstrm) rfl ?_
    · simp [replay, traceStep, htxn, dirBit_addrByte]
    · show issueCtrl .address ||| 0x80 ∈ legalCtrl
      decide

theorem sendByte_paused (b : Byte) {s : State} (h : Paused s) (hstrm : s.strm = .none) (htxn : s.txn = .addrW) :
    (sendByte b s).Ends (fun _ t => Paused t) Stalled True := by
  rcases sendByte_cases b s with ⟨bus, -, he⟩ | ⟨st, bus, -, he⟩ <;> rw [he]
  · exact issue_stalled _ _ bus h
  · refine paused_of_sameSession (es := [.d b st]) h ⟨rfl, rfl, rfl, rfl, rfl⟩ rfl ?_ (fun _ => hstrm)
      (abrt_of_closed h.session hstrm :) (openInv_closed hstrm) rfl ?_
    · simp [replay, traceStep, htxn]
    · show issueCtrl .data ||| 0x80 ∈ legalCtrl
      decide

theorem sendStop_paused {s : State} (h : Paused s) (hstrm : s.strm = .none) : Paused (sendStop s) :=
  paused_of_sameSession (es := [.p]) h ⟨rfl, rfl, rfl, rfl, rfl⟩ rfl (replay_stop _ _) nofun
    (abrt_of_closed h.session hstrm :) (openInv_closed hstrm) h.pend (by show stopCtrl ∈ legalCtrl; decide)

/-! ### The session's bodies (R153 to R158) -/

/-- An open from a pause, the session it belongs to being entered first (R153, R154, R171). -/
theorem beginStream_paused {s : State} {mode : Strm} {sess : Sess} (cb : Byte) (h : Paused s) (htxn : s.txn = .idle)
    (hfit : FitsMode mode sess) :
    (beginStream cb mode { s with sess := sess }).Ends (fun _ t => Paused t) Stalled True := by
  have hb := begin_spec cb mode { s with sess := sess }
  rcases hbe : beginStream cb mode { s with sess := sess } with ⟨r, t⟩ | t | e <;> rw [hbe] at hb
  · obtain ⟨es, ht, -, -, -, -, hab, hm, hi, htg, hro, hp, hokc, hc, hx, hrp⟩ := hb
    have hcfg : t.cfg = s.cfg := (restOpen_cfg hro :)
    have hidle : t.txn = .addrW ∨ t.txn = .idle := hx.imp_right fun hx => hx.trans htxn
    exact {
      session := by
        refine sessionInv_open (by rw [hm, restOpen_sess hro]; exact hfit) (by simp [hi]) fun hr => ?_
        rcases hidle with hx | hx <;> rw [hx] at hr <;> cases hr
      stream := fun _ => ⟨fun ha => (hokc (by simpa [ha] using hab)).2, fun _ => hidle.symm⟩
      pend := hp
      tix := (congrArg (fun x => x.2.2.2) htg).trans h.tix
      trace := traceInv_append h.trace hcfg ht (by rw [htxn]; exact hrp htxn)
      counters := counterInv_of_eq h.counters hcfg (countersOf_of_tagsOf htg)
      ctrl := by rcases hc with hc | hc <;> rw [hc] <;> decide }
  · obtain ⟨es, ht, hack, -, hm, hi, htg, hro, -, hrp⟩ := hb
    have hcfg : t.cfg = s.cfg := (restOpen_cfg hro :)
    exact {
      session := by
        refine sessionInv_open (by rw [hm, restOpen_sess hro]; exact hfit) (by simp [hi]) fun hr => ?_
        exact acked_wire_txn hack (by rw [hrp htxn, hr])
      trace := traceInv_append h.trace hcfg ht (by rw [htxn]; exact hrp htxn)
      counters := counterInv_of_eq h.counters hcfg (countersOf_of_tagsOf htg) }
  · trivial

/-- A byte streamed while ABRT = 0 leaves TXN in AddrW (R41 I6). -/
theorem writeByte_paused (b : Byte) {s : State} (h : Paused s) (hstrm : s.strm ≠ .none) :
    (writeByte b s).Ends (fun _ t => Paused t) Stalled True := by
  cases ha : s.abrt with
  | true => rw [writeByte_skipped b ha]; exact h
  | false =>
    have htxn : s.txn = .addrW := (h.stream hstrm).1 ha
    have hctrl : issueCtrl .data ||| 0x80 ∈ legalCtrl := by decide
    have hreplay : ∀ st, replay s.cfg s.txn [.d b st] = some s.txn := fun st => by simp [replay, traceStep, htxn]
    have hread : s.txn = .addrR → s.strm = .none := by rw [htxn]; nofun
    rcases writeByte_cases b s ha with ⟨bus, -, he⟩ | ⟨st, bus, -, he⟩ <;> rw [he]
    · exact issue_stalled _ _ bus h
    · split
      · exact paused_of_sameSession (es := [.d b st]) h ⟨rfl, rfl, rfl, rfl, rfl⟩ rfl (hreplay st) hread (fun _ => hstrm)
          (fun _ => ⟨fun _ => htxn, fun _ => .inr htxn⟩) rfl hctrl
      · exact paused_of_sameSession (es := [.d b st]) h ⟨rfl, rfl, rfl, rfl, rfl⟩ rfl (hreplay st) hread (fun _ => hstrm)
          (fun _ => ⟨fun _ => htxn, fun _ => .inr htxn⟩) rfl hctrl

theorem writeTable_paused {s : State} (h : Paused s) (hstrm : s.strm = .cmd) :
    (writeTable s).Ends (fun _ t => Paused t) Stalled True := by
  have hopen : s.strm ≠ .none := by rw [hstrm]; nofun
  cases ha : s.abrt with
  | true => rw [writeTable_skipped ha]; exact h
  | false =>
    have htxn : s.txn = .addrW := (h.stream hopen).1 ha
    have hfit := fitsMode_of_open h.session hopen
    rw [writeTable_stream s ha]
    have hs := stream_spec (tableTags s) 0 s.cfg.initTable s ha
    rcases hse : stream (tableTags s) 0 s.cfg.initTable s with ⟨r, t⟩ | t | e <;> rw [hse] at hs
    · obtain ⟨es, ht, hf, -, -, -, -, htg, hre, hp, hc⟩ := hs
      have hx : t.txn = .addrW := (rest_txn hre).trans htxn
      have hcfg : t.cfg = s.cfg := rest_cfg hre
      have hcmd : t.strm = .cmd := (rest_strm hre).trans hstrm
      have key : ∀ x, Paused { t with tix := 0, initd := x } := fun x => {
        session := sessionInv_open (by show FitsMode t.strm t.sess; rw [rest_strm hre, rest_sess hre]; exact hfit)
          (fun _ => hcmd) (by show t.txn ≠ _; rw [hx]; nofun)
        stream := fun _ => ⟨fun _ => hx, fun _ => .inr hx⟩
        pend := hp h.pend
        tix := rfl
        trace := traceInv_append h.trace hcfg ht (by rw [htxn]; exact (replay_follows hf).trans (congrArg some hx.symm))
        counters := counterInv_of_eq h.counters hcfg (congrArg (fun x => (x.1, x.2.1, x.2.2.1)) htg)
        ctrl := by
          show t.ctrl ∈ legalCtrl
          rcases hc with hc | hc <;> rw [hc]
          · decide
          · exact h.ctrl }
      cases r with
      | ok => exact key true
      | failed o k => exact key t.initd
      | skipped => exact key t.initd
    · obtain ⟨es, ht, hf, -, htg, hre, -⟩ := hs
      have hx : t.txn = .addrW := (rest_txn hre).trans htxn
      have hcfg : t.cfg = s.cfg := rest_cfg hre
      exact {
        session := sessionInv_open (by rw [rest_strm hre, rest_sess hre]; exact hfit)
          (fun _ => (rest_strm hre).trans hstrm) (by rw [hx]; nofun)
        trace := traceInv_append h.trace hcfg ht (by rw [htxn]; exact (replay_acked hf).trans (congrArg some hx.symm))
        counters := counterInv_of_eq h.counters hcfg (congrArg (fun x => (x.1, x.2.1, x.2.2.1)) htg) }
    · trivial

/-- The session after a Stop is closed, whatever stream it had open (R152). -/
theorem sessAfterEnd_closed {mode : Strm} {sess : Sess} (initd : Bool) (h : FitsMode mode sess) :
    sessAfterEnd sess initd = .off ∨ sessAfterEnd sess initd = .onCommand := by
  rcases h with ⟨-, rfl | rfl⟩ | ⟨-, rfl⟩ <;> cases initd <;> simp [sessAfterEnd]

theorem endStream_paused {s : State} (h : Paused s) (hstrm : s.strm ≠ .none) : Paused (endStream s) where
  session := sessionInv_closed (sessAfterEnd_closed _ (fitsMode_of_open h.session hstrm)) rfl rfl rfl
  stream := openInv_closed rfl
  pend := h.pend
  tix := h.tix
  trace := traceInv_append h.trace rfl rfl (replay_stop _ _)
  counters := h.counters
  ctrl := by simp only [endStream_ctrl]; decide

/-- Dropping the session from two states that agree but for what an open writes. -/
theorem restOpen_cfg_sess {s t : State} {x : Sess} (h : restOpen { t with sess := x } = restOpen s) : t.cfg = s.cfg :=
  (restOpen_cfg h :)

theorem initSequence_paused {s : State} (h : Paused s) (hstrm : s.strm = .none) (htxn : s.txn = .idle) :
    (initSequence s).Ends (fun _ t => Paused t) Stalled True := by
  have hfit := fitsMode_sessForCommands (sess_of_closed h.session hstrm)
  have hi := init_spec s
  rcases hie : initSequence s with ⟨r, t⟩ | t | e <;> rw [hie] at hi
  · obtain ⟨es, ht, -, -, hsess, hst, hab, hin, hx, hc, hp, hk, htix, hro, hrp⟩ := hi
    have hcfg : t.cfg = s.cfg := restOpen_cfg_sess hro
    rw [List.append_assoc] at ht
    exact {
      session := sessionInv_closed (by rw [hsess]; exact sessAfterEnd_closed _ hfit) hst hab hin
      stream := openInv_closed hst
      pend := hp
      tix := htix h.tix
      trace := traceInv_append h.trace hcfg ht (by rw [htxn, hx]; exact hrp htxn)
      counters := counterInv_of_eq h.counters hcfg hk
      ctrl := by rw [hc]; decide }
  · obtain ⟨es, ht, hack, -, hst, hin, hro, hk, -, hrp⟩ := hi
    have hcfg : t.cfg = s.cfg := (restOpen_cfg hro :)
    exact {
      session := by
        refine sessionInv_open (by rw [hst, restOpen_sess hro]; exact hfit) (by simp [hin]) fun hr => ?_
        exact acked_wire_txn hack (by rw [hrp htxn, hr])
      trace := traceInv_append h.trace hcfg ht (by rw [htxn]; exact hrp htxn)
      counters := counterInv_of_eq h.counters hcfg hk }
  · trivial

/-! ### The frame commands' bodies (R171) -/

/-- The counters after n frame bytes (R32). -/
theorem counterInv_of_count {s t : State} {n : Nat} (hw : s.cfg.wf = true) (hn : n ≤ s.cfg.fbLen) (hcfg : t.cfg = s.cfg)
    (hk : countersOf t = (BitVec.ofNat 16 (n / s.cfg.w), BitVec.ofNat 16 (n % s.cfg.w), BitVec.ofNat 16 n)) : CounterInv t := by
  obtain ⟨hpg, hcol, hcur, hsum, hpage, hcolumn⟩ := counters_fit hw hn hk
  unfold CounterInv
  rw [hcfg, hpg, hcol, hcur]
  exact ⟨hsum, hpage, hcolumn, hn⟩

theorem wirePlan_length (p : Params) (cb : Byte) (bs : List Byte) : (wirePlan p cb bs).length = bs.length + 3 := by
  simp [wirePlan]

/-- A plan that ended has no more Acknowledged phases than it plans. -/
theorem ackCount_le {p : Params} {plan : List Planned} {es : List Event} (h : follows p plan es = true) :
    ackCount p es ≤ plan.length := by
  by_cases h0 : firstFailure p es = 0
  · exact (ackCount_of_follows h h0).1.le
  · exact (ackCount_of_failed h h0).le

theorem emitFrame_paused {src : State → Nat → Option Byte} {f : Nat → Byte} {s : State} (hw : s.cfg.wf = true)
    (hsrc : Sources src f s) (h : Paused s) (htxn : s.txn = .idle) :
    (emitFrame src s).Ends (fun _ t => Paused t) Stalled True := by
  have hg := wf_geometry hw
  have hi := frame_spec s hsrc hg.2.2.2 hg.1
  have hplan : (wirePlan s.cfg Config.cbData ((List.range s.cfg.fbLen).map f)).length = s.cfg.fbLen + 3 := by
    simp [wirePlan_length]
  rcases hie : emitFrame src s with ⟨r, t⟩ | t | e <;> rw [hie] at hi
  · obtain ⟨es, ht, hf, -, hsess, hst, hab, hin, hx, hc, hp, hk, htix, hro, hrp⟩ := hi
    have hcfg : t.cfg = s.cfg := restOpen_cfg_sess hro
    have hcount := ackCount_le hf
    rw [List.append_assoc] at ht
    exact {
      session := sessionInv_closed (.inr hsess) hst hab hin
      stream := openInv_closed hst
      pend := hp
      tix := htix.trans h.tix
      trace := traceInv_append h.trace hcfg ht (by rw [htxn, hx]; exact hrp htxn)
      counters := counterInv_of_count hw (by omega) hcfg hk
      ctrl := by rw [hc]; decide }
  · obtain ⟨es, ht, hack, -, hst, hin, -, hsess, hro, hk, -, hrp⟩ := hi
    have hcfg : t.cfg = s.cfg := restOpen_cfg_sess hro
    have hcount := acked_length hack
    exact {
      session := by
        refine sessionInv_open (by rw [hst, hsess]; exact .inr ⟨rfl, rfl⟩) (by simp [hin]) fun hr => ?_
        exact acked_wire_txn hack (by rw [hrp htxn, hr])
      trace := traceInv_append h.trace hcfg ht (by rw [htxn]; exact hrp htxn)
      counters := counterInv_of_count hw (by omega) hcfg hk }
  · trivial

/-! ### Every command -/

/-- What each body ends in and hangs in, from a pause between commands in which its checks pass. -/
theorem bodyOf_paused (i : Instr) {s : State} (hw : s.cfg.wf = true) (h : Paused s) (hc : checksOf i s = none) :
    (bodyOf i s).Ends (fun _ t => Paused t) Stalled True := by
  cases i with
  | binit => exact initPeripheral_paused h
  | start =>
    obtain ⟨-, hstrm, htxn⟩ := ready_of_checks hc
    exact ends_andThen (sendStart_paused h hstrm htxn) (fun _ h => h) fun _ _ h => h
  | addr a d =>
    obtain ⟨-, hc⟩ := passed_enabled hc
    obtain ⟨hstrm, hc⟩ := passed_noStream hc
    exact ends_andThen (sendAddress_paused a d h hstrm (passed_txn hc).1) (fun _ h => h) fun _ _ h => h
  | byte b =>
    obtain ⟨-, hc⟩ := passed_enabled hc
    obtain ⟨hstrm, hc⟩ := passed_noStream hc
    exact ends_andThen (sendByte_paused b h hstrm (passed_txn hc).1) (fun _ h => h) fun _ _ h => h
  | stop =>
    obtain ⟨-, hc⟩ := passed_enabled hc
    exact sendStop_paused h (passed_noStream hc).1
  | beginc =>
    obtain ⟨-, hstrm, htxn⟩ := ready_of_checks hc
    exact ends_andThen (beginStream_paused _ h htxn (fitsMode_sessForCommands (sess_of_closed h.session hstrm)))
      (fun _ h => h) fun _ _ h => h
  | begind =>
    obtain ⟨⟨-, -, htxn⟩, -⟩ := frameReady_of_checks hc
    exact ends_andThen (beginStream_paused _ h htxn (.inr ⟨rfl, rfl⟩)) (fun _ h => h) fun _ _ h => h
  | wstri b =>
    obtain ⟨-, hc⟩ := passed_enabled hc
    exact ends_andThen (writeByte_paused b h (passed_stream hc).1) (fun _ h => h) fun _ _ h => h
  | wstrt =>
    obtain ⟨-, hc⟩ := passed_enabled hc
    exact ends_andThen (writeTable_paused h (passed_cmdStream hc).1) (fun _ h => h) fun _ _ h => h
  | endCmd =>
    obtain ⟨-, hc⟩ := passed_enabled hc
    exact endStream_paused h (passed_stream hc).1
  | init =>
    obtain ⟨-, hstrm, htxn⟩ := ready_of_checks hc
    exact initSequence_paused h hstrm htxn
  | xfer =>
    obtain ⟨⟨-, -, htxn⟩, -⟩ := frameReady_of_checks hc
    exact emitFrame_paused hw (sources_xfer s) h htxn
  | clear =>
    obtain ⟨⟨-, -, htxn⟩, -⟩ := frameReady_of_checks hc
    exact emitFrame_paused hw (sources_clear s) h htxn
  | fill =>
    obtain ⟨⟨-, -, htxn⟩, -⟩ := frameReady_of_checks hc
    exact emitFrame_paused hw (sources_fill s) h htxn

theorem paused_of_inv {s : State} (h : Inv s) (hbusy : s.busy = false) : Paused s := by
  obtain ⟨-, hsess, hstrm, ⟨hpend, -, htix⟩, htrace, -, hcount, ⟨hctrl, -⟩, -⟩ := h
  exact ⟨hsess, hstrm hbusy, by simpa [hbusy] using hpend.symm, htix hbusy, htrace, hcount, hctrl⟩

/-- None of these clauses looks at RES or BUSY. -/
theorem paused_with {s : State} (r : Byte) (busy : Bool) (h : Paused s) : Paused { s with res := r, busy := busy } where
  session := h.session
  stream := h.stream
  pend := h.pend
  tix := h.tix
  trace := h.trace
  counters := h.counters
  ctrl := h.ctrl

theorem static_of_inv {s : State} (h : Inv s) : StaticInv s := by
  obtain ⟨hw, -, -, -, -, -, -, ⟨-, -, hflt, hport⟩, hmem⟩ := h
  exact ⟨hw, hmem, hflt, hport⟩

/-- The invariant of a command that ended, from its parts: EN is 1 after every command that was accepted. -/
theorem inv_of_paused {s : State} (hst : StaticInv s) (h : Paused s) (hbusy : s.busy = false) (hen : ctrlEn s.ctrl = true)
    (hres : s.res ∈ legalRes) : Inv s := by
  obtain ⟨hw, hmem, hflt, hport⟩ := hst
  refine ⟨hw, h.session, fun _ => h.stream, ⟨by rw [hbusy, h.pend]; rfl, by simp [hbusy], fun _ => h.tix⟩, h.trace, ?_, h.counters,
    ⟨h.ctrl, hres, hflt, hport⟩, hmem⟩
  intro hdis
  rw [hen] at hdis
  cases hdis

/-- The invariant of a command that hangs, from its parts. -/
theorem inv_of_stalled {s t : State} (hst : StaticInv t) (h : Stalled t) (hh : HungIn s t) (hres : s.res ∈ legalRes) : Inv t := by
  obtain ⟨hw, hmem, hflt, hport⟩ := hst
  obtain ⟨⟨hbusy, hsame, -⟩, k, hpend, hctrl⟩ := hh
  refine ⟨hw, h.session, by simp [StreamInv, hbusy], ⟨by rw [hbusy, hpend]; rfl, fun _ => ?_, by simp [hbusy]⟩, h.trace, ?_,
    h.counters, ⟨?_, ?_, hflt, hport⟩, hmem⟩
  · rw [hctrl]; exact issueCtrl_rdy k
  · intro hdis
    rw [hctrl, issueCtrl_en] at hdis
    cases hdis
  · rw [hctrl]; exact issueCtrl_legal k
  · rw [hsame]; exact hres

theorem inv_refused {s : State} (m : Misuse) (h : Inv s) (hbusy : s.busy = false) : Inv { refuse m s with busy := false } := by
  obtain ⟨hw, hmem, hflt, hport⟩ := static_refuse m (static_of_inv h)
  obtain ⟨-, hsess, hstrm, hb, htrace, hen, hcount, ⟨hctrl, -⟩, -⟩ := h
  rw [← hbusy] at hmem ⊢
  exact ⟨hw, hsess, hstrm, hb, htrace, hen, hcount, ⟨hctrl, by show resRefused ∈ legalRes; decide, hflt, hport⟩, hmem⟩

/-- Every command keeps the invariant, from every state between commands that has it. -/
theorem exec_inv {i : Instr} {s t : State} (h : Inv s) (hbusy : s.busy = false) (he : exec i s = .next t) : Inv t := by
  have hst : StaticInv t := exec_closed static_closed he (static_of_inv h)
  have hen : checksOf i s = none → ctrlEn t.ctrl = true := fun hc => (onlyBinitEnables i s t he).2 <| by
    by_cases hi : i = .binit
    · subst hi; exact .inr ⟨rfl, checksOf_binit.1 hc⟩
    · exact .inl (enabled_of_accepted hi hc)
  have hp : Paused { s with busy := true } := paused_with s.res true (paused_of_inv h hbusy)
  obtain ⟨hw, hres⟩ : s.cfg.wf = true ∧ s.res ∈ legalRes := by
    obtain ⟨hw, -, -, -, -, -, -, ⟨-, hres, -⟩, -⟩ := h
    exact ⟨hw, hres⟩
  have hends := fun hc : checksOf i s = none => ends_and
    (bodyOf_paused i (s := { s with busy := true }) hw hp ((checksOf_busy i s).trans hc))
    (bodyOf_keeps (running_keeps s) i (s := { s with busy := true }) ⟨rfl, rfl, rfl⟩)
  rcases exec_next_ends he hends with ⟨m, -, rfl⟩ | ⟨hc, ⟨r, u, ⟨hu, -, hr⟩, rfl⟩ | ⟨ht, hh⟩⟩
  · exact inv_refused m h hbusy
  · exact inv_of_paused hst (paused_with r false hu) rfl (hen hc) (legalRes_of_endedRes _ hr).1
  · exact inv_of_stalled hst ht hh hres

/-! ### Reset and the host's moves -/

/-- The block's reset values meet the invariant on any legal configuration and memory (R44, R220). -/
theorem resetBlock_inv {s : State} (hw : s.cfg.wf = true) (hm : MemoryInv s) : Inv (resetBlock s) := by
  have hg := wf_geometry hw
  refine ⟨hw, ?session, fun _ hne => absurd rfl hne, ⟨rfl, nofun, fun _ => rfl⟩, rfl, fun _ => ⟨rfl, rfl, rfl, rfl, rfl⟩, ?counters,
    ?registers, hm⟩
  case session => exact sessionInv_closed (.inl rfl) rfl rfl rfl
  case counters => exact ⟨(Nat.zero_mul _).symm, Nat.zero_le _, hg.1, Nat.zero_le _⟩
  case registers =>
    simp only [RegisterInv, resetBlock_ctrl, resetBlock_res, resetBlock_flt, resetBlock_port]
    decide

theorem dcs_reset_ok {p : Params} (hw : p.wf = true) (n : Nat) : DcsOk p (Dcs.reset n) :=
  ⟨rfl, rfl, wf_pages hw, (wf_geometry hw).1⟩

/-- What a block-only reset finds in the display is within its ranges (R68, R221). -/
theorem dcs_arbitrary_ok {p : Params} (hw : p.wf = true) (n : Nat) : DcsOk p (Dcs.arbitrary p n) :=
  ⟨rfl, rfl, Nat.mod_lt _ (wf_pages hw), Nat.mod_lt _ (wf_geometry hw).1⟩

theorem memoryInv_with_dcs {s : State} {bus : Bus} (n : Nat) (hm : MemoryInv s) (hd : DcsOk s.cfg bus.dcs) :
    MemoryInv { s with bus := bus, draws := n } := by
  obtain ⟨hwf, hbelow, -⟩ := hm
  exact ⟨hwf, hbelow, hd⟩

theorem powerOnReset_inv {s : State} (h : Inv s) : Inv (powerOnReset s) := by
  obtain ⟨hw, hm, -⟩ := static_of_inv h
  exact resetBlock_inv (s := { s with bus := _, draws := _ }) hw (memoryInv_with_dcs _ hm (dcs_reset_ok hw _))

theorem blockOnlyReset_inv {s : State} (h : Inv s) : Inv (blockOnlyReset s) := by
  obtain ⟨hw, hm, -⟩ := static_of_inv h
  exact resetBlock_inv (s := { s with bus := _, draws := _ }) hw (memoryInv_with_dcs _ hm (dcs_arbitrary_ok hw _))

/-- The memory a host move leaves is canonical and inside the space (R62). -/
theorem frameMove_ok {s : State} {m : List Host.Cell} (h : Inv s) (hm : FrameMove s m) :
    Memory.wf m = true ∧ Memory.below s.cfg.fbLen m = true := by
  obtain ⟨-, ⟨hwf, hbelow, -⟩, -⟩ := static_of_inv h
  rcases hm with ⟨bytes, hlen, rfl⟩ | ⟨a, b, ha, rfl⟩
  · have := below_ofBytes 0 bytes
    rw [Nat.zero_add, hlen] at this
    exact ⟨wf_ofBytes 0 bytes, this⟩
  · exact ⟨wf_write hwf a b, below_write b hbelow ha⟩

theorem inv_with_frame {s : State} {m : List Host.Cell} (rest : List HostInput) (h : Inv s) (hm : FrameMove s m) :
    Inv { s with inputs := rest, frame := m } := by
  obtain ⟨hwf, hbelow⟩ := frameMove_ok h hm
  obtain ⟨hw, hsess, hstrm, hb, htrace, hen, hcount, hreg, -, -, hdcs⟩ := h
  exact ⟨hw, hsess, hstrm, hb, htrace, hen, hcount, hreg, hwf, hbelow, hdcs⟩

/-- Settles O39: each way a step can go keeps the invariant; a command does by `exec_inv`. -/
theorem stepKeepsTheInvariant : Obligations.StepKeepsTheInvariant := by
  intro s t h hstep
  cases step_stepTo hstep with
  | queue rest => exact h
  | read n rest => exact h
  | frame rest m hm => exact inv_with_frame rest h hm
  | powerOn rest => exact powerOnReset_inv (s := { s with inputs := rest }) h
  | blockReset rest => exact blockOnlyReset_inv (s := { s with inputs := rest }) h
  | illegal rest w hbusy => exact inv_refused (s := { s with inputs := rest, cmd := w }) .ill h hbusy
  | command rest w i t hbusy he => exact exec_inv (s := { s with inputs := rest, cmd := w }) h hbusy he

/-! ### The state after reset -/

/-- The defaults of R7 to R10 are legal, whatever bytes INIT_TABLE holds. -/
theorem default_wf : Params.default.wf = true := by
  have hg : Params.default.geometryOk = true := by decide
  have hc : Params.default.codesOk = true := by decide
  have ht : Params.default.tableOk = true := by
    simp [Params.tableOk, Params.initLen, Params.default, Config.initTable]
  rw [Params.wf, hg, hc, ht]
  rfl

/-- Settles O40: State.reset is the block's reset of itself, on the default configuration and an empty memory. -/
theorem resetHasTheInvariant : Obligations.ResetHasTheInvariant :=
  resetBlock_inv (s := State.reset) default_wf ⟨rfl, rfl, dcs_reset_ok default_wf 0⟩

end Sys2Proof.Machine
end

section
/-! SUPPORT. Classification (40 R133), the transform (42 R170), and the commands of one phase: the whole next state of each for
every answer of the environment. -/

namespace Sys2Proof.Machine

/-! ### Classification (R133) -/

/-- A phase's success code and NACK code differ (R9). -/
theorem wf_ack_ne_nack {p : Params} (h : p.wf = true) :
    p.stSlawAck ≠ p.stSlawNack ∧ p.stSlarAck ≠ p.stSlarNack ∧ p.stDataAck ≠ p.stDataNack := by
  simp only [Params.wf, Params.codesOk, Params.codes, distinct, Bool.and_eq_true, List.all_cons, decide_eq_true_eq] at h
  tauto

/-- A Start is acknowledged or unexpected. -/
theorem classify_start (p : Params) (d : BitVec 1) (st : Byte) :
    classify p .start d st = if st &&& p.stMask = p.stStart then .ack else .unexpected := rfl

theorem classify_write (p : Params) (st : Byte) :
    classify p .address 0 st =
      if st &&& p.stMask = p.stSlawAck then .ack else if st &&& p.stMask = p.stSlawNack then .nack else .unexpected := rfl

theorem classify_read (p : Params) (st : Byte) :
    classify p .address 1 st =
      if st &&& p.stMask = p.stSlarAck then .ack else if st &&& p.stMask = p.stSlarNack then .nack else .unexpected := rfl

theorem classify_data (p : Params) (d : BitVec 1) (st : Byte) :
    classify p .data d st =
      if st &&& p.stMask = p.stDataAck then .ack else if st &&& p.stMask = p.stDataNack then .nack else .unexpected := rfl

theorem classify_start_ack (p : Params) (d : BitVec 1) (st : Byte) :
    classify p .start d st = .ack ↔ st &&& p.stMask = p.stStart := by
  rw [classify_start]
  split <;> simp [*]

/-- An Outcome read off two codes, the success code first. -/
def outcomeOf (c ack nack : Byte) : PhaseOutcome := if c = ack then .ack else if c = nack then .nack else .unexpected

theorem outcomeOf_ack_iff (c ack nack : Byte) : outcomeOf c ack nack = .ack ↔ c = ack := by
  unfold outcomeOf
  split
  · next h => simp [h]
  · next h => split <;> simp [h]

theorem outcomeOf_nack_iff {c ack nack : Byte} (hne : ack ≠ nack) : outcomeOf c ack nack = .nack ↔ c = nack := by
  unfold outcomeOf
  split
  · next h => simp [h, hne]
  · split <;> simp [*]

/-- Settles O17: each phase kind is read off its own two codes, which differ; a Start has one code only. -/
theorem classifyFollowsTheTable : Obligations.ClassifyFollowsTheTable := by
  intro p st hw
  obtain ⟨hslaw, hslar, hdata⟩ := wf_ack_ne_nack hw
  exact ⟨fun d => classify_start_ack p d st, fun d => classify_start_ne_nack p d st, outcomeOf_ack_iff _ _ _,
    outcomeOf_nack_iff hslaw, outcomeOf_ack_iff _ _ _, outcomeOf_nack_iff hslar, fun _ => outcomeOf_ack_iff _ _ _,
    fun _ => outcomeOf_nack_iff hdata⟩

/-- RES of a Start (R34, R133). -/
theorem resOf_classify_start (p : Params) (st : Byte) :
    resOf (classify p .start 0#1 st) .start = if st &&& p.stMask = p.stStart then 0x00 else 0x06 := by
  rw [classify_start]
  split <;> rfl

/-- RES of an Address phase (R34, R133). -/
theorem resOf_classify_address (p : Params) (d : BitVec 1) (st : Byte) :
    resOf (classify p .address d st) .address =
      if st &&& p.stMask = (if d = 0 then p.stSlawAck else p.stSlarAck) then 0x00
      else if st &&& p.stMask = (if d = 0 then p.stSlawNack else p.stSlarNack) then 0x09 else 0x0A := by
  by_cases hd : d = 0
  · subst hd
    rw [classify_write, if_pos rfl, if_pos rfl]
    split
    · rfl
    · split <;> rfl
  · obtain rfl : d = 1 := (BitVec.eq_zero_or_eq_one d).resolve_left hd
    rw [classify_read, if_neg hd, if_neg hd]
    split
    · rfl
    · split <;> rfl

/-- RES of a Data phase (R34, R133). -/
theorem resOf_classify_data (p : Params) (st : Byte) :
    resOf (classify p .data 0#1 st) .data =
      if st &&& p.stMask = p.stDataAck then 0x00 else if st &&& p.stMask = p.stDataNack then 0x0D else 0x0E := by
  rw [classify_data]
  split
  · rfl
  · split <;> rfl

/-! ### The transform (R170) -/

theorem transform_of_invert {p : Params} (h : p.invert = true) (b : Byte) : transform p b = ~~~b := by
  rw [transform, if_pos h]

theorem transform_of_plain {p : Params} (h : p.invert = false) (b : Byte) : transform p b = b := by
  rw [transform, h]; rfl

/-- Settles O34: by INVERT; the complement is its own inverse. -/
theorem transformIsComplement : Obligations.TransformIsComplement := by
  intro p b
  refine ⟨fun h => ⟨transform_of_invert h b, ?xor⟩, fun h => transform_of_plain h b, ?involution, fun h => ?values⟩
  case xor => rw [transform_of_invert h, ← BitVec.xor_allOnes]; rfl
  case involution =>
    cases h : p.invert with
    | true => rw [transform_of_invert h, transform_of_invert h, BitVec.not_not]
    | false => rw [transform_of_plain h, transform_of_plain h]
  case values =>
    simp only [transform_of_invert h]
    decide

/-! ### BINIT (R138) -/

theorem exec_binit_accepted {s : State} (hstrm : s.strm = .none) (htxn : s.txn = .idle) :
    exec .binit s = .next { s with
      br := s.cfg.brDiv, brWritten := true, port := s.port ||| 0x01, ctrl := 0x04, res := 0x03, busy := false } :=
  exec_of_done (checksOf_binit.2 ⟨hstrm, htxn⟩) rfl

/-- Settles O19: the two checks in their order; PORT's bit is set once and for all. -/
theorem binitInitialisesThePeripheral : Obligations.BinitInitialisesThePeripheral := by
  refine ⟨by decide, fun s => ⟨fun hstrm => ?seq, fun hstrm htxn => ?proto, exec_binit_accepted, fun hstrm htxn t ht => ?again⟩⟩
  case seq => exact exec_of_refused (m := .seq) (by rw [checksOf, needNoStream_of_open hstrm, firstOf_some])
  case proto =>
    exact exec_of_refused (m := .proto) (by
      rw [checksOf, needNoStream_of_closed hstrm, needTxn_of_ne htxn, firstOf_none, firstOf_some])
  case again =>
    rw [exec_binit_accepted hstrm htxn] at ht
    cases ht
    have hport : s.port ||| 0x01 ||| 0x01 = s.port ||| 0x01 := by rw [BitVec.or_assoc, BitVec.or_self]
    have hagain : exec .binit { s with
        br := s.cfg.brDiv, brWritten := true, port := s.port ||| 0x01, ctrl := 0x04, res := 0x03, busy := false } = _ :=
      exec_binit_accepted hstrm htxn
    rw [hagain, hport]

/-! ### The checks of the engine's phase commands (R139 to R141) -/

/-- The checks EN, then no stream, then TXN: what they answer in each case. -/
theorem engineChecks_notEnabled {s : State} {l : List (Option Misuse)} (h : ctrlEn s.ctrl = false) :
    firstOf (needEnabled s :: l) = some .noinit := by
  rw [needEnabled_of_disabled h, firstOf_some]

theorem engineChecks_open {s : State} {l : List (Option Misuse)} (h : ctrlEn s.ctrl = true) (hstrm : s.strm ≠ .none) :
    firstOf (needEnabled s :: needNoStream s :: l) = some .seq := by
  rw [needEnabled_of_enabled h, needNoStream_of_open hstrm, firstOf_none, firstOf_some]

theorem engineChecks_txn {s : State} {x : Txn} {l : List (Option Misuse)} (h : ctrlEn s.ctrl = true) (hstrm : s.strm = .none)
    (htxn : s.txn ≠ x) : firstOf (needEnabled s :: needNoStream s :: needTxn x s :: l) = some .proto := by
  rw [needEnabled_of_enabled h, needNoStream_of_closed hstrm, needTxn_of_ne htxn, firstOf_none, firstOf_none, firstOf_some]

theorem engineChecks_pass {s : State} {x : Txn} (h : ctrlEn s.ctrl = true) (hstrm : s.strm = .none)
    (htxn : s.txn = x) : firstOf [needEnabled s, needNoStream s, needTxn x s] = none := by
  rw [needEnabled_of_enabled h, needNoStream_of_closed hstrm, needTxn_of_eq htxn]; rfl

/-! ### A completed phase, field by field (R132) -/

theorem completed_start (st : Byte) (bus : Bus) (s : State) :
    complete .start 0 st { issue .start 0 s with bus := bus } =
      { s with ctrl := 0xA4, stat := st, pend := none, bus := bus, trace := s.trace ++ [.s st] } := by
  simp only [complete, issue, eventOf, issueCtrl_start_complete]

theorem completed_address (b st : Byte) (bus : Bus) (s : State) :
    complete .address b st { issue .address b s with bus := bus } =
      { s with
        data := b, dataWritten := true, ctrl := 0x84, stat := st, pend := none, bus := bus, trace := s.trace ++ [.a b st] } := by
  simp only [complete, issue, eventOf, issueCtrl_address_complete]

theorem completed_data (b st : Byte) (bus : Bus) (s : State) :
    complete .data b st { issue .data b s with bus := bus } =
      { s with
        data := b, dataWritten := true, ctrl := 0x84, stat := st, pend := none, bus := bus, trace := s.trace ++ [.d b st] } := by
  simp only [complete, issue, eventOf, issueCtrl_data_complete]

/-! ### START (R139) -/

theorem sendStart_of_done {s : State} {st : Byte} {bus : Bus} (h : Bus.ask s.cfg s.trace .start 0 s.bus = (.done st, bus)) :
    sendStart s = .done (classify s.cfg .start 0#1 st)
      { s with
        ctrl := 0xA4, stat := st, pend := none, bus := bus, trace := s.trace ++ [.s st]
        txn := if st &&& s.cfg.stMask = s.cfg.stStart then .started else s.txn } := by
  rcases sendStart_cases s with ⟨bus', h', he⟩ | ⟨st', bus', h', he⟩ <;> rw [h] at h' <;> cases h'
  rw [he, completed_start]
  simp only [classify_start_ack]

theorem sendStart_of_never {s : State} {bus : Bus} (h : Bus.ask s.cfg s.trace .start 0 s.bus = (.never, bus)) :
    sendStart s = .hung { issue .start 0 s with bus := bus } := by
  rcases sendStart_cases s with ⟨bus', h', he⟩ | ⟨st', bus', h', he⟩ <;> rw [h] at h' <;> cases h'
  exact he

/-- Settles O20: by what the checks answer, and then by what the environment does with the one phase. -/
theorem startIssuesOneStartPhase : Obligations.StartIssuesOneStartPhase := by
  refine ⟨by decide, fun s => ⟨fun hen => ?notEnabled, fun hen hstrm => ?streamOpen, fun hen hstrm htxn => ?proto,
    fun hen hstrm htxn st bus hask => ?ended, fun hen hstrm htxn bus hask => ?hung⟩⟩
  case notEnabled => exact exec_of_refused (m := .noinit) (engineChecks_notEnabled hen)
  case streamOpen => exact exec_of_refused (m := .seq) (engineChecks_open hen hstrm)
  case proto => exact exec_of_refused (m := .proto) (engineChecks_txn hen hstrm htxn)
  case ended =>
    have hb : bodyOf .start { s with busy := true } = _ :=
      congrArg (fun r => r.andThen fun o u => .done (resOf o .start) u) (sendStart_of_done (s := { s with busy := true }) hask)
    refine (exec_of_done (i := .start) (s := s) (engineChecks_pass hen hstrm htxn) hb).trans ?_
    simp only [resOf_classify_start, htxn]
  case hung =>
    have hb : bodyOf .start { s with busy := true } = _ :=
      congrArg (fun r => r.andThen fun o u => .done (resOf o .start) u) (sendStart_of_never (s := { s with busy := true }) hask)
    exact exec_of_hung (i := .start) (s := s) (engineChecks_pass hen hstrm htxn) hb

/-! ### ADDR (R140) -/

theorem sendAddress_of_done {a : BitVec 7} {d : BitVec 1} {s : State} {st : Byte} {bus : Bus}
    (h : Bus.ask s.cfg s.trace .address (addrByte a d) s.bus = (.done st, bus)) :
    sendAddress a d s = .done (classify s.cfg .address d st)
      { s with
        data := addrByte a d, dataWritten := true, ctrl := 0x84, stat := st, pend := none, bus := bus
        trace := s.trace ++ [.a (addrByte a d) st], txn := txnAfterAddress d } := by
  rcases sendAddress_cases a d s with ⟨bus', h', he⟩ | ⟨st', bus', h', he⟩ <;> rw [h] at h' <;> cases h'
  rw [he, completed_address]

theorem sendAddress_of_never {a : BitVec 7} {d : BitVec 1} {s : State} {bus : Bus}
    (h : Bus.ask s.cfg s.trace .address (addrByte a d) s.bus = (.never, bus)) :
    sendAddress a d s = .hung { issue .address (addrByte a d) s with bus := bus } := by
  rcases sendAddress_cases a d s with ⟨bus', h', he⟩ | ⟨st', bus', h', he⟩ <;> rw [h] at h' <;> cases h'
  exact he

/-- The word of a command is its opcode in the high byte and its argument in the low one (R100). -/
theorem encode_eq_shift_or (i : Instr) : encode i = (i.opcode.setWidth 16 <<< 8) ||| i.argument.setWidth 16 := by
  rw [← BitVec.setWidth_append_eq_shiftLeft_setWidth_or, BitVec.setWidth_eq]
  rfl

theorem encode_addr (a : BitVec 7) (d : BitVec 1) :
    encode (.addr a d) = 0x1100 ||| (a.setWidth 16 <<< 1) ||| d.setWidth 16 := by
  have hop : (Instr.addr a d).opcode.setWidth 16 <<< 8 = (0x1100 : Word) := rfl
  rw [encode_eq_shift_or, hop, BitVec.or_assoc]
  exact congrArg _ BitVec.setWidth_append_eq_shiftLeft_setWidth_or

/-- With a read address on the bus every command but STOP is refused: no check allows TXN = AddrR (R140). -/
theorem refused_of_addrR {s : State} (hen : ctrlEn s.ctrl = true) (hstrm : s.strm = .none) (htxn : s.txn = .addrR) {i : Instr}
    (hi : i ≠ .stop) : ∃ m, checksOf i s = some m := by
  have hx : ∀ x, x ≠ Txn.addrR → needTxn x s = some .proto := fun x hx => needTxn_of_ne (htxn ▸ hx.symm)
  have hcmd : needCmdStream s = some .seq := by simp [needCmdStream, hstrm]
  cases i with
  | stop => exact absurd rfl hi
  | binit | start | addr | byte | beginc | begind | init | xfer | clear | fill =>
    exact ⟨.proto, by simp [checksOf, frameChecks, needEnabled_of_enabled hen, needNoStream_of_closed hstrm, hx]⟩
  | wstri | wstrt | endCmd =>
    exact ⟨.seq, by simp [checksOf, needEnabled_of_enabled hen, needStream_of_closed hstrm, hcmd]⟩

/-- Settles O21: by what the checks answer, and then by what the environment does with the one phase. -/
theorem addrIssuesOneAddressPhase : Obligations.AddrIssuesOneAddressPhase := by
  refine fun s a d => ⟨encode_addr a d, fun hen hstrm htxn i hi => ?addrR, fun hen => ?notEnabled, fun hen hstrm => ?streamOpen,
    fun hen hstrm htxn => ?proto, fun hen hstrm htxn st bus hask => ?ended, fun hen hstrm htxn bus hask => ?hung⟩
  case addrR =>
    obtain ⟨m, hm⟩ := refused_of_addrR hen hstrm htxn hi
    exact ⟨m, exec_of_refused hm⟩
  case notEnabled => exact exec_of_refused (m := .noinit) (engineChecks_notEnabled hen)
  case streamOpen => exact exec_of_refused (m := .seq) (engineChecks_open hen hstrm)
  case proto => exact exec_of_refused (m := .proto) (engineChecks_txn hen hstrm htxn)
  case ended =>
    have hb : bodyOf (.addr a d) { s with busy := true } = _ :=
      congrArg (fun r => r.andThen fun o u => .done (resOf o .address) u)
        (sendAddress_of_done (s := { s with busy := true }) hask)
    refine (exec_of_done (i := .addr a d) (s := s) (engineChecks_pass hen hstrm htxn) hb).trans ?_
    simp only [resOf_classify_address]
    rfl
  case hung =>
    have hb : bodyOf (.addr a d) { s with busy := true } = _ :=
      congrArg (fun r => r.andThen fun o u => .done (resOf o .address) u)
        (sendAddress_of_never (s := { s with busy := true }) hask)
    exact exec_of_hung (i := .addr a d) (s := s) (engineChecks_pass hen hstrm htxn) hb

/-! ### BYTE (R141) -/

theorem sendByte_of_done {b : Byte} {s : State} {st : Byte} {bus : Bus}
    (h : Bus.ask s.cfg s.trace .data b s.bus = (.done st, bus)) :
    sendByte b s = .done (classify s.cfg .data 0#1 st) { s with
      data := b, dataWritten := true, ctrl := 0x84, stat := st, pend := none, bus := bus, trace := s.trace ++ [.d b st] } := by
  rcases sendByte_cases b s with ⟨bus', h', he⟩ | ⟨st', bus', h', he⟩ <;> rw [h] at h' <;> cases h'
  rw [he, completed_data]

theorem sendByte_of_never {b : Byte} {s : State} {bus : Bus} (h : Bus.ask s.cfg s.trace .data b s.bus = (.never, bus)) :
    sendByte b s = .hung { issue .data b s with bus := bus } := by
  rcases sendByte_cases b s with ⟨bus', h', he⟩ | ⟨st', bus', h', he⟩ <;> rw [h] at h' <;> cases h'
  exact he

theorem encode_byte (b : Byte) : encode (.byte b) = 0x1200 ||| b.setWidth 16 := by
  rw [encode_eq_shift_or]
  rfl

/-- Settles O22: by what the checks answer, and then by what the environment does with the one phase. -/
theorem byteIssuesOneDataPhase : Obligations.ByteIssuesOneDataPhase := by
  refine fun s b => ⟨encode_byte b, fun hen => ?notEnabled, fun hen hstrm => ?streamOpen,
    fun hen hstrm htxn => ?proto, fun hen hstrm htxn st bus hask => ?ended, fun hen hstrm htxn bus hask => ?hung⟩
  case notEnabled => exact exec_of_refused (m := .noinit) (engineChecks_notEnabled hen)
  case streamOpen => exact exec_of_refused (m := .seq) (engineChecks_open hen hstrm)
  case proto => exact exec_of_refused (m := .proto) (engineChecks_txn hen hstrm htxn)
  case ended =>
    have hb : bodyOf (.byte b) { s with busy := true } = _ :=
      congrArg (fun r => r.andThen fun o u => .done (resOf o .data) u) (sendByte_of_done (s := { s with busy := true }) hask)
    refine (exec_of_done (i := .byte b) (s := s) (engineChecks_pass hen hstrm htxn) hb).trans ?_
    simp only [resOf_classify_data]
  case hung =>
    have hb : bodyOf (.byte b) { s with busy := true } = _ :=
      congrArg (fun r => r.andThen fun o u => .done (resOf o .data) u) (sendByte_of_never (s := { s with busy := true }) hask)
    exact exec_of_hung (i := .byte b) (s := s) (engineChecks_pass hen hstrm htxn) hb

/-! ### WSTRI (R155) -/

theorem streamChecks_pass {s : State} (h : ctrlEn s.ctrl = true) (hstrm : s.strm ≠ .none) :
    firstOf [needEnabled s, needStream s] = none := by
  rw [needEnabled_of_enabled h, needStream_of_open hstrm]; rfl

/-- A streamed byte that is answered: ABRT is set exactly if it is not Acknowledged, and RES is the phase's (R151, R155). -/
theorem bodyOf_wstri_of_done {b : Byte} {s : State} {st : Byte} {bus : Bus} (ha : s.abrt = false)
    (h : Bus.ask s.cfg s.trace .data b s.bus = (.done st, bus)) :
    bodyOf (.wstri b) s = .done (resOf (classify s.cfg .data 0#1 st) .data)
      { s with
        data := b, dataWritten := true, ctrl := 0x84, stat := st, pend := none, bus := bus, trace := s.trace ++ [.d b st]
        abrt := decide (st &&& s.cfg.stMask ≠ s.cfg.stDataAck) } := by
  rcases writeByte_cases b s ha with ⟨bus', h', -⟩ | ⟨st', bus', h', he⟩ <;> rw [h] at h' <;> cases h'
  simp only [bodyOf, he, completed_data]
  split
  · next hack =>
    have hst := (outcomeOf_ack_iff _ _ _).1 hack
    have habrt : decide (st &&& s.cfg.stMask ≠ s.cfg.stDataAck) = false := by simp [hst]
    rw [habrt, ← ha, hack]
    rfl
  · next hack =>
    have hst : st &&& s.cfg.stMask ≠ s.cfg.stDataAck := fun hst => hack ((outcomeOf_ack_iff _ _ _).2 hst)
    rw [decide_eq_true hst]
    rfl

theorem bodyOf_wstri_of_never {b : Byte} {s : State} {bus : Bus} (ha : s.abrt = false)
    (h : Bus.ask s.cfg s.trace .data b s.bus = (.never, bus)) :
    bodyOf (.wstri b) s = .hung { issue .data b s with bus := bus } := by
  rcases writeByte_cases b s ha with ⟨bus', h', he⟩ | ⟨st', bus', h', -⟩ <;> rw [h] at h' <;> cases h'
  simp only [bodyOf, he, andThen_hung]

/-- Settles O26: by what the checks answer, by ABRT, and then by what the environment does with the one phase. -/
theorem wstriStreamsOneByte : Obligations.WstriStreamsOneByte := by
  refine fun s b => ⟨fun hen => ?notEnabled, fun hen hstrm => ?noStream, fun hen hstrm ha => ?skipped,
    fun hen hstrm ha st bus hask => ?ended, fun hen hstrm ha bus hask => ?hung⟩
  case notEnabled => exact exec_of_refused (m := .noinit) (engineChecks_notEnabled hen)
  case noStream =>
    exact exec_of_refused (m := .seq) (by
      rw [checksOf, needEnabled_of_enabled hen, needStream_of_closed hstrm, firstOf_none, firstOf_some])
  case skipped =>
    exact exec_of_done (i := .wstri b) (s := s) (u := { s with busy := true }) (streamChecks_pass hen hstrm)
      (bodyOf_wstri_skipped (s := { s with busy := true }) b ha)
  case ended =>
    refine (exec_of_done (i := .wstri b) (s := s) (streamChecks_pass hen hstrm)
      (bodyOf_wstri_of_done (s := { s with busy := true }) ha hask)).trans ?_
    simp only [resOf_classify_data]
  case hung =>
    exact exec_of_hung (i := .wstri b) (s := s) (streamChecks_pass hen hstrm)
      (bodyOf_wstri_of_never (s := { s with busy := true }) ha hask)

end Sys2Proof.Machine
end

section
/-! SUPPORT. What each group of commands leaves unchanged, the legality matrix (60 R195), and the session's transition table
(41 R159). -/

namespace Sys2Proof.Machine

/-! ### The engine's commands (R138 to R142) -/

/-- Settles O45: the engine's bodies are one update or one phase each, so every end and every hang is written out. -/
theorem engineCommandsFrame : Obligations.EngineCommandsFrame := by
  intro i s t hi h
  rcases exec_next_cases h with ⟨m, -, rfl⟩ | ⟨-, hout⟩
  · exact ⟨rfl, rfl, rfl, rfl, rfl, rfl, rfl, rfl, rfl, rfl, rfl, rfl, rfl, fun _ => rfl, fun _ => ⟨rfl, rfl, rfl⟩,
      fun _ => ⟨rfl, rfl⟩, fun _ => ⟨rfl, rfl⟩, fun _ => ⟨rfl, rfl, rfl⟩, fun _ _ => rfl, .inr ⟨m, rfl⟩⟩
  rcases hi with rfl | rfl | ⟨a, d, rfl⟩ | ⟨b, rfl⟩ | rfl
  case inl =>
    rcases hout with ⟨r, u, hb, rfl⟩ | hb <;> cases hb
    exact ⟨rfl, rfl, rfl, rfl, rfl, rfl, rfl, rfl, rfl, rfl, rfl, rfl, rfl, fun _ => rfl, fun hne => absurd rfl hne,
      fun _ => ⟨rfl, rfl⟩, fun _ => ⟨rfl, rfl⟩, fun _ => ⟨rfl, rfl, rfl⟩, nofun, .inl rfl⟩
  case inr.inl =>
    simp only [bodyOf] at hout
    rcases sendStart_cases { s with busy := true } with ⟨bus, -, he⟩ | ⟨st, bus, -, he⟩ <;> rw [he] at hout <;>
      rcases hout with ⟨r, u, hb, rfl⟩ | hb <;> cases hb <;>
      exact ⟨rfl, rfl, rfl, rfl, rfl, rfl, rfl, rfl, rfl, rfl, rfl, rfl, rfl, fun _ => rfl, fun _ => ⟨rfl, rfl, rfl⟩,
        by simp, fun _ => ⟨rfl, rfl⟩, nofun, nofun, .inl rfl⟩
  case inr.inr.inl =>
    simp only [bodyOf] at hout
    rcases sendAddress_cases a d { s with busy := true } with ⟨bus, -, he⟩ | ⟨st, bus, -, he⟩ <;> rw [he] at hout <;>
      rcases hout with ⟨r, u, hb, rfl⟩ | hb <;> cases hb <;>
      exact ⟨rfl, rfl, rfl, rfl, rfl, rfl, rfl, rfl, rfl, rfl, rfl, rfl, rfl, fun _ => rfl, fun _ => ⟨rfl, rfl, rfl⟩,
        by simp, by simp, nofun, nofun, .inl rfl⟩
  case inr.inr.inr.inl =>
    simp only [bodyOf] at hout
    rcases sendByte_cases b { s with busy := true } with ⟨bus, -, he⟩ | ⟨st, bus, -, he⟩ <;> rw [he] at hout <;>
      rcases hout with ⟨r, u, hb, rfl⟩ | hb <;> cases hb <;>
      exact ⟨rfl, rfl, rfl, rfl, rfl, rfl, rfl, rfl, rfl, rfl, rfl, rfl, rfl, fun _ => rfl, fun _ => ⟨rfl, rfl, rfl⟩,
        by simp, by simp, nofun, fun _ _ => rfl, .inl rfl⟩
  case inr.inr.inr.inr =>
    rcases hout with ⟨r, u, hb, rfl⟩ | hb <;> cases hb
    exact ⟨rfl, rfl, rfl, rfl, rfl, rfl, rfl, rfl, rfl, rfl, rfl, rfl, rfl, fun _ => rfl, fun _ => ⟨rfl, rfl, rfl⟩,
      fun _ => ⟨rfl, rfl⟩, fun _ => ⟨rfl, rfl⟩, nofun, nofun, .inl rfl⟩

/-! ### What streams leave alone -/

/-- What of a state phases, opens, streams and ends leave alone: the state with all they write blotted out. The counters and the
table index are kept: only some of the streams write them. -/
def outside (s : State) : State :=
  { restOpen s with sess := .off, res := 0, busy := false, pg := s.pg, col := s.col, cur := s.cur, tix := s.tix }

theorem outside_phase {k : PhaseKind} {b : Byte} {s : State} {bus : Bus} {a : Answer}
    (h : Bus.ask s.cfg s.trace k (shown k b) s.bus = (a, bus)) : outside { issue k b s with bus := bus } = outside s := by
  have hk := ask_kind_of h
  cases k <;> simp [outside, restOpen, rest, issue, hk]

/-- Whatever is read off `outside` is kept. -/
theorem outside_keeps {α : Type} (f : State → α) (s : State) :
    Keeps (fun t => f (outside t) = f (outside s)) (fun t => f (outside t) = f (outside s)) where
  hang _ _ _ _ ht ha := by rw [outside_phase ha]; exact ht
  phase k b st t bus ht ha := by
    have hc : outside (complete k b st { issue k b t with bus := bus }) = outside { issue k b t with bus := bus } := rfl
    rw [hc, outside_phase ha]
    exact ht
  txn _ _ ht := ht
  opened _ _ ht := ht
  abort _ ht := ht
  ended _ ht := ht
  sess _ _ ht := ht

/-- `outside` without the table index. -/
def outsideIndex (s : State) : State := { outside s with tix := 0 }

/-- `outside` without the counters. -/
def outsideCounters (s : State) : State := { outside s with pg := 0, col := 0, cur := 0 }

/-- The commands of the display session (R153 to R158). -/
def SessionCommand (i : Instr) : Prop :=
  i = .beginc ∨ i = .begind ∨ (∃ b, i = .wstri b) ∨ i = .wstrt ∨ i = .endCmd ∨ i = .init

/-- A session command that is not refused leaves alone all that is outside the session but the table index. -/
theorem sessionCommand_outside {i : Instr} {s : State} (hi : SessionCommand i) :
    (bodyOf i s).Ends (fun _ t => outsideIndex t = outsideIndex s) (fun t => outsideIndex t = outsideIndex s) True := by
  have hK : Keeps (fun t => outsideIndex t = outsideIndex s) (fun t => outsideIndex t = outsideIndex s) :=
    outside_keeps (fun t => { t with tix := 0 }) s
  have hT : ∀ i x t, outsideIndex t = outsideIndex s → outsideIndex { t with tix := i, initd := x } = outsideIndex s :=
    fun _ _ _ ht => ht
  rcases hi with rfl | rfl | ⟨b, rfl⟩ | rfl | rfl | rfl
  · exact ends_andThen (keeps_beginStream hK _ _ (hK.sess _ s rfl)) (fun _ h => h) fun _ _ h => h.1
  · exact ends_andThen (keeps_beginStream hK _ _ (hK.sess .onData s rfl)) (fun _ h => h) fun _ _ h => h.1
  · exact ends_andThen (keeps_writeByte hK b rfl) (fun _ h => h) fun _ _ h => h.1
  · exact ends_andThen (keeps_writeTable hK hT rfl) (fun _ h => h) fun _ _ h => h.1
  · exact hK.ended s rfl
  · exact ends_mono (keeps_initSequence hK hT rfl) (fun _ _ h => h.1) fun _ h => h

/-- The index too, unless the command streams the table. -/
theorem sessionCommand_tix {i : Instr} {s : State} (hi : SessionCommand i) (hw : i ≠ .wstrt) (hn : i ≠ .init) :
    (bodyOf i s).Ends (fun _ t => t.tix = s.tix) (fun t => t.tix = s.tix) True := by
  have hK : Keeps (fun t => t.tix = s.tix) (fun t => t.tix = s.tix) := outside_keeps State.tix s
  rcases hi with rfl | rfl | ⟨b, rfl⟩ | rfl | rfl | rfl
  · exact ends_andThen (keeps_beginStream hK _ _ (hK.sess _ s rfl)) (fun _ h => h) fun _ _ h => h.1
  · exact ends_andThen (keeps_beginStream hK _ _ (hK.sess .onData s rfl)) (fun _ h => h) fun _ _ h => h.1
  · exact ends_andThen (keeps_writeByte hK b rfl) (fun _ h => h) fun _ _ h => h.1
  · exact absurd rfl hw
  · exact hK.ended s rfl
  · exact absurd rfl hn

/-- A streamed byte leaves alone what a stream does (R151). -/
theorem writeByte_rest (b : Byte) (s : State) :
    (writeByte b s).Ends (fun _ t => rest t = rest s) (fun t => rest t = rest s) True := by
  cases ha : s.abrt with
  | true => rw [writeByte_skipped b ha]; rfl
  | false =>
    rcases writeByte_cases b s ha with ⟨bus, h, he⟩ | ⟨st, bus, h, he⟩ <;> rw [he] <;> have hk := ask_kind_of h
    · simp [rest, issue, hk]
    · split <;> simp [rest, complete, issue, hk]

/-- The table stream leaves alone what a stream does, but for INITD (R156). -/
theorem writeTable_rest (s : State) :
    (writeTable s).Ends (fun _ t => t.sess = s.sess ∧ t.strm = s.strm ∧ t.txn = s.txn)
      (fun t => t.sess = s.sess ∧ t.strm = s.strm ∧ t.txn = s.txn) True := by
  have hrest : ∀ {t}, rest t = rest s → t.sess = s.sess ∧ t.strm = s.strm ∧ t.txn = s.txn :=
    fun h => ⟨rest_sess h, rest_strm h, rest_txn h⟩
  cases ha : s.abrt with
  | true => rw [writeTable_skipped ha]; exact ⟨rfl, rfl, rfl⟩
  | false =>
    rw [writeTable_stream s ha]
    have hs := stream_spec (tableTags s) 0 s.cfg.initTable s ha
    rcases hse : stream (tableTags s) 0 s.cfg.initTable s with ⟨r, t⟩ | t | e <;> rw [hse] at hs
    · obtain ⟨es, -, -, -, -, -, -, -, hre, -⟩ := hs
      cases r <;> exact (hrest hre :)
    · obtain ⟨es, -, -, -, -, hre, -⟩ := hs
      exact hrest hre
    · trivial

/-- SESS, STRM and TXN under the commands that write into an open stream, and INITD under WSTRI. -/
theorem streamWrite_session {i : Instr} {s : State} (hi : (∃ b, i = .wstri b) ∨ i = .wstrt) :
    (bodyOf i s).Ends (fun _ t => t.sess = s.sess ∧ t.strm = s.strm ∧ t.txn = s.txn)
      (fun t => t.sess = s.sess ∧ t.strm = s.strm ∧ t.txn = s.txn) True := by
  rcases hi with ⟨b, rfl⟩ | rfl
  · have hrest : ∀ {t}, rest t = rest s → t.sess = s.sess ∧ t.strm = s.strm ∧ t.txn = s.txn :=
      fun h => ⟨rest_sess h, rest_strm h, rest_txn h⟩
    exact ends_andThen (writeByte_rest b s) (fun _ h => hrest h) fun _ _ h => hrest h
  · exact ends_andThen (writeTable_rest s) (fun _ h => h) fun _ _ h => h

/-- From what a body ends in and hangs in to what the command leaves, where that looks at neither RES nor BUSY. -/
theorem exec_leaves {i : Instr} {s t : State} {P : State → Prop} (h : exec i s = .next t)
    (hc : ∀ m, t ≠ { refuse m s with busy := false })
    (hP : ∀ r busy u, P u → P { u with res := r, busy := busy })
    (hb : (bodyOf i { s with busy := true }).Ends (fun _ u => P u) P True) : P t := by
  rcases exec_next_ends h fun _ => hb with ⟨m, -, rfl⟩ | ⟨-, ⟨r, u, hu, rfl⟩ | ht⟩
  · exact absurd rfl (hc m)
  · exact hP r false u hu
  · exact ht

/-- Settles O46: a refused command apart, the clauses are read off what the body leaves alone. -/
theorem sessionCommandsFrame : Obligations.SessionCommandsFrame := by
  intro i s t hi h
  by_cases hm : ∃ m, t = { refuse m s with busy := false }
  · obtain ⟨m, rfl⟩ := hm
    exact ⟨rfl, rfl, rfl, rfl, rfl, rfl, rfl, rfl, rfl, rfl, rfl, fun _ => rfl, fun _ _ => rfl, fun _ => ⟨rfl, rfl, rfl⟩,
      fun _ _ => rfl, fun _ => ⟨rfl, rfl, rfl, rfl⟩, .inr ⟨m, rfl⟩⟩
  have hm : ∀ m, t ≠ { refuse m s with busy := false } := fun m he => hm ⟨m, he⟩
  have hout : outsideIndex t = outsideIndex s :=
    exec_leaves (P := fun t => outsideIndex t = outsideIndex s) h hm (fun _ _ _ hu => hu)
      (sessionCommand_outside (s := { s with busy := true }) hi)
  have hf : ∀ {α : Type} (f : State → α), f (outsideIndex t) = f (outsideIndex s) := fun f => congrArg f hout
  refine ⟨hf State.cfg, hf State.br, hf State.port, hf State.brWritten,
    hf State.pg, hf State.col, hf State.cur, hf State.cmd, hf State.inputs,
    hf State.rdata, hf State.draws, fun a => ?frame, fun hw hn => ?index, fun hi => ?session, fun b hi => ?initd,
    fun hi => ?ended, .inl (hf State.flt)⟩
  case frame =>
    have hframe : t.frame = s.frame := hf State.frame
    rw [hframe]
  case index =>
    exact exec_leaves (P := fun t => t.tix = s.tix) h hm (fun _ _ _ hu => hu)
      (sessionCommand_tix (s := { s with busy := true }) hi hw hn)
  case session =>
    exact exec_leaves (P := fun t => t.sess = s.sess ∧ t.strm = s.strm ∧ t.txn = s.txn) h hm (fun _ _ _ hu => hu)
      (streamWrite_session (s := { s with busy := true }) hi)
  case initd =>
    subst hi
    refine exec_leaves (P := fun t => t.initd = s.initd) h hm (fun _ _ _ hu => hu) ?_
    exact ends_andThen (writeByte_rest b { s with busy := true }) (fun _ h => (rest_initd h :)) fun _ _ h => (rest_initd h :)
  case ended =>
    subst hi
    rcases exec_next_cases h with ⟨m, -, rfl⟩ | ⟨-, ⟨r, u, hb, rfl⟩ | hb⟩
    · exact absurd rfl (hm m)
    · cases hb; exact ⟨rfl, rfl, rfl, rfl⟩
    · cases hb

/-! ### The frame commands (R172 to R174) -/

/-- The three frame commands are one command of three sources: what each checks, does and streams. -/
theorem frameCommand_cases {i : Instr} (hi : i ∈ [Instr.xfer, .clear, .fill]) :
    (∀ s, checksOf i s = frameChecks s) ∧ ∃ src : State → Nat → Option Byte, bodyOf i = emitFrame src ∧
      ∀ s : State, ∃ f : Nat → Byte, Sources src f s ∧ frameBytes i s = (List.range s.cfg.fbLen).map f := by
  simp only [List.mem_cons, List.not_mem_nil, or_false] at hi
  rcases hi with rfl | rfl | rfl
  · exact ⟨fun _ => rfl, frameSource, rfl, fun s => ⟨_, sources_xfer s, rfl⟩⟩
  · exact ⟨fun _ => rfl, clearSource, rfl, fun s => ⟨_, sources_clear s, by simp [frameBytes, constBytes]⟩⟩
  · exact ⟨fun _ => rfl, fillSource, rfl, fun s => ⟨_, sources_fill s, by simp [frameBytes, constBytes]⟩⟩

/-- Settles O47: a refused command apart, the clauses are read off what the body leaves alone. -/
theorem frameCommandsFrame : Obligations.FrameCommandsFrame := by
  intro i s t hi h
  by_cases hm : ∃ m, t = { refuse m s with busy := false }
  · obtain ⟨m, rfl⟩ := hm
    exact ⟨rfl, rfl, rfl, rfl, rfl, rfl, rfl, rfl, rfl, fun _ => rfl, .inr ⟨m, rfl⟩⟩
  have hm : ∀ m, t ≠ { refuse m s with busy := false } := fun m he => hm ⟨m, he⟩
  obtain ⟨-, src, hbody, -⟩ := frameCommand_cases hi
  have hK : Keeps (fun t => outsideCounters t = outsideCounters s) (fun t => outsideCounters t = outsideCounters s) :=
    outside_keeps (fun t => { t with pg := 0, col := 0, cur := 0 }) s
  have hout : outsideCounters t = outsideCounters s := by
    refine exec_leaves (P := fun t => outsideCounters t = outsideCounters s) h hm (fun _ _ _ hu => hu) ?_
    rw [hbody]
    exact ends_mono (keeps_emitFrame hK (fun _ _ _ _ ht => ht) src rfl) (fun _ _ h => h.1) fun _ h => h
  have hf : ∀ {α : Type} (f : State → α), f (outsideCounters t) = f (outsideCounters s) := fun f => congrArg f hout
  refine ⟨hf State.cfg, hf State.br, hf State.port, hf State.brWritten,
    hf State.tix, hf State.cmd, hf State.inputs, hf State.rdata,
    hf State.draws, fun a => ?_, .inl (hf State.flt)⟩
  have hframe : t.frame = s.frame := hf State.frame
  rw [hframe]

/-! ### The legality matrix (R195) -/

/-- With the invariant, the checks of a command are its row of the matrix at the state's column. -/
theorem checksOf_eq_matrix {s : State} (h : Inv s) (i : Instr) : checksOf i s = matrix i (classOf s) := by
  obtain ⟨-, -, -, -, -, hdisabled, -⟩ := h
  unfold EnableInv at hdisabled
  cases hen : ctrlEn s.ctrl with
  | false =>
    obtain ⟨htxn, hstrm, -⟩ := hdisabled hen
    have hclass : classOf s = .notEnabled := by simp [classOf, hen]
    rw [hclass]
    cases i <;> simp [checksOf, frameChecks, matrix, row, needEnabled_of_disabled hen, needNoStream_of_closed hstrm,
      needTxn_of_eq htxn]
  | true =>
    have hpass := needEnabled_of_enabled hen
    cases hstrm : s.strm with
    | cmd =>
      have hclass : classOf s = .strCmd := by simp [classOf, hen, hstrm]
      have hopen : s.strm ≠ .none := by simp [hstrm]
      rw [hclass]
      cases i <;> simp [checksOf, frameChecks, matrix, row, hpass, needNoStream_of_open hopen, needStream_of_open hopen,
        needCmdStream_of_eq hstrm]
    | data =>
      have hclass : classOf s = .strData := by simp [classOf, hen, hstrm]
      have hopen : s.strm ≠ .none := by simp [hstrm]
      have hcmd : needCmdStream s = some .seq := by simp [needCmdStream, hstrm]
      rw [hclass]
      cases i <;> simp [checksOf, frameChecks, matrix, row, hpass, needNoStream_of_open hopen, needStream_of_open hopen, hcmd]
    | none =>
      have hcmd : needCmdStream s = some .seq := by simp [needCmdStream, hstrm]
      have htxns : ∀ x, needTxn x s = if s.txn = x then none else some .proto := fun x => by
        unfold needTxn; split <;> simp [*]
      have hsess : needOnCommand s = if s.sess = .onCommand then none else some .seq := by
        unfold needOnCommand; split <;> simp [*]
      cases htxn : s.txn with
      | idle =>
        by_cases hon : s.sess = .onCommand
        · have hclass : classOf s = .idleOnC := by simp [classOf, hen, hstrm, htxn, hon]
          rw [hclass]
          cases i <;> simp [checksOf, frameChecks, matrix, row, hpass, needNoStream_of_closed hstrm, needStream_of_closed hstrm,
            hcmd, htxns, htxn, hsess, hon]
        · have hclass : classOf s = .idleOff := by simp [classOf, hen, hstrm, htxn, hon]
          rw [hclass]
          cases i <;> simp [checksOf, frameChecks, matrix, row, hpass, needNoStream_of_closed hstrm, needStream_of_closed hstrm,
            hcmd, htxns, htxn, hsess, hon]
      | started =>
        have hclass : classOf s = .started := by simp [classOf, hen, hstrm, htxn]
        rw [hclass]
        cases i <;> simp [checksOf, frameChecks, matrix, row, hpass, needNoStream_of_closed hstrm, needStream_of_closed hstrm,
          hcmd, htxns, htxn]
      | addrW =>
        have hclass : classOf s = .addrW := by simp [classOf, hen, hstrm, htxn]
        rw [hclass]
        cases i <;> simp [checksOf, frameChecks, matrix, row, hpass, needNoStream_of_closed hstrm, needStream_of_closed hstrm,
          hcmd, htxns, htxn]
      | addrR =>
        have hclass : classOf s = .addrR := by simp [classOf, hen, hstrm, htxn]
        rw [hclass]
        cases i <;> simp [checksOf, frameChecks, matrix, row, hpass, needNoStream_of_closed hstrm, needStream_of_closed hstrm,
          hcmd, htxns, htxn]

/-- Settles O41: the matrix says what the checks answer; an accepted command runs (O44) and neither writes FLT nor ends with the
refusal's RES. -/
theorem legalityMatrixHolds : Obligations.LegalityMatrixHolds := by
  intro i s h hbusy
  rw [← checksOf_eq_matrix h i]
  constructor
  · intro m hm
    rw [exec_of_refused hm, ← hbusy]
    rfl
  · intro hc
    obtain ⟨hw, -⟩ := h
    obtain ⟨t, he⟩ := execNeverFaultsOrRefuses i s hw
    refine ⟨t, he, ?_⟩
    rcases exec_outcome he with ⟨m, hm, -⟩ | ⟨-, ⟨-, hres, hflt⟩ | ⟨⟨hbusy, -, hflt⟩, -⟩⟩
    · rw [hc] at hm; cases hm
    · exact ⟨hflt, fun _ => (legalRes_of_endedRes _ hres).2⟩
    · exact ⟨hflt, fun hfalse => by rw [hbusy] at hfalse; cases hfalse⟩

/-! ### The transition table (R159) -/

theorem emitFrame_session {src : State → Nat → Option Byte} {f : Nat → Byte} {s : State} (hw : s.cfg.wf = true)
    (hsrc : Sources src f s) :
    (emitFrame src s).Ends (fun _ t => t.sess = .onCommand ∧ t.strm = .none) (fun _ => True) True := by
  have hg := wf_geometry hw
  refine ends_of_noFault (frame_spec s hsrc hg.2.2.2 hg.1) ?_ fun _ _ => trivial
  rintro r t ⟨es, -, -, -, hsess, hstrm, -⟩
  exact ⟨hsess, hstrm⟩

theorem beginStream_session (cb : Byte) (mode : Strm) (s : State) :
    (beginStream cb mode s).Ends (fun _ t => t.sess = s.sess ∧ t.strm = mode) (fun _ => True) True := by
  refine ends_of_noFault (begin_spec cb mode s) ?_ fun _ _ => trivial
  rintro r t ⟨es, -, -, -, -, -, -, hstrm, -, -, hro, -⟩
  exact ⟨restOpen_sess hro, hstrm⟩

theorem initSequence_session (s : State) :
    (initSequence s).Ends
      (fun r t => t.sess = sessAfterEnd (sessForCommands s).sess (decide (r = 0x00)) ∧ t.strm = .none) (fun _ => True) True := by
  refine ends_of_noFault (init_spec s) ?_ fun _ _ => trivial
  rintro r t ⟨es, -, -, rfl, hsess, hstrm, -⟩
  exact ⟨hsess, hstrm⟩

/-- The engine's commands leave the pair alone. -/
theorem engine_session {i : Instr} {s : State}
    (hi : i = .binit ∨ i = .start ∨ (∃ a d, i = .addr a d) ∨ (∃ b, i = .byte b) ∨ i = .stop) :
    (bodyOf i s).Ends (fun _ t => t.sess = s.sess ∧ t.strm = s.strm) (fun _ => True) True := by
  rcases hi with rfl | rfl | ⟨a, d, rfl⟩ | ⟨b, rfl⟩ | rfl
  · exact ⟨rfl, rfl⟩
  · simp only [bodyOf]
    rcases sendStart_cases s with ⟨bus, -, he⟩ | ⟨st, bus, -, he⟩ <;> rw [he]
    · trivial
    · exact ⟨rfl, rfl⟩
  · simp only [bodyOf]
    rcases sendAddress_cases a d s with ⟨bus, -, he⟩ | ⟨st, bus, -, he⟩ <;> rw [he]
    · trivial
    · exact ⟨rfl, rfl⟩
  · simp only [bodyOf]
    rcases sendByte_cases b s with ⟨bus, -, he⟩ | ⟨st, bus, -, he⟩ <;> rw [he]
    · trivial
    · exact ⟨rfl, rfl⟩
  · exact ⟨rfl, rfl⟩

/-- Where (SESS, STRM) stands when an accepted body has ended. -/
theorem bodyOf_session (i : Instr) {s : State} (hw : s.cfg.wf = true) (hs : SessionInv s) (hc : checksOf i s = none) :
    (bodyOf i s).Ends (fun r t => (t.sess, t.strm) = sessionTarget i (s.sess, s.strm) s.initd r) (fun _ => True) True := by
  have hkept : ∀ {t : State}, t.sess = s.sess ∧ t.strm = s.strm → (t.sess, t.strm) = (s.sess, s.strm) := by
    rintro t ⟨hsess, hstrm⟩
    rw [hsess, hstrm]
  have hframe : ∀ {t : State}, frameChecks s = none → t.sess = .onCommand ∧ t.strm = .none → (t.sess, t.strm) = (s.sess, s.strm) := by
    rintro t hc ⟨hsess, hstrm⟩
    obtain ⟨⟨-, hstrm', -⟩, hsess'⟩ := frameReady_of_checks hc
    rw [hsess, hstrm, hsess', hstrm']
  cases i with
  | binit => exact ends_mono (engine_session (.inl rfl)) (fun _ _ h => hkept h) fun _ h => h
  | start => exact ends_mono (engine_session (.inr (.inl rfl))) (fun _ _ h => hkept h) fun _ h => h
  | addr a d => exact ends_mono (engine_session (.inr (.inr (.inl ⟨a, d, rfl⟩)))) (fun _ _ h => hkept h) fun _ h => h
  | byte b => exact ends_mono (engine_session (.inr (.inr (.inr (.inl ⟨b, rfl⟩))))) (fun _ _ h => hkept h) fun _ h => h
  | stop => exact ends_mono (engine_session (.inr (.inr (.inr (.inr rfl))))) (fun _ _ h => hkept h) fun _ h => h
  | beginc =>
    obtain ⟨-, hstrm, -⟩ := ready_of_checks hc
    refine ends_andThen (beginStream_session _ _ _) (fun _ h => h) ?_
    rintro r t ⟨hsess, hmode⟩
    rw [ends_done, hsess, hmode, hstrm]
    rcases sess_of_closed hs hstrm with h | h <;> simp [sessForCommands, h, sessionTarget]
  | begind =>
    obtain ⟨⟨-, hstrm, -⟩, hon⟩ := frameReady_of_checks hc
    refine ends_andThen (beginStream_session _ _ _) (fun _ h => h) ?_
    rintro r t ⟨hsess, hmode⟩
    rw [ends_done, hsess, hmode, hstrm, hon]
    rfl
  | wstri b =>
    exact ends_mono (streamWrite_session (.inl ⟨b, rfl⟩)) (fun _ _ h => hkept ⟨h.1, h.2.1⟩) fun _ _ => trivial
  | wstrt => exact ends_mono (streamWrite_session (.inr rfl)) (fun _ _ h => hkept ⟨h.1, h.2.1⟩) fun _ _ => trivial
  | endCmd =>
    obtain ⟨-, hc⟩ := passed_enabled hc
    show (sessAfterEnd s.sess s.initd, Strm.none) = _
    rcases fitsMode_of_open hs (passed_stream hc).1 with ⟨hm, h | h⟩ | ⟨hm, h⟩
    · rw [hm, h]
      cases s.initd <;> rfl
    · rw [hm, h]; rfl
    · rw [hm, h]; rfl
  | init =>
    obtain ⟨-, hstrm, -⟩ := ready_of_checks hc
    refine ends_mono (initSequence_session s) ?_ fun _ h => h
    rintro r t ⟨hsess, hnone⟩
    rw [hsess, hnone, hstrm]
    rcases sess_of_closed hs hstrm with h | h
    · by_cases hr : r = 0#8 <;> simp [sessForCommands, h, sessionTarget, sessAfterEnd, hr]
    · simp [sessForCommands, h, sessionTarget, sessAfterEnd]
  | xfer => exact ends_mono (emitFrame_session hw (sources_xfer s)) (fun _ _ h => hframe hc h) fun _ _ => trivial
  | clear => exact ends_mono (emitFrame_session hw (sources_clear s)) (fun _ _ h => hframe hc h) fun _ _ => trivial
  | fill => exact ends_mono (emitFrame_session hw (sources_fill s)) (fun _ _ h => hframe hc h) fun _ _ => trivial

/-- Settles O33: an accepted command (O41's matrix) that ended went as its body does. -/
theorem sessionFollowsTheTransitionTable : Obligations.SessionFollowsTheTransitionTable := by
  intro i s t h hbusy hm he ht
  rw [← checksOf_eq_matrix h i] at hm
  obtain ⟨hw, hs, -⟩ := h
  have hb := bodyOf_session i (s := { s with busy := true }) hw hs ((checksOf_busy i s).trans hm)
  obtain ⟨r, u, hu, rfl⟩ := exec_ended he ht hm hb
  exact hu

end Sys2Proof.Machine
end

section
/-! SUPPORT. The session's and the frame driver's commands under any environment (41 R150 to R161, 42 R171 to R179): what a
command that ended has put on the wire, read off `begin_spec`, `stream_spec`, `init_spec` and `frame_spec`. -/

namespace Sys2Proof.Machine

/-! ### Opens (R150, R153, R154) -/

/-- What an open that returned RES value r has done, s being the state it started in. -/
def OpenEnded (cb : Byte) (mode : Strm) (s : State) (r : Byte) (t : State) : Prop :=
  ∃ es, t.trace = s.trace ++ es ∧ follows s.cfg (wirePlan s.cfg cb []) es = true ∧ r = firstFailure s.cfg es ∧
    (t.abrt = true ↔ firstFailure s.cfg es ≠ 0x00) ∧ t.initd = false ∧ t.strm = mode ∧ t.sess = s.sess

theorem open_ends (cb : Byte) (mode : Strm) (s : State) :
    ((beginStream cb mode s).andThen fun r u => .done (resOfStream r) u).Ends (OpenEnded cb mode s) (fun _ => True) False := by
  refine ends_andThen (begin_spec cb mode s) (fun _ _ => trivial) ?_
  rintro r t ⟨es, ht, hf, hr, -, hok, hab, hm, hi, -, hro, -⟩
  exact ⟨es, ht, hf, hr, hab.trans (not_congr hok), hi, hm, restOpen_sess hro⟩

/-- Settles O25: both commands are an open of their own mode, in a session entered first. -/
theorem openStopsAtTheFirstFailure : Obligations.OpenStopsAtTheFirstFailure := by
  rintro s t i cb hready (⟨rfl, rfl⟩ | ⟨rfl, rfl, hsess⟩) h ht
  · obtain ⟨r, u, ⟨es, htr, hf, hr, hab, hi, hm, hs⟩, rfl⟩ := exec_ended h ht (checks_of_ready hready)
      (open_ends Config.cbCmd .cmd (sessForCommands { s with busy := true }))
    refine ⟨es, htr, hf, hr, hab, hi, hm, hs.trans ?_⟩
    cases s.sess <;> simp [sessForCommands]
  · obtain ⟨r, u, ⟨es, htr, hf, hr, hab, hi, hm, hs⟩, rfl⟩ := exec_ended h ht (checks_of_frameReady ⟨hready, hsess⟩)
      (open_ends Config.cbData .data { s with busy := true, sess := .onData })
    exact ⟨es, htr, hf, hr, hab, hi, hm, hs⟩

/-! ### WSTRT (R156) -/

/-- What a table stream that returned r has done, s being the state it started in. -/
def TableEnded (s : State) (r : StreamResult) (t : State) : Prop :=
  ∃ es, t.trace = s.trace ++ es ∧ follows s.cfg (s.cfg.initTable.map fun b => (.data, b)) es = true ∧
    resOfStream r = firstFailure s.cfg es ∧ (t.abrt = true ↔ firstFailure s.cfg es ≠ 0x00) ∧
    t.initd = (if firstFailure s.cfg es = 0x00 then true else s.initd) ∧ t.sess = s.sess ∧ t.strm = s.strm ∧ t.txn = s.txn

theorem writeTable_ends {s : State} (ha : s.abrt = false) : (writeTable s).Ends (TableEnded s) (fun _ => True) False := by
  rw [writeTable_stream s ha]
  refine ends_andThen (stream_spec (tableTags s) 0 s.cfg.initTable s ha) (fun _ _ => trivial) ?_
  rintro r t ⟨es, ht, hf, hr, -, hok, hab, -, hre, -⟩
  have hab' := hab.trans (not_congr hok)
  by_cases hff : firstFailure s.cfg es = 0x00
  · obtain rfl := hok.2 hff
    exact ⟨es, ht, hf, hr, hab', by rw [if_pos hff], (rest_sess hre :), (rest_strm hre :), (rest_txn hre :)⟩
  · have hi : t.initd = if firstFailure s.cfg es = 0x00 then true else s.initd := by rw [if_neg hff]; exact rest_initd hre
    cases r with
    | ok => exact absurd (hok.1 rfl) hff
    | failed | skipped => exact ⟨es, ht, hf, hr, hab', hi, (rest_sess hre :), (rest_strm hre :), (rest_txn hre :)⟩

theorem wstrtChecks_pass {s : State} (hen : ctrlEn s.ctrl = true) (hstrm : s.strm = .cmd) : checksOf .wstrt s = none := by
  rw [checksOf, needEnabled_of_enabled hen, needCmdStream_of_eq hstrm]; rfl

/-- Settles O28: WSTRT in a stream not aborted is the table stream. -/
theorem wstrtStreamsTheTableInOrder : Obligations.WstrtStreamsTheTableInOrder := by
  intro s t hen hstrm ha h ht
  have hb : (bodyOf .wstrt { s with busy := true }).Ends
      (fun r u => ∃ r', r = resOfStream r' ∧ TableEnded { s with busy := true } r' u) (fun _ => True) False :=
    ends_andThen (writeTable_ends (s := { s with busy := true }) ha) (fun _ _ => trivial) fun r u hu => ⟨r, rfl, hu⟩
  obtain ⟨r, u, ⟨r', rfl, es, htr, hf, hr, hab, hi, hse, hst, hx⟩, rfl⟩ := exec_ended h ht (wstrtChecks_pass hen hstrm) hb
  exact ⟨es, htr, hf, hr, hab, hi, hse, hst.trans hstrm, hx⟩

/-! ### INIT (R158) -/

/-- Where INIT leaves the session: OnCommand after success, from whatever session it came. -/
theorem sessAfterEnd_init (s : State) : sessAfterEnd (sessForCommands s).sess true = .onCommand := by
  cases h : s.sess <;> simp [sessForCommands, h, sessAfterEnd]

/-- After a failure the session is what it was before INIT. -/
theorem sessAfterEnd_failedInit {s : State} (h : s.sess = .off ∨ s.sess = .onCommand) :
    sessAfterEnd (sessForCommands s).sess false = s.sess := by
  rcases h with h | h <;> simp [sessForCommands, h, sessAfterEnd]

/-- Settles O31: INIT's body is one transaction. -/
theorem initIsOneTransaction : Obligations.InitIsOneTransaction := by
  intro s t hready hs h ht
  obtain ⟨r, u, ⟨es, htr, hf, hr, hse, hst, hab, hin, hx, hc, -, -, -, hro, -⟩, rfl⟩ := exec_ended (i := .init) h ht
    (checks_of_ready hready) (init_spec { s with busy := true })
  refine ⟨es, htr, follows_noStop hf, hf, hr, hse.trans ?_, hst, hab, hin, hx, hc, (congrArg State.flt hro :)⟩
  show sessAfterEnd (sessForCommands s).sess (decide (firstFailure s.cfg es = 0)) = _
  by_cases hff : firstFailure s.cfg es = 0x00
  · rw [if_pos hff, decide_eq_true hff]
    exact sessAfterEnd_init s
  · rw [if_neg hff, decide_eq_false hff]
    exact sessAfterEnd_failedInit hs

/-! ### The frame commands (R171 to R175) -/

theorem fbLen_pos {p : Params} (hw : p.wf = true) : 0 < p.fbLen := Nat.mul_pos (wf_geometry hw).1 (wf_pages hw)

/-- A frame's plan: three phases of the open and FB_LEN bytes. -/
theorem framePlan_length {p : Params} (cb : Byte) (f : Nat → Byte) :
    (wirePlan p cb ((List.range p.fbLen).map f)).length = p.fbLen + 3 := by
  simp [wirePlan_length]

/-- The whole frame was acknowledged exactly if no phase failed. -/
theorem frame_complete_iff {p : Params} {cb : Byte} {f : Nat → Byte} {es : List Event} (hw : p.wf = true)
    (hf : follows p (wirePlan p cb ((List.range p.fbLen).map f)) es = true) :
    ackCount p es - 3 = p.fbLen ↔ firstFailure p es = 0x00 := by
  have hpos := fbLen_pos hw
  constructor
  · intro hcount
    by_contra hff
    have hlt := ackCount_of_failed hf hff
    rw [framePlan_length] at hlt
    omega
  · intro hff
    have heq := (ackCount_of_follows hf hff).1
    rw [framePlan_length] at heq
    omega

/-- Settles O36: the three frame commands are one transaction of three sources. -/
theorem frameIsOneTransaction : Obligations.FrameIsOneTransaction := by
  intro s t i hi hw hready h ht
  obtain ⟨hchecks, src, hbody, hsrc⟩ := frameCommand_cases hi
  obtain ⟨f, hs, hbytes⟩ := hsrc s
  obtain ⟨hw1, -, -, hlen⟩ := wf_geometry hw
  have hb := frame_spec { s with busy := true } hs hlen hw1
  rw [← hbody] at hb
  obtain ⟨r, u, ⟨es, htr, hf, hr, hse, hst, hab, hin, hx, hc, -, hk, -, hro, -⟩, rfl⟩ := exec_ended h ht
    ((hchecks s).trans (checks_of_frameReady hready)) hb
  have hcount := ackCount_le hf
  rw [framePlan_length] at hcount
  obtain ⟨hpg, hcol, hcur, -⟩ := counters_fit hw (n := ackCount s.cfg es - 3)
    (by have hc : ackCount s.cfg es ≤ s.cfg.fbLen + 3 := hcount; omega) hk
  refine ⟨es, htr, follows_noStop hf, by rw [hbytes]; exact hf, hr, hcur, ?_, ?_, ?_, hse, hst, hab, hin, hx, hc,
    (congrArg State.flt hro :)⟩
  · exact hpg.trans (congrArg (· / s.cfg.w) hcur.symm)
  · exact hcol.trans (congrArg (· % s.cfg.w) hcur.symm)
  · exact (Eq.congr_left hcur).trans (frame_complete_iff hw hf)

end Sys2Proof.Machine
end

section
/-! SUPPORT. Transactions in which every phase is acknowledged (20_memory.md R67, R69): the whole state an open, a stream and a
transaction end in, for any environment that keeps answering a Data phase with the success code; and EnvAck's own statements. -/

namespace Sys2Proof.Machine

/-! ### One acknowledged phase -/

theorem writeByte_of_ack {b : Byte} {s : State} {st : Byte} {bus : Bus} (ha : s.abrt = false)
    (h : Bus.ask s.cfg s.trace .data b s.bus = (.done st, bus)) (hst : classify s.cfg .data 0#1 st = .ack) :
    writeByte b s = .done .ok { s with
      data := b, dataWritten := true, ctrl := 0x84, stat := st, pend := none, bus := bus, trace := s.trace ++ [.d b st] } := by
  rcases writeByte_cases b s ha with ⟨bus', h', -⟩ | ⟨st', bus', h', he⟩ <;> rw [h] at h' <;> cases h'
  rw [he, if_pos hst, completed_data]

theorem classify_dataAck {p : Params} (hw : p.wf = true) : classify p .data 0#1 p.stDataAck = .ack := by
  rw [classify_data, if_pos (wf_masked hw (by simp [Params.codes]))]

theorem classify_slawAck {p : Params} (hw : p.wf = true) : classify p .address 0#1 p.stSlawAck = .ack :=
  if_pos (wf_masked hw (by simp [Params.codes]))

theorem classify_startAck {p : Params} (hw : p.wf = true) : classify p .start 0#1 p.stStart = .ack := by
  rw [classify_start, if_pos (wf_masked hw (by simp [Params.codes]))]

/-! ### The open -/

/-- The three answers that acknowledge an open: to the Start, the address and the control byte, the bus going from each to the
next. -/
structure OpenAcked (p : Params) (tr : List Event) (cb : Byte) (bus bus1 bus2 bus3 : Bus) : Prop where
  start : Bus.ask p tr .start 0 bus = (.done p.stStart, bus1)
  address : Bus.ask p (tr ++ [.s p.stStart]) .address (addrByte p.dispAddr 0) bus1 = (.done p.stSlawAck, bus2)
  control : Bus.ask p (tr ++ [.s p.stStart, .a (addrByte p.dispAddr 0) p.stSlawAck]) .data cb bus2 = (.done p.stDataAck, bus3)

/-- The events of an acknowledged open. -/
def openEvents (p : Params) (cb : Byte) : List Event :=
  [.s p.stStart, .a (addrByte p.dispAddr 0) p.stSlawAck, .d cb p.stDataAck]

/-- What an acknowledged open leaves (R150). -/
def openedState (cb : Byte) (mode : Strm) (bus : Bus) (s : State) : State :=
  { s with
    ctrl := 0x84, stat := s.cfg.stDataAck, data := cb, dataWritten := true, pend := none, txn := .addrW
    strm := mode, abrt := false, initd := false, trace := s.trace ++ openEvents s.cfg cb, bus := bus }

theorem beginStream_acked {cb : Byte} {mode : Strm} {s : State} {bus1 bus2 bus3 : Bus} (hw : s.cfg.wf = true)
    (h : OpenAcked s.cfg s.trace cb s.bus bus1 bus2 bus3) :
    beginStream cb mode s = .done .ok (openedState cb mode bus3 s) := by
  have hmask : s.cfg.stStart &&& s.cfg.stMask = s.cfg.stStart := wf_masked hw (by simp [Params.codes])
  unfold beginStream
  rw [sendStart_of_done (s := openStream mode s) h.start]
  simp only [andThen_done, openStream_cfg, classify_startAck hw, unlessFailed_ack, hmask, if_true]
  rw [sendAddress_of_done (a := s.cfg.dispAddr) (d := 0#1) h.address]
  simp only [andThen_done, classify_slawAck hw, unlessFailed_ack]
  rw [sendByte_of_done (b := cb) (st := s.cfg.stDataAck) (bus := bus3) (by simpa using h.control)]
  simp only [andThen_done, classify_dataAck hw, unlessFailed_ack]
  simp [openedState, openStream, openEvents, txnAfterAddress]

/-! ### The stream -/

/-- An environment that acknowledges n more bytes: where P (n + 1) holds of the bus, it answers any byte with the success code and
goes on to a bus `next b bus` of which P n holds. -/
def AcksBytes (p : Params) (P : Nat → Bus → Prop) (next : Byte → Bus → Bus) : Prop :=
  ∀ n tr b bus, P (n + 1) bus → Bus.ask p tr .data b bus = (.done p.stDataAck, next b bus) ∧ P n (next b bus)

/-- The registers as an acknowledged Data phase leaves them. -/
def AfterByte (s : State) : Prop :=
  s.ctrl = 0x84 ∧ s.stat = s.cfg.stDataAck ∧ s.dataWritten = true ∧ s.pend = none

/-- What a stream of acknowledged bytes leaves, its counters apart (R151). -/
def streamedState (bs : List Byte) (bus : Bus) (s : State) : State :=
  { s with
    ctrl := 0x84, stat := s.cfg.stDataAck, data := bs.getLast?.getD s.data, dataWritten := true, pend := none, bus := bus
    trace := s.trace ++ bs.map fun b => .d b s.cfg.stDataAck }

theorem streamedState_nil {s : State} (h : AfterByte s) : streamedState [] s.bus s = s := by
  obtain ⟨hctrl, hstat, hdw, hpend⟩ := h
  cases s
  simp_all [streamedState]

/-- Every byte of a stream acknowledged: the whole state it ends in. -/
theorem stream_acked {P : Nat → Bus → Prop} {next : Byte → Bus → Bus} (g : Tags) (bs : List Byte) {s : State} (k : Nat)
    (hw : s.cfg.wf = true) (hP : AcksBytes s.cfg P next) (ha : s.abrt = false) (hbus : P bs.length s.bus)
    (hs : bs ≠ [] ∨ AfterByte s) :
    stream g k bs s = .done .ok (tagged g (k + bs.length) (streamedState bs (bs.foldl (fun bus b => next b bus) s.bus) s)) := by
  induction bs generalizing k s with
  | nil =>
    have hs := hs.resolve_left fun h => h rfl
    simp only [stream, List.foldl_nil, streamedState_nil hs, List.length_nil, Nat.add_zero]
  | cons b bs ih =>
    obtain ⟨hask, hrest⟩ := hP bs.length s.trace b s.bus hbus
    rw [stream, writeByte_of_ack (s := tagged g k s) ha hask (classify_dataAck hw)]
    simp only [andThen_done]
    rw [ih (k + 1) (by exact hw) (by exact hP) (by exact ha) (by exact hrest) (.inr ⟨rfl, rfl, rfl, rfl⟩)]
    simp [streamedState, tagged, List.getLast?_cons, Nat.add_assoc, Nat.add_comm 1]

/-- The last of a list that is not empty is the same whatever stands in for none. -/
theorem getLast?_getD_eq {bs : List Byte} (h : bs ≠ []) (a b : Byte) : bs.getLast?.getD a = bs.getLast?.getD b := by
  rw [List.getLast?_eq_some_getLast h]
  rfl

theorem initTable_ne_nil {p : Params} (hw : p.wf = true) : p.initTable ≠ [] := by
  have h := (wf_table hw).1
  rintro he
  simp [Params.initLen, he] at h

/-- The whole table acknowledged (R156). -/
theorem writeTable_acked {P : Nat → Bus → Prop} {next : Byte → Bus → Bus} {s : State} (hw : s.cfg.wf = true)
    (hP : AcksBytes s.cfg P next) (ha : s.abrt = false) (hbus : P s.cfg.initLen s.bus) :
    writeTable s = .done .ok
      { streamedState s.cfg.initTable (s.cfg.initTable.foldl (fun bus b => next b bus) s.bus) s with tix := 0, initd := true } := by
  rw [writeTable_stream s ha, stream_acked _ _ 0 hw hP ha hbus (.inl (initTable_ne_nil hw))]
  rfl

/-! ### The transaction -/

theorem transact_acked {cb : Byte} {mode : Strm} {write : State → Ran StreamResult} {s t u : State}
    (hopen : beginStream cb mode s = .done .ok t) (hwrite : write t = .done .ok u) :
    transact cb mode write s = .done 0x00 (endStream u) := by
  unfold transact
  simp only [hopen, andThen_done, hwrite]
  rfl

/-- INIT with every phase acknowledged. -/
theorem initSequence_acked {P : Nat → Bus → Prop} {next : Byte → Bus → Bus} {s : State} {bus1 bus2 bus3 : Bus}
    (hw : s.cfg.wf = true) (hopen : OpenAcked s.cfg s.trace Config.cbCmd s.bus bus1 bus2 bus3) (hP : AcksBytes s.cfg P next)
    (hbus : P s.cfg.initLen bus3) :
    initSequence s = .done 0x00 (endStream
      { streamedState s.cfg.initTable (s.cfg.initTable.foldl (fun bus b => next b bus) bus3)
          (openedState Config.cbCmd .cmd bus3 (sessForCommands s)) with tix := 0, initd := true }) := by
  rw [initSequence_transact]
  exact transact_acked (beginStream_acked (s := sessForCommands s) hw hopen)
    (writeTable_acked (s := openedState Config.cbCmd .cmd bus3 (sessForCommands s)) hw hP rfl hbus)

/-- The frame loop after an open, as the stream it is. -/
theorem emitPages_opened {src : State → Nat → Option Byte} {f : Nat → Byte} {s : State} {bus : Bus} (hw : s.cfg.wf = true)
    (hsrc : Sources src f s) :
    emitPages src s.cfg.pages (openedState Config.cbData .data bus (beginFrame s)) =
      (stream (frameTags s) 0 ((List.range s.cfg.fbLen).map f) (openedState Config.cbData .data bus (beginFrame s))).andThen
        (afterStream id false) := by
  obtain ⟨hw1, -, -, hlen⟩ := wf_geometry hw
  exact emitPages_shape (beginFrame s) (openedState Config.cbData .data bus (beginFrame s)) hsrc hlen hw1 ⟨rfl, rfl, rfl⟩ rfl rfl
    rfl rfl rfl

/-- A frame command's body with every phase acknowledged. -/
theorem emitFrame_acked {src : State → Nat → Option Byte} {f : Nat → Byte} {P : Nat → Bus → Prop} {next : Byte → Bus → Bus}
    {s : State} {bus1 bus2 bus3 : Bus} {bs : List Byte} (hw : s.cfg.wf = true) (hsrc : Sources src f s)
    (hbs : bs = (List.range s.cfg.fbLen).map f)
    (hopen : OpenAcked s.cfg s.trace Config.cbData s.bus bus1 bus2 bus3) (hP : AcksBytes s.cfg P next)
    (hbus : P s.cfg.fbLen bus3) :
    emitFrame src s = .done 0x00 (endStream (tagged (frameTags s) s.cfg.fbLen
      (streamedState bs (bs.foldl (fun bus b => next b bus) bus3) (openedState Config.cbData .data bus3 (beginFrame s))))) := by
  have hlen : bs.length = s.cfg.fbLen := by simp [hbs]
  rw [emitFrame_transact]
  refine transact_acked (beginStream_acked (s := beginFrame s) hw hopen) ?_
  show emitPages src s.cfg.pages _ = _
  rw [emitPages_opened hw hsrc, ← hbs,
    stream_acked _ bs 0 (s := openedState Config.cbData .data bus3 (beginFrame s)) hw hP rfl (by rw [hlen]; exact hbus)
      (.inr ⟨rfl, rfl, rfl, rfl⟩), Nat.zero_add, hlen]
  rfl

/-- The counters after a whole frame: page PAGES, column 0, FB_LEN bytes (R171). -/
theorem frameTags_end {s : State} (hw : s.cfg.wf = true) :
    frameTags s s.cfg.fbLen = (BitVec.ofNat 16 s.cfg.pages, 0, BitVec.ofNat 16 s.cfg.fbLen, s.tix) := by
  have hdiv : s.cfg.fbLen / s.cfg.w = s.cfg.pages := Nat.mul_div_cancel_left _ (wf_geometry hw).1
  have hmod : s.cfg.fbLen % s.cfg.w = 0 := Nat.mul_mod_right _ _
  rw [frameTags, hdiv, hmod]
  rfl

/-! ### EnvAck (R67) -/

theorem envAck_open {p : Params} {bus : Bus} (tr : List Event) (cb : Byte) (hk : bus.kind = .envAck) (hs : bus.script = []) :
    OpenAcked p tr cb bus bus bus bus where
  start := ask_envAck hk hs
  address := by
    have hd : dirBit (addrByte p.dispAddr 0) = 0#1 := dirBit_addrByte _ _
    rw [ask_envAck hk hs]
    simp only [envAck, hd, if_true]
  control := ask_envAck hk hs

/-- EnvAck acknowledges bytes for ever and never changes. -/
theorem envAck_acksBytes (p : Params) :
    AcksBytes p (fun _ bus => bus.kind = .envAck ∧ bus.script = []) fun _ bus => bus :=
  fun _ _ _ _ ⟨hk, hs⟩ => ⟨ask_envAck hk hs, hk, hs⟩

theorem foldl_const_bus (bs : List Byte) (bus : Bus) : bs.foldl (fun bus _ => bus) bus = bus := by
  induction bs with
  | nil => rfl
  | cons b bs ih => exact ih

/-- Settles O24: both opens are acknowledged phase by phase. -/
theorem openUnderEnvAck : Obligations.OpenUnderEnvAck := by
  intro s hw ⟨hk, hs⟩ hready
  constructor
  · have hb : bodyOf .beginc { s with busy := true } = .done 0x00 _ :=
      congrArg (fun r => r.andThen fun r u => .done (resOfStream r) u)
        (beginStream_acked (mode := .cmd) (s := sessForCommands { s with busy := true }) hw (envAck_open _ Config.cbCmd hk hs))
    refine (exec_of_done (i := .beginc) (s := s) (checks_of_ready hready) hb).trans ?_
    cases s.sess <;> simp [openedState, openEvents, sessForCommands, Config.cbCmd]
  · intro hsess
    have hb : bodyOf .begind { s with busy := true } = .done 0x00 _ :=
      congrArg (fun r => r.andThen fun r u => .done (resOfStream r) u)
        (beginStream_acked (mode := .data) (s := { s with busy := true, sess := .onData }) hw (envAck_open _ Config.cbData hk hs))
    exact exec_of_done (i := .begind) (s := s) (checks_of_frameReady ⟨hready, hsess⟩) hb

/-- Settles O27: the table stream acknowledged byte by byte; after an abort no byte is sent. -/
theorem wstrtUnderEnvAck : Obligations.WstrtUnderEnvAck := by
  intro s hw hen hstrm
  refine ⟨fun ha hacks => ?streamed, fun ha => ?skipped⟩
  case streamed =>
    have hb : bodyOf .wstrt { s with busy := true } = .done 0x00 _ :=
      congrArg (fun r => r.andThen fun r u => .done (resOfStream r) u)
        (writeTable_acked (s := { s with busy := true }) hw (envAck_acksBytes _) ha hacks)
    refine (exec_of_done (i := .wstrt) (s := s) (wstrtChecks_pass hen hstrm) hb).trans ?_
    simp only [streamedState, foldl_const_bus]
    rw [getLast?_getD_eq (initTable_ne_nil hw) s.data 0x00]
  case skipped =>
    exact exec_of_done (i := .wstrt) (s := s) (u := { s with busy := true }) (wstrtChecks_pass hen hstrm)
      (bodyOf_wstrt_skipped (s := { s with busy := true }) ha)

/-- Settles O30: INIT's transaction acknowledged phase by phase. -/
theorem initUnderEnvAck : Obligations.InitUnderEnvAck := by
  intro s hw hacks hready
  obtain ⟨hk, hs⟩ := hacks
  have hb := initSequence_acked (s := { s with busy := true }) hw (envAck_open _ Config.cbCmd hk hs)
    (envAck_acksBytes _) ⟨hk, hs⟩
  refine (exec_of_done (i := .init) (s := s) (checks_of_ready hready) hb).trans ?_
  simp only [endStream, sendStop, streamedState, openedState, foldl_const_bus, sessAfterEnd_init, sessForCommands_cfg,
    sessForCommands_trace, openEvents, List.append_assoc]
  rfl

/-- Settles O35: the frame's transaction acknowledged phase by phase. -/
theorem frameUnderEnvAck : Obligations.FrameUnderEnvAck := by
  intro s i hi hw ⟨hk, hs⟩ hready
  obtain ⟨hchecks, src, hbody, hsrc⟩ := frameCommand_cases hi
  obtain ⟨f, hf, hbytes⟩ := hsrc s
  refine ⟨by simp [hbytes], ?_⟩
  have hb := emitFrame_acked (s := { s with busy := true }) hw hf hbytes (envAck_open _ Config.cbData hk hs)
    (envAck_acksBytes _) ⟨hk, hs⟩
  rw [← hbody] at hb
  refine (exec_of_done ((hchecks s).trans (checks_of_frameReady hready)) hb).trans ?_
  simp only [tagged]
  have htags : frameTags { s with busy := true } s.cfg.fbLen = _ := frameTags_end (s := { s with busy := true }) hw
  rw [htags]
  simp only [endStream, sendStop, streamedState, openedState, foldl_const_bus, openEvents, List.append_assoc]
  rfl

/-- What a frame command leaves of what its bytes are made of: FRAME and the configuration (R176). -/
theorem frameBytes_congr {i : Instr} {s t : State} (hi : i ∈ [Instr.xfer, .clear, .fill]) (hc : t.cfg = s.cfg)
    (hf : t.frame = s.frame) : frameBytes i t = frameBytes i s := by
  simp only [List.mem_cons, List.not_mem_nil, or_false] at hi
  rcases hi with rfl | rfl | rfl <;> simp [frameBytes, xferBytes, constBytes, hc, hf]

/-- Settles O38: O35 says where the command ends, and again where it ends from there. -/
theorem frameTwiceSendsTheSameBytes : Obligations.FrameTwiceSendsTheSameBytes := by
  intro s t i hi hw hacks hready h
  have ht := (frameUnderEnvAck s i hi hw hacks hready).2
  rw [h] at ht
  have ht := Host.Outcome.next.inj ht
  have h2 := (frameUnderEnvAck t i hi (by rw [ht]; exact hw) (by rw [ht]; exact hacks)
    (by rw [ht]; exact ⟨⟨(by decide : ctrlEn 0x14 = true), rfl, rfl⟩, rfl⟩)).2
  rw [frameBytes_congr hi (s := s) (by rw [ht]) (by rw [ht])] at h2
  subst ht
  exact ⟨_, rfl, h2⟩

end Sys2Proof.Machine
end

section
/-! SUPPORT. Composite commands as their expansions (30_encoding.md R114): what a phase does does not look at the frame counters, at
RES or at BUSY, so a composite's transaction is the run of the commands it expands to, but for these. -/

namespace Sys2Proof.Machine

/-! ### What no phase looks at -/

/-- A state with the counters of s0 and with RES and BUSY as given: what tells a command of the expansion from the composite's own
step. -/
def marked (s0 : State) (r : Byte) (busy : Bool) (t : State) : State :=
  { t with pg := s0.pg, col := s0.col, cur := s0.cur, res := r, busy := busy }

theorem marked_eq {s0 t : State} {r : Byte} {busy : Bool} (hpg : t.pg = s0.pg) (hcol : t.col = s0.col) (hcur : t.cur = s0.cur) :
    marked s0 r busy t = { t with res := r, busy := busy } := by
  rw [marked, ← hpg, ← hcol, ← hcur]

@[simp] theorem marked_cfg (s0 : State) (r : Byte) (busy : Bool) (t : State) : (marked s0 r busy t).cfg = t.cfg := rfl
@[simp] theorem marked_trace (s0 : State) (r : Byte) (busy : Bool) (t : State) : (marked s0 r busy t).trace = t.trace := rfl
@[simp] theorem marked_bus (s0 : State) (r : Byte) (busy : Bool) (t : State) : (marked s0 r busy t).bus = t.bus := rfl

/-- The same run in a marked state. -/
def Ran.marked {α : Type} (s0 : State) (r : Byte) (busy : Bool) : Ran α → Ran α
  | .done a t => .done a (Machine.marked s0 r busy t)
  | .hung t => .hung (Machine.marked s0 r busy t)
  | .fault e => .fault e

theorem andThen_marked {α β : Type} {s0 : State} {r : Byte} {busy : Bool} {m : Ran α} {f f' : α → State → Ran β}
    (h : ∀ a t, f' a (marked s0 r busy t) = (f a t).marked s0 r busy) :
    (m.marked s0 r busy).andThen f' = (m.andThen f).marked s0 r busy := by
  cases m with
  | done a t => exact h a t
  | hung t => rfl
  | fault e => rfl

section
variable (s0 : State) (r : Byte) (busy : Bool)

theorem busPhase_marked (k : PhaseKind) (b : Byte) (s : State) :
    busPhase k b (marked s0 r busy s) = (busPhase k b s).marked s0 r busy := by
  unfold busPhase
  rw [marked_cfg, marked_trace, marked_bus]
  obtain ⟨a, bus⟩ := Bus.ask s.cfg s.trace k (shown k b) s.bus
  cases a <;> cases k <;> rfl

theorem sendStart_marked (s : State) : sendStart (marked s0 r busy s) = (sendStart s).marked s0 r busy := by
  unfold sendStart
  rw [busPhase_marked]
  refine andThen_marked fun st t => ?_
  rw [marked_cfg]
  cases classify t.cfg .start 0#1 st <;> rfl

theorem sendAddress_marked (a : BitVec 7) (d : BitVec 1) (s : State) :
    sendAddress a d (marked s0 r busy s) = (sendAddress a d s).marked s0 r busy := by
  unfold sendAddress
  rw [busPhase_marked]
  exact andThen_marked fun _ _ => rfl

theorem sendByte_marked (b : Byte) (s : State) : sendByte b (marked s0 r busy s) = (sendByte b s).marked s0 r busy := by
  unfold sendByte
  rw [busPhase_marked]
  exact andThen_marked fun _ _ => rfl

theorem unlessFailed_marked (o : PhaseOutcome) (k : PhaseKind) (s : State) {next : State → Ran StreamResult}
    (h : ∀ t, next (marked s0 r busy t) = (next t).marked s0 r busy) :
    unlessFailed o k (marked s0 r busy s) next = (unlessFailed o k s next).marked s0 r busy := by
  cases o with
  | ack => exact h s
  | nack => rfl
  | unexpected => rfl

theorem beginStream_marked (cb : Byte) (mode : Strm) (s : State) :
    beginStream cb mode (marked s0 r busy s) = (beginStream cb mode s).marked s0 r busy := by
  unfold beginStream
  rw [show openStream mode (marked s0 r busy s) = marked s0 r busy (openStream mode s) from rfl, sendStart_marked]
  refine andThen_marked fun o1 _ => unlessFailed_marked _ _ _ _ _ _ fun t1 => ?_
  rw [marked_cfg, sendAddress_marked]
  refine andThen_marked fun o2 _ => unlessFailed_marked _ _ _ _ _ _ fun t2 => ?_
  rw [sendByte_marked]
  exact andThen_marked fun o3 _ => unlessFailed_marked _ _ _ _ _ _ fun _ => rfl

theorem writeByte_marked (b : Byte) (s : State) : writeByte b (marked s0 r busy s) = (writeByte b s).marked s0 r busy := by
  cases ha : s.abrt with
  | true => rw [writeByte_skipped b ha, writeByte_skipped (s := marked s0 r busy s) b ha]; rfl
  | false =>
    rw [writeByte, writeByte, if_neg (show ¬(marked s0 r busy s).abrt = true by simp [marked, ha]), if_neg (by simp [ha]),
      sendByte_marked]
    exact andThen_marked fun _ _ => unlessFailed_marked _ _ _ _ _ _ fun _ => rfl

theorem tableLoop_marked (n i : Nat) (s : State) :
    tableLoop n i (marked s0 r busy s) = (tableLoop n i s).marked s0 r busy := by
  induction n generalizing i s with
  | zero => rfl
  | succ n ih =>
    rw [tableLoop, tableLoop, show memRead .table i (marked s0 r busy s) = memRead .table i s from rfl]
    cases memRead .table i s with
    | none => rfl
    | some b =>
      refine Eq.trans (congrArg (Ran.andThen · _) (writeByte_marked s0 r busy b { s with tix := BitVec.ofNat 16 i }))
        (andThen_marked fun r' t => ?_)
      cases r' with
      | ok => exact ih (i + 1) t
      | failed | skipped => rfl

theorem writeTable_marked (s : State) : writeTable (marked s0 r busy s) = (writeTable s).marked s0 r busy := by
  cases ha : s.abrt with
  | true => rw [writeTable_skipped ha, writeTable_skipped (s := marked s0 r busy s) ha]; rfl
  | false =>
    rw [writeTable, writeTable, if_neg (show ¬(marked s0 r busy s).abrt = true by simp [marked, ha]), if_neg (by simp [ha]),
      marked_cfg, tableLoop_marked]
    refine andThen_marked fun r' t => ?_
    cases r' <;> rfl

end

/-! ### The commands of an expansion -/

/-- A command whose body is a write, in a marked state. -/
theorem exec_marked {i : Instr} {write : State → Ran StreamResult} {s0 t u : State} {r : Byte} {r' : StreamResult}
    (hbody : bodyOf i (marked s0 r true t) = (write (marked s0 r true t)).andThen fun r u => .done (resOfStream r) u)
    (hmark : write (marked s0 r true t) = (write t).marked s0 r true) (hw : write t = .done r' u)
    (hc : checksOf i (marked s0 r false t) = none) :
    exec i (marked s0 r false t) = .next (marked s0 (resOfStream r') false u) := by
  have hb : bodyOf i (marked s0 r true t) = .done (resOfStream r') (marked s0 r true u) := by
    rw [hbody, hmark, hw]; rfl
  exact exec_of_done (i := i) (s := marked s0 r false t) (u := marked s0 r true u) hc hb

theorem exec_end_marked {s0 t : State} {r : Byte} (hen : ctrlEn t.ctrl = true) (hstrm : t.strm ≠ .none) :
    exec .endCmd (marked s0 r false t) = .next (marked s0 0x03 false (endStream t)) :=
  exec_of_done (i := .endCmd) (s := marked s0 r false t) (streamChecks_pass (s := marked s0 r false t) hen hstrm) rfl

theorem runList_cons {i : Instr} {is : List Instr} {s t : State} (h : exec i s = .next t) (hb : t.busy = false) :
    runList (i :: is) s = runList is t := by
  simp [runList, h, hb]

theorem runList_append {is js : List Instr} {s t : State} (h : runList is s = some t) :
    runList (is ++ js) s = runList js t := by
  induction is generalizing s with
  | nil => cases h; rfl
  | cons i is ih =>
    rw [List.cons_append, runList] at *
    cases hi : exec i s with
    | next u =>
      simp only [hi] at h ⊢
      split at h
      · cases h
      · simp_all
    | fault e => simp [hi] at h
    | refused e => simp [hi] at h

/-- What a composite's open leaves for the rest of it: the stream open and the block enabled, and a failure in ABRT. -/
theorem begin_done {cb : Byte} {mode : Strm} {s t : State} {r : StreamResult} (h : beginStream cb mode s = .done r t) :
    ctrlEn t.ctrl = true ∧ t.strm = mode ∧ (t.abrt = true ↔ r ≠ .ok) ∧ tagsOf t = tagsOf s ∧
      restOpen t = restOpen s := by
  have hs := begin_spec cb mode s
  rw [h] at hs
  obtain ⟨es, -, -, -, -, -, habrt, hstrm, -, htags, hrest, -, -, hctrl, -⟩ := hs
  refine ⟨?_, hstrm, habrt, htags, hrest⟩
  rcases hctrl with hc | hc <;> rw [hc] <;> decide

/-- A command that ended, and was accepted, is its body run to its end. -/
theorem body_of_ended {i : Instr} {s t : State} (h : exec i s = .next t) (ht : t.busy = false) (hc : checksOf i s = none) :
    ∃ r u, bodyOf i { s with busy := true } = .done r u ∧ t = { u with res := r, busy := false } := by
  refine exec_ended (D := fun r u => bodyOf i { s with busy := true } = .done r u) (H := fun _ => True) (F := True) h ht hc ?_
  cases bodyOf i { s with busy := true } <;> trivial

/-- A transaction run to its end: the open, then, if it succeeded, the write, and in both cases the end. -/
theorem transact_done {cb : Byte} {mode : Strm} {write : State → Ran StreamResult} {s u : State} {r : Byte}
    (h : transact cb mode write s = .done r u) :
    ∃ r1 t, beginStream cb mode s = .done r1 t ∧
      ((r1 = .ok ∧ ∃ r2 t2, write t = .done r2 t2 ∧ u = endStream t2) ∨ (r1 ≠ .ok ∧ u = endStream t)) := by
  unfold transact at h
  cases hopen : beginStream cb mode s with
  | hung | fault => rw [hopen] at h; cases h
  | done r1 t =>
    rw [hopen] at h
    refine ⟨r1, t, rfl, ?_⟩
    cases r1 with
    | failed | skipped => cases h; exact .inr ⟨by simp, rfl⟩
    | ok =>
      simp only [andThen_done] at h
      cases hw : write t with
      | hung | fault => rw [hw] at h; cases h
      | done r2 t2 =>
        rw [hw] at h
        cases h
        exact .inl ⟨rfl, r2, t2, rfl, rfl⟩

/-- INIT run to its end is its open, its table write (which sends nothing after a failed open) and its end. -/
theorem initSequence_done {s u : State} {r : Byte} (h : initSequence s = .done r u) :
    ∃ r1 t r2 t2, beginStream Config.cbCmd .cmd (sessForCommands s) = .done r1 t ∧ writeTable t = .done r2 t2 ∧
      u = endStream t2 := by
  obtain ⟨r1, t, hopen, ⟨-, r2, t2, hwrite, hu⟩ | ⟨hr, hu⟩⟩ := transact_done h
  · exact ⟨r1, t, r2, t2, hopen, hwrite, hu⟩
  · obtain ⟨-, -, habrt, -⟩ := begin_done hopen
    exact ⟨r1, t, .skipped, t, hopen, writeTable_skipped (habrt.2 hr), hu⟩

/-- A frame command's body run to its end is its open, after a success the stream of its bytes, and its end. -/
theorem emitFrame_done {src : State → Nat → Option Byte} {f : Nat → Byte} {s u : State} {r : Byte} (hw : s.cfg.wf = true)
    (hf : Sources src f s) (h : emitFrame src s = .done r u) :
    ∃ r1 t, beginStream Config.cbData .data (beginFrame s) = .done r1 t ∧
      ((r1 = .ok ∧ ∃ r2 t2, stream (frameTags t) 0 ((List.range s.cfg.fbLen).map f) t = .done r2 t2 ∧ u = endStream t2) ∨
        (r1 ≠ .ok ∧ u = endStream t)) := by
  obtain ⟨hw1, -, -, hlen⟩ := wf_geometry hw
  obtain ⟨r1, t, hopen, hrest⟩ := transact_done h
  refine ⟨r1, t, hopen, hrest.imp_left fun ⟨hok, r2, t2, hwrite, hu⟩ => ⟨hok, r2, t2, ?_, hu⟩⟩
  obtain ⟨-, -, -, htags, hopened⟩ := begin_done hopen
  have hcfg : t.cfg = s.cfg := (restOpen_cfg hopened :)
  have hf1 : Sources src f t := fun v hvc hvf k hk =>
    hf v (hvc.trans hcfg) (hvf.trans (restOpen_frame (s := beginFrame s) hopened)) k (hcfg ▸ hk)
  rw [← hcfg] at hlen hw1 ⊢
  rw [← hwrite]
  exact (frame_stream hf1 hlen hw1
    ⟨congrArg (fun x => x.1) htags, congrArg (fun x => x.2.1) htags, congrArg (fun x => x.2.2.1) htags⟩).symm

/-- What one streamed byte leaves for the next. -/
theorem writeByte_done {b : Byte} {s t : State} {r : StreamResult} (ha : s.abrt = false) (h : writeByte b s = .done r t) :
    ctrlEn t.ctrl = true ∧ t.strm = s.strm ∧ (t.abrt = true ↔ r ≠ .ok) ∧ t.tix = s.tix := by
  rcases writeByte_cases b s ha with ⟨bus, -, he⟩ | ⟨st, bus, -, he⟩ <;> rw [he] at h
  · cases h
  · rw [completed_data] at h
    split at h <;> cases h <;> simp [ha, ctrlEn]

/-! ### INIT -/

/-- Settles O32: BEGINC, WSTRT and END are INIT's open, its table write and its end. -/
theorem initEqualsItsExpansion : Obligations.InitEqualsItsExpansion := by
  intro s t hready h ht
  have hc : checksOf .init s = none := checks_of_ready hready
  obtain ⟨r, u, hb, he⟩ := body_of_ended h ht hc
  obtain ⟨r1, t1, r2, t2, hopen, hwrite, rfl⟩ := initSequence_done hb
  obtain ⟨hen, hstrm, -, htags, -⟩ := begin_done hopen
  have hcmd : t1.strm ≠ .none := by rw [hstrm]; decide
  have hrest := writeTable_rest t1
  rw [hwrite] at hrest
  obtain ⟨-, hstrm2, -⟩ := hrest
  have hbegin : exec .beginc s = .next (marked s (resOfStream r1) false t1) := by
    refine (exec_of_done (i := .beginc) (s := s) (u := t1) (r := resOfStream r1) hc
      (by simp only [bodyOf, hopen, andThen_done])).trans ?_
    rw [marked_eq (s0 := s) (congrArg (fun x => x.1) htags) (congrArg (fun x => x.2.1) htags) (congrArg (fun x => x.2.2.1) htags)]
  have hstream : exec .wstrt _ = .next (marked s (resOfStream r2) false t2) :=
    exec_marked rfl (writeTable_marked ..) hwrite
      (wstrtChecks_pass (s := marked s (resOfStream r1) false t1) hen hstrm)
  have hend : exec .endCmd _ = .next (marked s 0x03 false (endStream t2)) :=
    exec_end_marked (r := resOfStream r2) (exec_enabled hstream hen :) (hstrm2 ▸ hcmd)
  obtain ⟨-, -, -, -, hpg, hcol, hcur, -⟩ := sessionCommandsFrame .init s t (by simp) h
  rw [runList_cons hbegin rfl, runList_cons hstream rfl, runList_cons hend rfl]
  subst he
  exact congrArg some (marked_eq hpg hcol hcur)

/-! ### The frame commands -/

/-- WSTRI of one byte, in a marked state. -/
theorem exec_wstri_marked {s0 t u : State} {r : Byte} {b : Byte} {r' : StreamResult} (hen : ctrlEn t.ctrl = true)
    (hstrm : t.strm ≠ .none) (h : writeByte b t = .done r' u) :
    exec (.wstri b) (marked s0 r false t) = .next (marked s0 (resOfStream r') false u) :=
  exec_marked rfl (writeByte_marked ..) h (streamChecks_pass (s := marked s0 r false t) hen hstrm)

/-- After a failure the rest of a frame's WSTRI commands are suppressed. -/
theorem runList_skipped {s0 t : State} {r : Byte} (bs : List Byte) (hen : ctrlEn t.ctrl = true) (hstrm : t.strm ≠ .none)
    (ha : t.abrt = true) : ∃ r', runList (bs.map .wstri) (marked s0 r false t) = some (marked s0 r' false t) := by
  induction bs generalizing r with
  | nil => exact ⟨r, rfl⟩
  | cons b bs ih =>
    rw [List.map_cons, runList_cons (exec_wstri_marked hen hstrm (writeByte_skipped b ha)) rfl]
    exact ih

/-- A stream of bytes is one WSTRI a byte, but for what it counts. -/
theorem runList_stream {g : Tags} {s0 s u : State} {r : Byte} {r' : StreamResult} (bs : List Byte) (k : Nat)
    (hg : ∀ k, (g k).2.2.2 = s.tix) (hen : ctrlEn s.ctrl = true) (hstrm : s.strm ≠ .none) (ha : s.abrt = false)
    (h : stream g k bs s = .done r' u) :
    ctrlEn u.ctrl = true ∧ u.strm ≠ .none ∧
      ∃ r2, runList (bs.map .wstri) (marked s0 r false s) = some (marked s0 r2 false u) := by
  have hmark : ∀ k, marked s0 r false (tagged g k s) = marked s0 r false s := fun k => by
    simp [marked, tagged, hg]
  induction bs generalizing k s r with
  | nil =>
    cases h
    exact ⟨hen, hstrm, r, by rw [hmark]; rfl⟩
  | cons b bs ih =>
    rw [stream] at h
    cases hw : writeByte b (tagged g k s) with
    | hung => rw [hw] at h; cases h
    | fault => rw [hw] at h; cases h
    | done r1 t =>
      rw [hw] at h
      obtain ⟨hen1, hstrm1, ha1, htix⟩ := writeByte_done (s := tagged g k s) ha hw
      have hstrm1 : t.strm ≠ .none := by rw [hstrm1]; exact hstrm
      have hfirst := exec_wstri_marked (s0 := s0) (r := r) (t := tagged g k s) hen hstrm hw
      rw [hmark] at hfirst
      rw [List.map_cons, runList_cons hfirst rfl]
      have hgt : ∀ k, (g k).2.2.2 = t.tix := fun j => by rw [htix, hg]; exact (hg k).symm
      cases r1 with
      | ok =>
        exact ih (k + 1) hgt hen1 hstrm1 (by simpa using ha1) h fun k => by simp [marked, tagged, hgt]
      | failed o kind => cases h; exact ⟨hen1, hstrm1, runList_skipped bs hen1 hstrm1 (ha1.2 (by simp))⟩
      | skipped => cases h; exact ⟨hen1, hstrm1, runList_skipped bs hen1 hstrm1 (ha1.2 (by simp))⟩

/-- Settles O37: BEGIND, a WSTRI a byte and END are the frame's open, its stream and its end. -/
theorem frameEqualsItsExpansion : Obligations.FrameEqualsItsExpansion := by
  intro s t i hi hw hready h ht
  obtain ⟨hchecks, src, hbody, hsrc⟩ := frameCommand_cases hi
  obtain ⟨f, hf, hbytes⟩ := hsrc s
  have hc := checks_of_frameReady hready
  obtain ⟨r, u, hb, he⟩ := body_of_ended h ht ((hchecks s).trans hc)
  rw [hbody] at hb
  obtain ⟨r1, t1, hopen, hrest⟩ := emitFrame_done (s := { s with busy := true }) hw hf hb
  rw [← (hbytes :)] at hrest
  obtain ⟨hen, hstrm, hab, -⟩ := begin_done hopen
  have hdata : t1.strm ≠ .none := by rw [hstrm]; decide
  have hbegin : exec .begind s = .next (marked s (resOfStream r1) false t1) := by
    have hb := beginStream_marked s s.res true Config.cbData .data (beginFrame { s with busy := true })
    rw [hopen] at hb
    refine exec_of_done (i := .begind) (s := s) (u := marked s s.res true t1) hc ?_
    exact congrArg (Ran.andThen · fun r u => .done (resOfStream r) u) hb
  have hwstris : ∃ r2 t2, u = endStream t2 ∧ ctrlEn t2.ctrl = true ∧ t2.strm ≠ .none ∧
      runList ((frameBytes i s).map .wstri) (marked s (resOfStream r1) false t1) = some (marked s r2 false t2) := by
    rcases hrest with ⟨hok, r2, t2, hwrite, hu⟩ | ⟨hr, hu⟩
    · obtain ⟨hen2, hstrm2, r3, hrun⟩ := runList_stream (s0 := s) (r := resOfStream r1) (frameBytes i s) 0 (fun _ => rfl) hen
        hdata (by simpa [hok] using hab) hwrite
      exact ⟨r3, t2, hu, hen2, hstrm2, hrun⟩
    · obtain ⟨r2, hrun⟩ := runList_skipped (s0 := s) (r := resOfStream r1) (frameBytes i s) hen hdata (hab.2 hr)
      exact ⟨r2, t1, hu, hen, hdata, hrun⟩
  obtain ⟨r2, t2, hu, hen2, hstrm2, hrun⟩ := hwstris
  have hend := exec_end_marked (s0 := s) (r := r2) hen2 hstrm2
  rw [runList_cons hbegin rfl, runList_append hrun, runList_cons hend rfl]
  subst he hu
  rfl

end Sys2Proof.Machine
end

section
/-! SUPPORT. The display simulator through a transaction (20_memory.md R68 to R70): what it answers, where a run of stored bytes
leaves its cursor and its RAM, what a run of command bytes does, and what a byte it did not acknowledge may do. -/

namespace Sys2Proof.Machine

/-! ### One phase the display answers -/

/-- The display is the environment, and the test seam answers none of the next n phases. -/
def Unscripted (n : Nat) (bus : Bus) : Prop := bus.kind = .dcs ∧ ∀ a ∈ bus.script.take n, a = none

theorem unscripted_of_displays {bus : Bus} (n : Nat) (hk : bus.kind = .dcs) (hs : bus.script = []) : Unscripted n bus :=
  ⟨hk, by simp [hs]⟩

/-- The bus after a phase that left the display at d. -/
def Bus.answered (bus : Bus) (d : Dcs) : Bus := { bus with script := bus.script.tail, dcs := d }

theorem unscripted_answered {n : Nat} {bus : Bus} (d : Dcs) (h : Unscripted (n + 1) bus) : Unscripted n (bus.answered d) := by
  obtain ⟨hk, hs⟩ := h
  refine ⟨hk, fun a ha => hs a ?_⟩
  cases hb : bus.script with
  | nil => simp [Bus.answered, hb] at ha
  | cons x rest => exact List.mem_cons_of_mem x (by simpa [Bus.answered, hb] using ha)

theorem ask_unscripted {p : Params} {tr : List Event} {k : PhaseKind} {b : Byte} {n : Nat} {bus : Bus}
    (h : Unscripted (n + 1) bus) :
    Bus.ask p tr k b bus = (.done (Dcs.phase p bus.dcs k b).1, bus.answered (Dcs.phase p bus.dcs k b).2) := by
  obtain ⟨hk, hs⟩ := h
  cases hb : bus.script with
  | nil => rw [ask_display hk hb, Bus.answered, hb, List.tail_nil, ← hb]
  | cons x rest =>
    obtain rfl : x = none := hs x (by simp [hb])
    simp [ask_none hb, Bus.answer, Bus.answered, hk, hb]

/-! ### The open -/

/-- The display after the open of a stream with control byte cb. -/
def Dcs.opened (cb : Byte) (d : Dcs) : Dcs := { d with mode := controlMode cb, cmdbuf := [] }

/-- The bus after an open the display answered. -/
def Bus.opened (cb : Byte) (bus : Bus) : Bus := { bus with script := bus.script.drop 3, dcs := bus.dcs.opened cb }

theorem unscripted_opened {n : Nat} {bus : Bus} (cb : Byte) (h : Unscripted (3 + n) bus) : Unscripted n (bus.opened cb) := by
  obtain ⟨hk, hs⟩ := h
  exact ⟨hk, fun a ha => hs a (List.mem_of_mem_drop (i := 3) (by rwa [List.drop_take, Nat.add_sub_cancel_left]))⟩

/-- The display acknowledges an open at its own address (R69). -/
theorem display_open {p : Params} {n : Nat} {bus : Bus} (tr : List Event) (cb : Byte) (h : Unscripted (3 + n) bus) :
    ∃ bus1 bus2, OpenAcked p tr cb bus bus1 bus2 (bus.opened cb) := by
  have h0 : Unscripted (n + 2 + 1) bus := by rwa [show n + 2 + 1 = 3 + n by omega]
  have h1 := unscripted_answered (Dcs.phase p bus.dcs .start 0).2 h0
  have h2 := unscripted_answered { bus.dcs with mode := .awaitControl, cmdbuf := [] } h1
  refine ⟨_, _, ask_unscripted h0, (ask_unscripted h1).trans ?address, (ask_unscripted h2).trans ?control⟩
  case address =>
    simp only [Dcs.phase, Bus.answered, show addrByte p.dispAddr 0 = addrByte p.dispAddr 0#1 from rfl, if_true]
  case control =>
    simp [Bus.answered, Bus.opened, Dcs.phase, Dcs.opened, List.drop_drop, ← List.drop_one]

/-! ### A run of bytes -/

/-- The bus after the display has taken byte b by f. -/
def Bus.taking (f : Dcs → Byte → Dcs) (b : Byte) (bus : Bus) : Bus := bus.answered (f bus.dcs b)

theorem foldl_taking (f : Dcs → Byte → Dcs) (bs : List Byte) (bus : Bus) :
    bs.foldl (fun bus b => bus.taking f b) bus = { bus with script := bus.script.drop bs.length, dcs := bs.foldl f bus.dcs } := by
  induction bs generalizing bus with
  | nil => rfl
  | cons b bs ih =>
    rw [List.foldl_cons, ih]
    simp [Bus.taking, Bus.answered]

/-- Where the display takes the bytes of a mode by f, and keeps that mode, it acknowledges every byte. -/
theorem display_acksBytes {p : Params} {f : Dcs → Byte → Dcs} {m : DcsMode}
    (hphase : ∀ d b, d.mode = m → Dcs.phase p d .data b = (p.stDataAck, f d b)) (hmode : ∀ d b, d.mode = m → (f d b).mode = m) :
    AcksBytes p (fun n bus => Unscripted n bus ∧ bus.dcs.mode = m) (Bus.taking f) := by
  rintro n tr b bus ⟨h, hm⟩
  rw [ask_unscripted h, hphase _ _ hm]
  exact ⟨rfl, unscripted_answered _ h, hmode _ _ hm⟩

/-! ### Stored bytes -/

/-- The write cursor is within the display (R68). -/
def CursorIn (p : Params) (d : Dcs) : Prop := d.cp < p.pages ∧ d.cc < p.w

@[simp] theorem advance_mode (p : Params) (d : Dcs) : (Dcs.advance p d).mode = d.mode := by
  unfold Dcs.advance; split <;> (try split) <;> rfl

@[simp] theorem store_mode (p : Params) (d : Dcs) (b : Byte) : (Dcs.store p d b).mode = d.mode := by simp [Dcs.store]
@[simp] theorem store_pwr (p : Params) (d : Dcs) (b : Byte) : (Dcs.store p d b).pwr = d.pwr := by simp [Dcs.store]
@[simp] theorem store_seed (p : Params) (d : Dcs) (b : Byte) : (Dcs.store p d b).seed = d.seed := by simp [Dcs.store]

theorem advance_cursorIn {p : Params} {d : Dcs} (h : CursorIn p d) : CursorIn p (Dcs.advance p d) := by
  obtain ⟨hp, hc⟩ := h
  unfold Dcs.advance
  split
  · split
    · exact ⟨Nat.zero_lt_of_lt hp, Nat.zero_lt_of_lt hc⟩
    · exact ⟨by show d.cp + 1 < _; omega, Nat.zero_lt_of_lt hc⟩
  · exact ⟨hp, by show d.cc + 1 < _; omega⟩

theorem store_cursorIn {p : Params} {d : Dcs} (b : Byte) (h : CursorIn p d) : CursorIn p (Dcs.store p d b) :=
  advance_cursorIn (d := { d with ram := Memory.put d.ram (ramAddr p d.cp d.cc) b }) h

theorem cursorFlat_store {p : Params} {d : Dcs} (b : Byte) (h : CursorIn p d) :
    cursorFlat p (Dcs.store p d b) = (cursorFlat p d + 1) % p.fbLen :=
  cursorFlat_advance (d := { d with ram := Memory.put d.ram (ramAddr p d.cp d.cc) b }) h.1 h.2

theorem cursorFlat_lt {p : Params} {d : Dcs} (h : CursorIn p d) : cursorFlat p d < p.fbLen := ramAddr_lt h.1 h.2

/-- Page and column of the cursor, from its flat address. -/
theorem cursor_of_flat {p : Params} {d : Dcs} (h : CursorIn p d) : d.cp = cursorFlat p d / p.w ∧ d.cc = cursorFlat p d % p.w := by
  obtain ⟨-, hc⟩ := h
  rw [cursorFlat, Nat.add_comm, Nat.add_mul_div_right _ _ (Nat.zero_lt_of_lt hc), Nat.div_eq_of_lt hc, Nat.zero_add,
    Nat.add_mul_mod_self_right, Nat.mod_eq_of_lt hc]
  exact ⟨rfl, rfl⟩

theorem lookup_store_cursor (p : Params) (d : Dcs) (b : Byte) :
    Memory.lookup (Dcs.store p d b).ram (cursorFlat p d) = some b := by
  rw [Dcs.store, advance_ram]
  exact lookup_put_same _ _ _

theorem lookup_store_other {p : Params} {d : Dcs} {a : Nat} (b : Byte) (h : a ≠ cursorFlat p d) :
    Memory.lookup (Dcs.store p d b).ram a = Memory.lookup d.ram a := by
  rw [Dcs.store, advance_ram]
  exact lookup_put_other _ _ h

/-- What storing the bytes bs, no more than the RAM holds, does to a display d: d' is the result (R70). -/
structure Stored (p : Params) (d : Dcs) (bs : List Byte) (d' : Dcs) : Prop where
  cursorIn : CursorIn p d'
  cursor : cursorFlat p d' = (cursorFlat p d + bs.length) % p.fbLen
  pwr : d'.pwr = d.pwr
  seed : d'.seed = d.seed
  mode : d'.mode = d.mode
  written : ∀ j, j < bs.length → Memory.lookup d'.ram ((cursorFlat p d + j) % p.fbLen) = bs[j]?
  other : ∀ a, (∀ j, j < bs.length → a ≠ (cursorFlat p d + j) % p.fbLen) → Memory.lookup d'.ram a = Memory.lookup d.ram a

/-- Two places less than a whole round apart are different. -/
theorem place_inj {n a i j : Nat} (hi : i < n) (hj : j < n) (h : (a + i) % n = (a + j) % n) : i = j :=
  Nat.ModEq.eq_of_lt_of_lt (Nat.ModEq.add_left_cancel' a h) hi hj

theorem stored_nil {p : Params} {d : Dcs} (h : CursorIn p d) : Stored p d [] d where
  cursorIn := h
  cursor := (Nat.mod_eq_of_lt (cursorFlat_lt h)).symm
  pwr := rfl
  seed := rfl
  mode := rfl
  written _ hj := absurd hj (Nat.not_lt_zero _)
  other _ _ := rfl

/-- One byte more in front: its place is not among those of the rest, since they do not go once round. -/
theorem stored_cons {p : Params} {d d' : Dcs} {b : Byte} {bs : List Byte} (h : CursorIn p d) (hlen : bs.length < p.fbLen)
    (hs : Stored p (Dcs.store p d b) bs d') : Stored p d (b :: bs) d' := by
  have hplace : ∀ j, (cursorFlat p (Dcs.store p d b) + j) % p.fbLen = (cursorFlat p d + (j + 1)) % p.fbLen := fun j => by
    rw [cursorFlat_store b h, Nat.mod_add_mod, Nat.add_assoc, Nat.add_comm 1]
  have hfirst : cursorFlat p d = (cursorFlat p d + 0) % p.fbLen := (Nat.mod_eq_of_lt (cursorFlat_lt h)).symm
  refine ⟨hs.cursorIn, hs.cursor.trans (hplace _), hs.pwr.trans (store_pwr ..), hs.seed.trans (store_seed ..),
    hs.mode.trans (store_mode ..), ?written, ?other⟩
  case written =>
    rintro (_ | j) hj
    · have hne : ∀ i, i < bs.length → cursorFlat p d ≠ (cursorFlat p (Dcs.store p d b) + i) % p.fbLen := fun i hi he =>
        absurd (place_inj (Nat.zero_lt_of_lt hlen) (by omega) (hfirst.symm.trans (he.trans (hplace i)))) (by omega)
      rw [← hfirst, hs.other _ hne, lookup_store_cursor]
      rfl
    · rw [← hplace]
      exact hs.written j (Nat.lt_of_succ_lt_succ hj)
  case other =>
    intro a ha
    have h0 : a ≠ cursorFlat p d := by rw [hfirst]; exact ha 0 (Nat.succ_pos _)
    rw [hs.other a fun j hj => by rw [hplace]; exact ha (j + 1) (Nat.succ_lt_succ hj), lookup_store_other b h0]

theorem stored_foldl {p : Params} (bs : List Byte) {d : Dcs} (h : CursorIn p d) (hlen : bs.length ≤ p.fbLen) :
    Stored p d bs (bs.foldl (Dcs.store p) d) := by
  induction bs generalizing d with
  | nil => exact stored_nil h
  | cons b bs ih => exact stored_cons h hlen (ih (store_cursorIn b h) (Nat.le_of_succ_le hlen))

/-- A RAM byte read by its flat address. -/
theorem readRam_flat {p : Params} (d : Dcs) (a : Nat) :
    Dcs.readRam p d (a / p.w) (a % p.w) = (Memory.lookup d.ram a).getD (Config.ramByte d.seed a) := by
  rw [Dcs.readRam, ramAddr, Nat.div_add_mod']

/-- A stored byte, read back. -/
theorem Stored.readRam_written {p : Params} {d d' : Dcs} {bs : List Byte} (h : Stored p d bs d') {j : Nat} (hj : j < bs.length) :
    bs[j]? = some (Dcs.readRam p d' ((j + cursorFlat p d) % p.fbLen / p.w) ((j + cursorFlat p d) % p.fbLen % p.w)) := by
  rw [readRam_flat, Nat.add_comm j, h.written j hj, List.getElem?_eq_getElem hj]
  rfl

/-! ### Command bytes -/

@[simp] theorem command_mode (p : Params) (d : Dcs) (b : Byte) : (Dcs.command p d b).mode = d.mode := by
  unfold Dcs.command; split <;> rfl

@[simp] theorem command_cmdbuf (p : Params) (d : Dcs) (b : Byte) : (Dcs.command p d b).cmdbuf = d.cmdbuf ++ [b] := by
  unfold Dcs.command; split <;> rfl

theorem foldl_command_cmdbuf (p : Params) (bs : List Byte) (d : Dcs) :
    (bs.foldl (Dcs.command p) d).cmdbuf = d.cmdbuf ++ bs := by
  induction bs generalizing d with
  | nil => simp
  | cons b bs ih => simp [ih]

/-- The whole table, from an empty command buffer, switches the display on and its cursor home: its last byte does (R69). -/
theorem foldl_command_table {p : Params} {d : Dcs} (hp : p.initTable ≠ []) (hd : d.cmdbuf = []) :
    (p.initTable.foldl (Dcs.command p) d).pwr = true ∧ (p.initTable.foldl (Dcs.command p) d).cp = 0 ∧
      (p.initTable.foldl (Dcs.command p) d).cc = 0 := by
  obtain ⟨bs, b, htable⟩ := List.eq_nil_or_concat p.initTable |>.resolve_left hp
  have hlast : (bs.foldl (Dcs.command p) d).cmdbuf ++ [b] = p.initTable := by
    rw [foldl_command_cmdbuf, hd, htable]; simp
  rw [htable, List.concat_eq_append, List.foldl_append, List.foldl_cons, List.foldl_nil, Dcs.command, if_pos hlast]
  exact ⟨rfl, rfl, rfl⟩

/-! ### A byte not acknowledged (93 U12) -/

/-- What the display may do with a data byte answered in its place and not acknowledged. -/
theorem scripted_data {p : Params} {tr : List Event} {b : Byte} {a : Answer} {bus : Bus} (hk : bus.kind = .dcs)
    (ha : a.acks p .data b = false) (hm : bus.dcs.mode = .data) (h : CursorIn p bus.dcs) :
    (cursorFlat p (Bus.scripted p tr .data b a bus) = cursorFlat p bus.dcs ∨
      cursorFlat p (Bus.scripted p tr .data b a bus) = (cursorFlat p bus.dcs + 1) % p.fbLen) ∧
    (Bus.scripted p tr .data b a bus).pwr = bus.dcs.pwr ∧ (Bus.scripted p tr .data b a bus).seed = bus.dcs.seed ∧
    ∀ x, x ≠ cursorFlat p bus.dcs →
      Memory.lookup (Bus.scripted p tr .data b a bus).ram x = Memory.lookup bus.dcs.ram x := by
  cases hu : bus.unacked with
  | dropped =>
    rw [scripted_dropped hu ha]
    exact ⟨.inl rfl, rfl, rfl, fun _ _ => rfl⟩
  | anyValue =>
    have he : Bus.scripted p tr .data b a bus =
        Dcs.unacknowledged p bus.dcs .data b (Config.unacknowledged bus.epoch tr .data b) := by
      simp [Bus.scripted, hk, ha, hu]
    rw [he]
    exact unacknowledged_data b _ hm h.1 h.2

end Sys2Proof.Machine
end

section
/-! SUPPORT. INIT and the frame commands on the display simulator (42_frame_transfer.md R178, 70_reset_and_hazards.md R229): the
state and the display they end in, where every byte is acknowledged and where frame byte k is not. -/

namespace Sys2Proof.Machine

/-! ### A frame command that the display acknowledges -/

/-- The display after a frame command whose bytes bs it took. -/
def Dcs.framed (p : Params) (bs : List Byte) (d : Dcs) : Dcs := (bs.foldl (Dcs.store p) (d.opened Config.cbData)).stop

theorem opened_data_mode (d : Dcs) : (d.opened Config.cbData).mode = .data := rfl

theorem display_acksData (p : Params) :
    AcksBytes p (fun n bus => Unscripted n bus ∧ bus.dcs.mode = .data) (Bus.taking (Dcs.store p)) :=
  display_acksBytes (fun d b hm => by simp [Dcs.phase, hm]) fun d b hm => by rw [store_mode, hm]

/-- What storing a frame from the old cursor on does; the Stop and the open leave cursor, RAM and power. -/
theorem framed_stored {p : Params} {bs : List Byte} {d : Dcs} (h : CursorIn p d) (hlen : bs.length ≤ p.fbLen) :
    Stored p d bs { Dcs.framed p bs d with mode := d.mode } := by
  have hs := stored_foldl bs (d := d.opened Config.cbData) h hlen
  exact ⟨hs.cursorIn, hs.cursor, hs.pwr, hs.seed, rfl, hs.written, hs.other⟩

/-- A frame command under DCS: it succeeds, the display has taken its bytes, and it can be issued again. -/
theorem frame_displayed {i : Instr} {s : State} (hi : i ∈ [Instr.xfer, .clear, .fill]) (hw : s.cfg.wf = true) (hd : Displays s)
    (hready : FrameReady s) :
    ∃ t, exec i s = .next t ∧ t.res = 0x00 ∧ t.busy = false ∧ t.cfg = s.cfg ∧ Displays t ∧ FrameReady t ∧
      t.bus.dcs = Dcs.framed s.cfg (frameBytes i s) s.bus.dcs := by
  obtain ⟨hk, hs⟩ := hd
  obtain ⟨hchecks, src, hbody, hsrc⟩ := frameCommand_cases hi
  obtain ⟨f, hf, hbytes⟩ := hsrc s
  have hun := unscripted_of_displays (3 + s.cfg.fbLen) hk hs
  obtain ⟨bus1, bus2, hopen⟩ := display_open s.trace Config.cbData hun
  have hb := emitFrame_acked (s := { s with busy := true }) hw hf hbytes hopen (display_acksData _)
    ⟨unscripted_opened _ hun, opened_data_mode _⟩
  rw [← hbody, foldl_taking] at hb
  refine ⟨_, exec_of_done ((hchecks s).trans (checks_of_frameReady hready)) hb, rfl, rfl, rfl, ⟨hk, ?script⟩, ?ready, rfl⟩
  case script => show ((s.bus.script.drop 3).drop _) = []; simp [hs]
  case ready => exact ⟨⟨(by decide : ctrlEn 0x14 = true), rfl, rfl⟩, rfl⟩

theorem frameBytes_length {i : Instr} (s : State) (hi : i ∈ [Instr.xfer, .clear, .fill]) :
    (frameBytes i s).length = s.cfg.fbLen := by
  obtain ⟨-, src, -, hsrc⟩ := frameCommand_cases hi
  obtain ⟨f, -, hbytes⟩ := hsrc s
  simp [hbytes]

/-- A whole frame goes once round the display, so the cursor is where it was. -/
theorem framed_cursor {p : Params} {bs : List Byte} {d : Dcs} (h : CursorIn p d) (hlen : bs.length = p.fbLen) :
    (Dcs.framed p bs d).cp = d.cp ∧ (Dcs.framed p bs d).cc = d.cc := by
  have hs := framed_stored h hlen.le
  have hflat : cursorFlat p { Dcs.framed p bs d with mode := d.mode } = cursorFlat p d := by
    rw [hs.cursor, hlen, Nat.add_mod_right, Nat.mod_eq_of_lt (cursorFlat_lt h)]
  obtain ⟨hcp, hcc⟩ := cursor_of_flat h
  obtain ⟨hcp', hcc'⟩ := cursor_of_flat hs.cursorIn
  rw [hflat] at hcp' hcc'
  exact ⟨hcp'.trans hcp.symm, hcc'.trans hcc.symm⟩

/-- Settles O53: the display has taken FB_LEN bytes from the cursor on. -/
theorem frameReadsBackFromTheCursor : Obligations.FrameReadsBackFromTheCursor := by
  intro s i hi hw hd hready hp hc
  have hlen := frameBytes_length s hi
  obtain ⟨t, h, hres, hbusy, -, -, -, hdcs⟩ := frame_displayed hi hw hd hready
  have hs := framed_stored (bs := frameBytes i s) (d := s.bus.dcs) ⟨hp, hc⟩ hlen.le
  obtain ⟨hcp, hcc⟩ := framed_cursor (d := s.bus.dcs) ⟨hp, hc⟩ hlen
  rw [← hdcs] at hs hcp hcc
  exact ⟨t, h, hres, hbusy, hcp, hcc, hs.pwr, fun j hj => hs.readRam_written (hlen ▸ hj)⟩

/-! ### INIT, FILL, CLEAR (R178) -/

theorem display_acksCommands (p : Params) :
    AcksBytes p (fun n bus => Unscripted n bus ∧ bus.dcs.mode = .cmd) (Bus.taking (Dcs.command p)) :=
  display_acksBytes (fun d b hm => by simp [Dcs.phase, hm]) fun d b hm => by rw [command_mode, hm]

/-- INIT under DCS: it succeeds, the display is on with its cursor home, and a frame command can be issued. -/
theorem init_displayed {s : State} (hw : s.cfg.wf = true) (hd : Displays s) (hready : Ready s) :
    ∃ t, exec .init s = .next t ∧ t.res = 0x00 ∧ t.cfg = s.cfg ∧ Displays t ∧ FrameReady t ∧
      t.bus.dcs.pwr = true ∧ t.bus.dcs.cp = 0 ∧ t.bus.dcs.cc = 0 := by
  obtain ⟨hk, hs⟩ := hd
  have hun := unscripted_of_displays (3 + s.cfg.initLen) hk hs
  obtain ⟨bus1, bus2, hopen⟩ := display_open s.trace Config.cbCmd hun
  have hb := initSequence_acked (s := { s with busy := true }) hw hopen (display_acksCommands _) ⟨unscripted_opened _ hun, rfl⟩
  rw [foldl_taking] at hb
  refine ⟨_, exec_of_done (i := .init) (s := s) (checks_of_ready hready) hb, rfl, ?cfg, ⟨?kind, ?script⟩,
    ⟨⟨(by decide : ctrlEn 0x14 = true), rfl, rfl⟩, sessAfterEnd_init _⟩,
    foldl_command_table (d := s.bus.dcs.opened Config.cbCmd) (initTable_ne_nil hw) rfl⟩
  case cfg => exact sessForCommands_cfg _
  case kind => exact hk
  case script => show ((s.bus.script.drop 3).drop _) = []; simp [hs]

/-- A display whose RAM has been filled from cursor (0, 0) with one byte shows that byte's bits. -/
theorem framed_pixel {p : Params} (hw : p.wf = true) {d : Dcs} (hp : d.cp = 0) (hc : d.cc = 0) (b : Byte) {x y : Nat}
    (hx : x < p.w) (hy : y < p.h) :
    Dcs.pixelLit p (Dcs.framed p (List.replicate p.fbLen b) d) x y = (d.pwr && b.getLsbD (y % 8)) := by
  obtain ⟨hw1, hh, hmod, -⟩ := wf_geometry hw
  have hin : CursorIn p d := ⟨hp ▸ wf_pages hw, hc ▸ hw1⟩
  have hs := framed_stored (bs := List.replicate p.fbLen b) hin (by simp)
  have hpage : y / 8 < p.pages := by unfold Params.pages; omega
  have hplace : y / 8 * p.w + x < p.fbLen := ramAddr_lt hpage hx
  have hflat : cursorFlat p d = 0 := by simp [cursorFlat, hp, hc]
  have hread : Dcs.readRam p (Dcs.framed p (List.replicate p.fbLen b) d) (y / 8) x = b := by
    have hj := hs.written (y / 8 * p.w + x) (by simpa using hplace)
    rw [hflat, Nat.zero_add, Nat.mod_eq_of_lt hplace, List.getElem?_replicate, if_pos hplace] at hj
    rw [Dcs.readRam, ramAddr, (hj : Memory.lookup (Dcs.framed p _ d).ram _ = some b)]
    rfl
  rw [Dcs.pixelLit, hread]
  exact congrArg (· && _) hs.pwr

theorem fillByte_bit {i : Nat} (h : i < 8) : Config.fillByte.getLsbD i = true := by
  have hall : ∀ i < 8, Config.fillByte.getLsbD i = true := by decide
  exact hall i h

theorem clrByte_bit (i : Nat) : Config.clrByte.getLsbD i = false := BitVec.getLsbD_zero

/-- Settles O55: INIT leaves the display on and its cursor home; FILL goes once round it with 0xFF, CLEAR with 0x00. -/
theorem initFillClearShowOnTheDisplay : Obligations.InitFillClearShowOnTheDisplay := by
  intro s hw hd hready
  obtain ⟨t, ht, htres, htcfg, htd, htready, hpwr, hcp, hcc⟩ := init_displayed hw hd hready
  obtain ⟨u, hu, hures, -, hucfg, hud, huready, hudcs⟩ := frame_displayed (i := .fill) (by simp) (htcfg ▸ hw) htd htready
  rw [htcfg] at hucfg hudcs
  obtain ⟨v, hv, hvres, -, -, -, -, hvdcs⟩ := frame_displayed (i := .clear) (by simp) (hucfg ▸ hw) hud huready
  rw [hucfg] at hvdcs
  have hfill : frameBytes .fill t = List.replicate s.cfg.fbLen Config.fillByte := by rw [← htcfg]; rfl
  have hclear : frameBytes .clear u = List.replicate s.cfg.fbLen Config.clrByte := by rw [← hucfg]; rfl
  refine ⟨t, u, v, ht, hu, hv, htres, hpwr, hcp, hcc, hures, hvres, fun x y hx hy => ⟨?filled, ?cleared⟩⟩
  case filled =>
    rw [hudcs, hfill, framed_pixel hw hcp hcc _ hx hy, hpwr, fillByte_bit (Nat.mod_lt y (by decide))]
    rfl
  case cleared =>
    obtain ⟨hucp, hucc⟩ := framed_cursor (p := s.cfg) (bs := frameBytes .fill t) (d := t.bus.dcs)
      ⟨hcp ▸ wf_pages hw, hcc ▸ (wf_geometry hw).1⟩ (by simp [hfill])
    rw [← hudcs] at hucp hucc
    rw [hvdcs, hclear, framed_pixel hw (hucp.trans hcp) (hucc.trans hcc) _ hx hy, clrByte_bit, Bool.and_false]

end Sys2Proof.Machine
end

section
/-! SUPPORT. A frame command whose byte k the display does not acknowledge (70_reset_and_hazards.md R229, 93 U12). -/

namespace Sys2Proof.Machine

/-! ### One byte not acknowledged -/

theorem writeByte_of_fail {b : Byte} {s : State} {st : Byte} {bus : Bus} (ha : s.abrt = false)
    (h : Bus.ask s.cfg s.trace .data b s.bus = (.done st, bus)) (hst : classify s.cfg .data 0#1 st ≠ .ack) :
    writeByte b s = .done (.failed (classify s.cfg .data 0#1 st) .data) { s with
      data := b, dataWritten := true, ctrl := 0x84, stat := st, pend := none, bus := bus, trace := s.trace ++ [.d b st]
      abrt := true } := by
  rcases writeByte_cases b s ha with ⟨bus', h', -⟩ | ⟨st', bus', h', he⟩ <;> rw [h] at h' <;> cases h'
  rw [he, if_neg hst, completed_data]

/-- A stream whose bytes before b are acknowledged and b is not: it stops at b, having counted the bytes before. -/
theorem stream_failed {P : Nat → Bus → Prop} {next : Byte → Bus → Bus} (g : Tags) (bs rest : List Byte) {b st : Byte} {s : State}
    {bus : Bus} (hw : s.cfg.wf = true) (hP : AcksBytes s.cfg P next) (ha : s.abrt = false) (hbus : P bs.length s.bus)
    (hs : AfterByte s)
    (hask : Bus.ask s.cfg (s.trace ++ bs.map fun b => .d b s.cfg.stDataAck) .data b (bs.foldl (fun bus b => next b bus) s.bus) =
      (.done st, bus))
    (hst : classify s.cfg .data 0#1 st ≠ .ack) :
    ∃ u, stream g 0 (bs ++ b :: rest) s = .done (.failed (classify s.cfg .data 0#1 st) .data) u ∧ tagsOf u = g bs.length ∧
      u.bus = bus := by
  rw [stream_append, stream_acked g bs 0 hw hP ha hbus (.inr hs)]
  simp only [andThen_done, Nat.zero_add]
  have hfail := writeByte_of_fail (s := tagged g bs.length (streamedState bs (bs.foldl (fun bus b => next b bus) s.bus) s))
    ha hask hst
  rw [stream, tagged_tagged, (hfail :)]
  exact ⟨_, rfl, rfl, rfl⟩

theorem transact_failed {cb : Byte} {mode : Strm} {write : State → Ran StreamResult} {s t u : State} {o : PhaseOutcome}
    {k : PhaseKind} (hopen : beginStream cb mode s = .done .ok t) (hwrite : write t = .done (.failed o k) u) :
    transact cb mode write s = .done (resOf o k) (endStream u) := by
  unfold transact
  simp only [hopen, andThen_done, hwrite]
  rfl

/-- A frame command whose byte k is answered with a status that does not acknowledge it. -/
theorem frame_failed {i : Instr} {s : State} {k : Nat} {st : Byte} (hi : i ∈ [Instr.xfer, .clear, .fill]) (hw : s.cfg.wf = true)
    (hready : FrameReady s) (hk : s.bus.kind = .dcs)
    (hs : s.bus.script = List.replicate (3 + k) none ++ [some (.done st)]) (hst : st &&& s.cfg.stMask ≠ s.cfg.stDataAck)
    (hlt : k < s.cfg.fbLen) :
    ∃ t tr b bus, exec i s = .next t ∧ t.busy = false ∧ t.res = resOf (classify s.cfg .data 0#1 st) .data ∧ t.cur.toNat = k ∧
      t.bus.script = [] ∧ bus.kind = .dcs ∧ bus.unacked = s.bus.unacked ∧
      bus.dcs = ((frameBytes i s).take k).foldl (Dcs.store s.cfg) (s.bus.dcs.opened Config.cbData) ∧
      t.bus.dcs = (Bus.scripted s.cfg tr .data b (.done st) bus).stop := by
  obtain ⟨hchecks, src, hbody, hsrc⟩ := frameCommand_cases hi
  obtain ⟨f, hf, hbytes⟩ := hsrc s
  have hlen := frameBytes_length s hi
  have hbs : frameBytes i s = (frameBytes i s).take k ++ (frameBytes i s)[k] :: (frameBytes i s).drop (k + 1) := by simp
  have htake : ((frameBytes i s).take k).length = k := by simp [hlen, hlt.le]
  have hun : Unscripted (3 + k) s.bus := ⟨hk, fun a ha => by
    rw [hs, List.take_left' (by simp)] at ha
    exact List.eq_of_mem_replicate ha⟩
  obtain ⟨bus1, bus2, hopen⟩ := display_open s.trace Config.cbData hun
  have hopened := beginStream_acked (s := beginFrame { s with busy := true }) (mode := .data) hw hopen
  have hscript : (((frameBytes i s).take k).foldl (fun bus b => bus.taking (Dcs.store s.cfg) b)
      (s.bus.opened Config.cbData)).script = [some (.done st)] := by
    rw [foldl_taking, htake]
    simp [Bus.opened, hs, List.drop_append, List.drop_replicate]
  have hfail : classify s.cfg .data 0#1 st ≠ .ack := by
    rw [classify_data, if_neg hst]
    split <;> simp
  obtain ⟨u, hstream, htags, hubus⟩ := stream_failed (frameTags { s with busy := true }) ((frameBytes i s).take k)
    ((frameBytes i s).drop (k + 1)) (s := openedState Config.cbData .data (s.bus.opened Config.cbData)
      (beginFrame { s with busy := true }))
    hw (display_acksData _) rfl ⟨by rw [htake]; exact unscripted_opened _ hun, opened_data_mode _⟩ ⟨rfl, rfl, rfl, rfl⟩
    (ask_some hscript) hfail
  rw [← hbs, hbytes] at hstream
  have hwrite := emitPages_opened (s := { s with busy := true }) (bus := s.bus.opened Config.cbData) hw hf
  rw [hstream] at hwrite
  have hb := transact_failed (write := fun t => emitPages src t.cfg.pages t) hopened hwrite
  rw [← emitFrame_transact, ← hbody] at hb
  have hstop : (endStream { u with tix := id u.tix, initd := _ }).bus = Bus.stop _ := congrArg Bus.stop hubus
  refine ⟨_, _, (frameBytes i s)[k], _, exec_of_done ((hchecks s).trans (checks_of_frameReady hready)) hb, rfl, rfl, ?cur,
    ?script, ?kind, ?unacked, ?before, congrArg Bus.dcs hstop⟩
  case cur =>
    have hcur : u.cur = BitVec.ofNat 16 k := by rw [htake] at htags; exact congrArg (fun x => x.2.2.1) htags
    obtain ⟨-, -, -, hmax⟩ := wf_geometry hw
    show u.cur.toNat = k
    rw [hcur, BitVec.toNat_ofNat, Nat.mod_eq_of_lt (by omega)]
  case script => exact congrArg Bus.script hstop
  case kind => rw [foldl_taking]; exact hk
  case unacked => rw [foldl_taking]; rfl
  case before => rw [foldl_taking]; rfl

/-- RES of the failure (R34). -/
theorem resOf_failedData {p : Params} {st : Byte} (h : st &&& p.stMask ≠ p.stDataAck) :
    resOf (classify p .data 0#1 st) .data = if st &&& p.stMask = p.stDataNack then 0x0D else 0x0E := by
  rw [resOf_classify_data, if_neg h]

theorem acks_data_false {p : Params} {b st : Byte} (h : st &&& p.stMask ≠ p.stDataAck) :
    Answer.acks p .data b (.done st) = false := by
  rw [Answer.acks, classify_data, if_neg h]
  split <;> simp

/-- Settles O54: the display has stored the k bytes before and drops the one not acknowledged. -/
theorem abortedFrameDisplacesTheCursor : Obligations.AbortedFrameDisplacesTheCursor := by
  intro s i k hi hw hready hk hu hs hcp hcc hlt
  have hmask : s.cfg.stDataNack &&& s.cfg.stMask = s.cfg.stDataNack := wf_masked hw (by simp [Params.codes])
  have hst : s.cfg.stDataNack &&& s.cfg.stMask ≠ s.cfg.stDataAck := by
    rw [hmask]
    obtain ⟨-, -, hne⟩ := wf_ack_ne_nack hw
    exact hne.symm
  obtain ⟨t, tr, b, bus, h, hbusy, hres, hcur, hscript, -, hbu, hbd, hdcs⟩ := frame_failed hi hw hready hk hs hst hlt
  rw [scripted_dropped (hbu.trans hu) (acks_data_false hst)] at hdcs
  rw [resOf_failedData hst, if_pos hmask] at hres
  have hin : CursorIn s.cfg s.bus.dcs := ⟨hcp ▸ wf_pages hw, hcc ▸ (wf_geometry hw).1⟩
  have hlen : ((frameBytes i s).take k).length = k := by simp [frameBytes_length s hi, hlt.le]
  have hstored := stored_foldl ((frameBytes i s).take k) (d := s.bus.dcs.opened Config.cbData) hin (by omega)
  rw [← hbd] at hstored
  have hflat : cursorFlat s.cfg bus.dcs = k := by
    rw [hstored.cursor, hlen]
    show (s.bus.dcs.cp * _ + s.bus.dcs.cc + k) % _ = k
    rw [hcp, hcc, Nat.zero_mul, Nat.zero_add, Nat.mod_eq_of_lt hlt]
  obtain ⟨hp, hc⟩ := cursor_of_flat hstored.cursorIn
  rw [hflat] at hp hc
  exact ⟨t, h, hbusy, hres, hcur, hdcs ▸ hp, hdcs ▸ hc, hscript⟩

/-- The display's RAM byte at flat address a. -/
abbrev ramAt (p : Params) (d : Dcs) (a : Nat) : Byte := Dcs.readRam p d (a / p.w) (a % p.w)

theorem ramAt_congr {p : Params} {d d' : Dcs} {a : Nat} (h : Memory.lookup d'.ram a = Memory.lookup d.ram a)
    (hs : d'.seed = d.seed) : ramAt p d' a = ramAt p d a := by
  rw [ramAt, ramAt, readRam_flat, readRam_flat, h, hs]

/-- Settles O56: the display has stored the k bytes before; of the one not acknowledged its Fate is free. -/
theorem abortedFrameAdvancesByTheAcknowledgedBytes : Obligations.AbortedFrameAdvancesByTheAcknowledgedBytes := by
  intro s i k st hi hw hready hk hs hst hcp hcc hlt
  obtain ⟨t, tr, b, bus, h, hbusy, hres, hcur, hscript, hbk, -, hbd, hdcs⟩ := frame_failed hi hw hready hk hs hst hlt
  rw [resOf_failedData hst] at hres
  have hlen : ((frameBytes i s).take k).length = k := by simp [frameBytes_length s hi, hlt.le]
  have hin : CursorIn s.cfg s.bus.dcs := ⟨hcp, hcc⟩
  have hstored := stored_foldl ((frameBytes i s).take k) (d := s.bus.dcs.opened Config.cbData) hin (by omega)
  rw [← hbd] at hstored
  have hflat : cursorFlat s.cfg bus.dcs = (cursorFlat s.cfg s.bus.dcs + k) % s.cfg.fbLen := hlen ▸ hstored.cursor
  obtain ⟨hmoved, hpwr, hseed, hkept⟩ := scripted_data (tr := tr) (b := b) hbk (acks_data_false hst)
    (hstored.mode.trans (opened_data_mode _)) hstored.cursorIn
  have hplace : ∀ i j, i ≠ j → i < s.cfg.fbLen → j < s.cfg.fbLen →
      (i + cursorFlat s.cfg s.bus.dcs) % s.cfg.fbLen ≠ (cursorFlat s.cfg s.bus.dcs + j) % s.cfg.fbLen := fun i j hij hi hj he =>
    hij (place_inj hi hj (by rwa [Nat.add_comm i] at he))
  have hread : ∀ j, j ≠ k → j < s.cfg.fbLen → ramAt s.cfg t.bus.dcs ((j + cursorFlat s.cfg s.bus.dcs) % s.cfg.fbLen) =
      ramAt s.cfg bus.dcs ((j + cursorFlat s.cfg s.bus.dcs) % s.cfg.fbLen) := fun j hj hlt' => by
    rw [hdcs]
    exact ramAt_congr (hkept _ (hflat ▸ hplace j k hj hlt' hlt)) hseed
  rw [hflat, Nat.mod_add_mod] at hmoved
  refine ⟨t, h, hbusy, hres, hcur, hscript, ?pwr, ?cursor, fun j hj => ?before, fun j hkj hj => ?after⟩
  case pwr => rw [hdcs]; exact hpwr.trans hstored.pwr
  case cursor => rw [hdcs]; exact hmoved
  case before =>
    have hwritten := hstored.readRam_written (j := j) (hlen.symm ▸ hj)
    rw [List.getElem?_take_of_lt hj] at hwritten
    exact hwritten.trans (congrArg some (hread j (by omega) (by omega)).symm)
  case after =>
    refine (hread j (by omega) hj).trans (ramAt_congr (hstored.other _ fun i hi => ?_) hstored.seed)
    exact hplace j i (by omega) hj (by omega)

end Sys2Proof.Machine
end
